-- ==== Sys2Proof/Word.lean ====
section
/-! DEFINITION. The byte of the block's two sequences (00_scope.md R7 `BYTE_W`). -/

namespace Sys2Proof

/-- A byte, 0 to 255 (00_scope.md R7: `BYTE_W = 8`). -/
abbrev Byte := BitVec 8

end Sys2Proof
end

