-- ==== Sys2Proof/Syntax.lean ====
section
/-! DEFINITION. The instructions: one constructor per row of spec/opcode_table.json (30_encoding.md R73). -/

namespace Sys2Proof

/-- The 17 rows of the opcode table. The first eight are the operation selectors (format `OP3`, R60),
`start` the command (format `CTRL1`, R61), the `lc…` rows a length-code byte as each decoder reads it
(format `LC8`, R63), the `pb…` rows a payload byte (format `PB8`, R66). -/
inductive Instr where
  | cobsEnc
  | cobsDec
  | cobsrEnc
  | cobsrDec
  | cobsEnccap
  | cobsDeccap
  | cobsrEnccap
  | cobsrDeccap
  | start
  | lcZeroCobsDec
  | lcFullCobsDec
  | lcSpanCobsDec (c : Byte)
  | lcZeroCobsrDec
  | lcFullCobsrDec
  | lcSpanCobsrDec (c : Byte)
  | pbZero
  | pbData (b : Byte)
  deriving DecidableEq, Repr

end Sys2Proof
end

