-- ==== Sys2Proof/WellFormed.lean ====
section
/-! DEFINITION. Which instruction terms stand for a row of the opcode table. -/

namespace Sys2Proof

/-- An `LC.SPAN` code is `0x01` to `0xFE` (30_encoding.md R63) and a `PB.DATA` byte is `0x01` to `0xFF` (R66);
no other row has an operand. -/
def Instr.wellFormed : Instr → Bool
  | .cobsEnc => true
  | .cobsDec => true
  | .cobsrEnc => true
  | .cobsrDec => true
  | .cobsEnccap => true
  | .cobsDeccap => true
  | .cobsrEnccap => true
  | .cobsrDeccap => true
  | .start => true
  | .lcZeroCobsDec => true
  | .lcFullCobsDec => true
  | .lcSpanCobsDec c => c != 0#8 && c != 255#8
  | .lcZeroCobsrDec => true
  | .lcFullCobsrDec => true
  | .lcSpanCobsrDec c => c != 0#8 && c != 255#8
  | .pbZero => true
  | .pbData b => b != 0#8

end Sys2Proof
end

