-- ==== Sys2Proof/Decode.lean ====
section
/-! DEFINITION. From words to instructions and back (30_encoding.md R60 to R66, R73), by the spec's encoding tables. -/

namespace Sys2Proof

/-- The two decoders of the block (30_encoding.md R73: the key `decoder` of an `LC8` row). -/
inductive Decoder where
  | cobs
  | cobsr
  deriving DecidableEq, Repr

/-- The four formats of 30_encoding.md section 1. The block knows a word's format by where the word stands: the
latched selector, a write of `CTRL`, a length-code byte at a span start, a payload byte inside a span (R68). -/
inductive Format where
  | op3
  | ctrl1
  | lc8 (d : Decoder)
  | pb8
  deriving DecidableEq, Repr

/-- Why a word is no instruction: a write of `CTRL` with bit 0 clear is a no-operation (R61). No other format
has such a word (R70). -/
inductive Reject where
  | noCommand
  deriving DecidableEq, Repr

/-- R60: the operation selector by its fields `SIZE`, `VARIANT`, `DIR` (bits 2, 1, 0). -/
def decodeOp3 (o : BitVec 3) : Instr :=
  match o.getLsbD 2, o.getLsbD 1, o.getLsbD 0 with
  | false, false, false => .cobsEnc
  | false, false, true => .cobsDec
  | false, true, false => .cobsrEnc
  | false, true, true => .cobsrDec
  | true, false, false => .cobsEnccap
  | true, false, true => .cobsDeccap
  | true, true, false => .cobsrEnccap
  | true, true, true => .cobsrDeccap

/-- R61: a value written to `CTRL` is `START` when its bit 0 is set; bits above bit 0 are ignored. -/
def decodeCtrl1 (v : Byte) : Except Reject Instr :=
  if v.getLsbD 0 then .ok .start else .error .noCommand

/-- R63: the class of a length-code byte, as decoder `d` reads it. -/
def decodeLc8 (d : Decoder) (c : Byte) : Instr :=
  match d with
  | .cobs => if c = 0#8 then .lcZeroCobsDec else if c = 255#8 then .lcFullCobsDec else .lcSpanCobsDec c
  | .cobsr => if c = 0#8 then .lcZeroCobsrDec else if c = 255#8 then .lcFullCobsrDec else .lcSpanCobsrDec c

/-- R66 (b), R70: the class of a payload byte. -/
def decodePb8 (b : Byte) : Instr :=
  if b = 0#8 then .pbZero else .pbData b

/-- The instruction that a word of a format stands for; total, rejecting by name. A selector has 3 bits, so bits
above bit 2 are dropped (10_state.md R17). -/
def decode (f : Format) (w : Byte) : Except Reject Instr :=
  match f with
  | .op3 => .ok (decodeOp3 (w.setWidth 3))
  | .ctrl1 => decodeCtrl1 w
  | .lc8 d => .ok (decodeLc8 d w)
  | .pb8 => .ok (decodePb8 w)

/-- The format of an instruction's word (the table's key `format`, with `decoder` for `LC8`). -/
def formatOf : Instr → Format
  | .cobsEnc => .op3
  | .cobsDec => .op3
  | .cobsrEnc => .op3
  | .cobsrDec => .op3
  | .cobsEnccap => .op3
  | .cobsDeccap => .op3
  | .cobsrEnccap => .op3
  | .cobsrDeccap => .op3
  | .start => .ctrl1
  | .lcZeroCobsDec => .lc8 .cobs
  | .lcFullCobsDec => .lc8 .cobs
  | .lcSpanCobsDec _ => .lc8 .cobs
  | .lcZeroCobsrDec => .lc8 .cobsr
  | .lcFullCobsrDec => .lc8 .cobsr
  | .lcSpanCobsrDec _ => .lc8 .cobsr
  | .pbZero => .pb8
  | .pbData _ => .pb8

/-- The word of an instruction, every bit its format leaves out being 0 (R60, R61, R63, R66). -/
def encode : Instr → Byte
  | .cobsEnc => 0b000#8
  | .cobsDec => 0b001#8
  | .cobsrEnc => 0b010#8
  | .cobsrDec => 0b011#8
  | .cobsEnccap => 0b100#8
  | .cobsDeccap => 0b101#8
  | .cobsrEnccap => 0b110#8
  | .cobsrDeccap => 0b111#8
  | .start => 0b1#8
  | .lcZeroCobsDec => 0x00#8
  | .lcFullCobsDec => 0xFF#8
  | .lcSpanCobsDec c => c
  | .lcZeroCobsrDec => 0x00#8
  | .lcFullCobsrDec => 0xFF#8
  | .lcSpanCobsrDec c => c
  | .pbZero => 0x00#8
  | .pbData b => b

/-- The bits of a word that its format looks at (30_encoding.md section 1, the formats' widths). -/
def formatMask : Format → Byte
  | .op3 => 0b111#8
  | .ctrl1 => 0b1#8
  | .lc8 _ => 0xFF#8
  | .pb8 => 0xFF#8

/-- The name of an instruction's row in the opcode table. -/
def mnemonic : Instr → String
  | .cobsEnc => "COBS.ENC"
  | .cobsDec => "COBS.DEC"
  | .cobsrEnc => "COBSR.ENC"
  | .cobsrDec => "COBSR.DEC"
  | .cobsEnccap => "COBS.ENCCAP"
  | .cobsDeccap => "COBS.DECCAP"
  | .cobsrEnccap => "COBSR.ENCCAP"
  | .cobsrDeccap => "COBSR.DECCAP"
  | .start => "START"
  | .lcZeroCobsDec => "LC.ZERO@COBS.DEC"
  | .lcFullCobsDec => "LC.FULL@COBS.DEC"
  | .lcSpanCobsDec _ => "LC.SPAN@COBS.DEC"
  | .lcZeroCobsrDec => "LC.ZERO@COBSR.DEC"
  | .lcFullCobsrDec => "LC.FULL@COBSR.DEC"
  | .lcSpanCobsrDec _ => "LC.SPAN@COBSR.DEC"
  | .pbZero => "PB.ZERO"
  | .pbData _ => "PB.DATA"

/-- One row of spec/opcode_table.json: `mask` and `pattern` are its keys `mask` and `match`. -/
structure Row where
  name : String
  format : Format
  mask : Byte
  pattern : Byte
  deriving DecidableEq, Repr

/-- R73: the rows of the opcode table in the order listed. -/
def opcodeRows : List Row :=
  [ ⟨"COBS.ENC", .op3, 0x7#8, 0x0#8⟩,
    ⟨"COBS.DEC", .op3, 0x7#8, 0x1#8⟩,
    ⟨"COBSR.ENC", .op3, 0x7#8, 0x2#8⟩,
    ⟨"COBSR.DEC", .op3, 0x7#8, 0x3#8⟩,
    ⟨"COBS.ENCCAP", .op3, 0x7#8, 0x4#8⟩,
    ⟨"COBS.DECCAP", .op3, 0x7#8, 0x5#8⟩,
    ⟨"COBSR.ENCCAP", .op3, 0x7#8, 0x6#8⟩,
    ⟨"COBSR.DECCAP", .op3, 0x7#8, 0x7#8⟩,
    ⟨"START", .ctrl1, 0x1#8, 0x1#8⟩,
    ⟨"LC.ZERO@COBS.DEC", .lc8 .cobs, 0xFF#8, 0x00#8⟩,
    ⟨"LC.FULL@COBS.DEC", .lc8 .cobs, 0xFF#8, 0xFF#8⟩,
    ⟨"LC.SPAN@COBS.DEC", .lc8 .cobs, 0x00#8, 0x00#8⟩,
    ⟨"LC.ZERO@COBSR.DEC", .lc8 .cobsr, 0xFF#8, 0x00#8⟩,
    ⟨"LC.FULL@COBSR.DEC", .lc8 .cobsr, 0xFF#8, 0xFF#8⟩,
    ⟨"LC.SPAN@COBSR.DEC", .lc8 .cobsr, 0x00#8, 0x00#8⟩,
    ⟨"PB.ZERO", .pb8, 0xFF#8, 0x00#8⟩,
    ⟨"PB.DATA", .pb8, 0x00#8, 0x00#8⟩ ]

/-- R73: the first row of a word's format whose `mask` and `match` the word meets. -/
def firstMatch (f : Format) (w : Byte) : Option String :=
  (opcodeRows.find? fun r => r.format == f && w &&& r.mask == r.pattern).map Row.name

/-- DESIGN CHOICE (log entry 8): the format in which a word given by number alone is read. The table's formats
overlap and a number does not say which one is meant: 1 bit is a command, up to 3 bits a selector; in a byte
a value below 8 is read as a selector and any other as a length code met by `COBS.DEC`. -/
def tableFormat (nbits w : Nat) : Option Format :=
  if nbits = 1 then some .ctrl1
  else if nbits = 2 ∨ nbits = 3 then some .op3
  else if nbits = 8 then
    if w < 8 then some .op3 else if w < 256 then some (.lc8 .cobs) else none
  else none

/-- The instruction the decoder reads from a table word of `nbits` bits whose value is `w`. -/
def decodeTableWord (nbits w : Nat) : Option Instr :=
  match tableFormat nbits w with
  | none => none
  | some f =>
    match decode f (BitVec.ofNat 8 w) with
    | .ok i => some i
    | .error _ => none

end Sys2Proof
end

