-- ==== Sys2Proof/Config.lean ====
section
/-! DEFINITION. What an implementation fixes (00_scope.md R7) and the values the spec leaves unspecified
(45_control.md R134; 93_implementation_defined.md U2 to U4). -/

namespace Sys2Proof

/-- The parameters of 00_scope.md R7 that are not constants of the format.
`lenW` is `LEN_W`, the width of a length (OPEN: 92_eei_decisions.md D3).
`forceAtEnd` is `FORCE_AT_END` (decided false for this block: D1; carried as a field because D1 and
93_implementation_defined.md U10 invite a model to state encoder claims for both forms). -/
structure Config where
  lenW : Nat
  forceAtEnd : Bool
  deriving DecidableEq, Repr

namespace Config

/-- The parameters of this block for one value of the open `LEN_W` (R7: `FORCE_AT_END = false`). -/
def block (lenW : Nat) : Config := { lenW := lenW, forceAtEnd := false }

/-- R7, R18: `IN_MAX = 2^LEN_W - 1`, the largest representable length. -/
def inMax (c : Config) : Nat := 2 ^ c.lenW - 1

/-- R7, R23: `IN_DEPTH = IN_MAX`, the number of bytes of `IN_BUF`. -/
def inDepth (c : Config) : Nat := c.inMax

/-- R7: `MAX_PAYLOAD`, the most payload bytes in one span. -/
def maxPayload : Nat := 254

/-- R7: `CODE_FULL`, the length code of a span after which no zero is implied. -/
def codeFull : Byte := 255#8

/-- R7: `SIZE_DIV`, the divisor of the encode capacity formula. -/
def sizeDiv : Nat := 254

/-- DESIGN CHOICE (log entry 7): the `k`-th free byte, what a HOST read of an unspecified byte of `OUT_BUF` returns
(93_implementation_defined.md U2, U3; 45_control.md R134). -/
opaque freeByte : Nat → Byte

/-- DESIGN CHOICE (log entry 4): what a HOST read of `IN_BUF[i]` returns after the `r`-th reset as long as the HOST has
not written it: unspecified (45_control.md R134), the same at every read (20_memory.md R44). -/
opaque freeInput : Nat → Nat → Byte

/-- DESIGN CHOICE (log entry 6): the `k`-th free choice among the values of an input byte that the HOST
overwrote during the running operation (93_implementation_defined.md U4). -/
opaque freeIndex : Nat → Nat

end Config
end Sys2Proof
end

