-- ==== Sys2Proof/Machine/State.lean ====
section
/-! DEFINITION. The state of the block (10_state.md), with the HOST's pending moves, and its value after reset (R28). -/

namespace Sys2Proof.Machine

/-- `STATUS.STATE` (10_state.md R19). The value 3 never occurs, so it has no constructor
(93_implementation_defined.md U5). -/
inductive Phase where
  | idle
  | busy
  | done
  deriving DecidableEq, Repr

/-- `STATUS.ERR` (R19): `NONE`, `ZERO_BYTE` (60_exceptions.md R140), `SHORT_INPUT` (R141). The value 3 never
occurs (U5). -/
inductive Err where
  | none
  | zeroByte
  | shortInput
  deriving DecidableEq, Repr

/-- Register 3, `STATUS` (R19). -/
structure Status where
  phase : Phase
  err : Err
  deriving DecidableEq, Repr

/-- The decode state `fsm` (R13; 41_cobs_decode.md R92). -/
inductive Fsm where
  | readCode
  | copyPayload
  | emitSeparator
  | done
  | failed
  deriving DecidableEq, Repr

/-- The working registers of the ENGINE (R13). Indices and counts are natural numbers, since the spec only counts
with them and proves that none wraps (R14, R85, R95); that they fit their widths is an invariant. -/
structure Work where
  src : Nat
  dst : Nat
  codeIdx : Nat
  searchLen : Byte
  lastByte : Byte
  c : Byte
  rem : Nat
  k : Nat
  short : Bool
  fsm : Fsm
  deriving DecidableEq, Repr

/-- A byte memory, addresses rising; an address that is not listed holds no value (log entries 4 and 5). -/
abbrev Memory := List Host.Cell

/-- A move of the HOST (45_control.md R134). `writeReg` with register 0 is a write of `CTRL`. -/
inductive HostMove where
  | writeIn (i : Nat) (b : Byte)
  | readIn (i : Nat)
  | writeReg (r v : Nat)
  | readReg (r : Nat)
  | readOut (j : Nat)
  | writeOut (j : Nat) (b : Byte)
  | reset
  deriving DecidableEq, Repr

/-- One turn: a HOST move; one ENGINE transition or pass (`tick`); the ENGINE's whole operation as one atomic step
(`run`), both granularities of 70_reset_and_hazards.md R186; or the script's `WAIT` (`await`, 30_encoding.md
R71: the HOST polls `STATUS` until it reads `DONE`, while the ENGINE runs). -/
inductive Turn where
  | host (m : HostMove)
  | tick
  | run
  | await
  deriving DecidableEq, Repr

/-- Everything the spec gives the block, and six fields of the model's own: `cfg` (log entry 1), `agenda`
(log entry 2), `overwritten` (log entry 6), `draws` (log entry 7), `resets` (log entry 4) and `lastRead` (log
entry 13). -/
structure State where
  cfg : Config
  opReg : BitVec 3
  inLen : Nat
  status : Status
  outLen : Nat
  errOffset : Nat
  cap : Nat
  opLatch : BitVec 3
  nLatch : Nat
  work : Work
  inBuf : Memory
  outBuf : Memory
  overwritten : List (Nat × Option Byte)
  agenda : List Turn
  draws : Nat
  resets : Nat
  lastRead : Nat
  deriving DecidableEq, Repr

/-- Why the model stops. No error of the spec is among these: a `DecodeError` is a next state. -/
inductive Fault where
  /-- Raised by an ENGINE load of an `IN_BUF` byte that nothing has written since reset (93 U1 asks for a refusal
  or a fault, never a fixed value; R182). Safe: nothing is claimed of such a run. -/
  | unwrittenInput (i : Nat)
  /-- Raised by a HOST read or write of an `IN_BUF` index at or above `IN_DEPTH`, which does not exist
  (20_memory.md R50, R134; log entry 12). Safe. -/
  | noInputByte (i : Nat)
  /-- Raised by a HOST read or write of an `OUT_BUF` index at or above `OUT_DEPTH`, which does not exist
  (R50, R134; log entry 12). Safe. -/
  | noOutputByte (j : Nat)
  deriving DecidableEq, Repr

/-- Why an instruction has no meaning. -/
inductive Refusal where
  /-- Raised only by an arm of `exec` whose instruction has no meaning yet; there is none. Safe. -/
  | notModelled (mnemonic : String)
  deriving DecidableEq, Repr

/-- What an ENGINE load gives: the byte and the state after the load, or no byte at all. -/
inductive Loaded where
  | byte (b : Byte) (s : State)
  | missing (i : Nat)
  deriving DecidableEq, Repr

/-- How a piece of an operation's pseudocode leaves: it goes on, the operation has ended (with success or with
`fail`; 45_control.md R132), or the model stops. -/
inductive Flow where
  | go (s : State)
  | ended (s : State)
  | broke (f : Fault)
  deriving DecidableEq, Repr

/-- DESIGN CHOICE (log entry 3): the working registers after reset, which R28 leaves unspecified. -/
def Work.reset : Work :=
  { src := 0, dst := 0, codeIdx := 0, searchLen := 0#8, lastByte := 0#8, c := 0#8, rem := 0, k := 0,
    short := false, fsm := .readCode }

/-- The block after reset (R28, 70_reset_and_hazards.md R170) for given parameters: the registers as the spec says,
both buffers without a value, and the latches and working registers as log entry 3 says. -/
def State.resetFor (cfg : Config) : State :=
  { cfg := cfg, opReg := 0#3, inLen := 0, status := ⟨.idle, .none⟩, outLen := 0, errOffset := 0, cap := 0,
    opLatch := 0#3, nLatch := 0, work := Work.reset, inBuf := [], outBuf := [], overwritten := [], agenda := [],
    draws := 0, resets := 0, lastRead := 0 }

/-- The block after reset with `LEN_W = 16`, the value 00_scope.md R7 suggests (DESIGN CHOICE, log entry 1). -/
def State.reset : State := State.resetFor (Config.block 16)

end Sys2Proof.Machine
end

