-- ==== Sys2Proof/Machine/Ops.lean ====
section
/-! DEFINITION. The named operations over memory and registers: byte memories, the capacity functions, the word of
`STATUS`, launching an operation, completing it, and failing (the spec's exception). -/

namespace Sys2Proof.Machine

/-- The form every memory keeps: addresses strictly rising. An unlisted address holds no value, so no listed byte
can equal what an unlisted one reads as. -/
abbrev Memory.wf (m : Memory) : Prop := m.Pairwise fun x y => x.1 < y.1

/-- The byte at an address, if it holds a value. -/
def Memory.read : Memory → Nat → Option Byte
  | [], _ => none
  | (x, b) :: m, a => if x = a then some b else Memory.read m a

/-- Write one byte (20_memory.md R43), keeping the order of addresses. -/
def Memory.write : Memory → Nat → Byte → Memory
  | [], a, v => [(a, v)]
  | (x, b) :: m, a, v =>
    if a < x then (a, v) :: (x, b) :: m
    else if a = x then (a, v) :: m
    else (x, b) :: Memory.write m a v

/-- 44_sizing.md R120: `ENC_CAP(n) = n + floor(n / 254) + 1`. -/
def encCap (n : Nat) : Nat := n + n / Config.sizeDiv + 1

/-- R121: `DEC_CAP(n) = n`. -/
def decCap (n : Nat) : Nat := n

/-- R7, R24: `OUT_DEPTH = ENC_CAP(IN_MAX)`, the number of bytes of `OUT_BUF`. -/
def outDepth (c : Config) : Nat := encCap c.inMax

/-- 10_state.md R17: the field `DIR` of a selector (false encode, true decode). -/
def dirBit (o : BitVec 3) : Bool := o.getLsbD 0

/-- R17: the field `VARIANT` of a selector (false COBS, true COBS/R). -/
def variantBit (o : BitVec 3) : Bool := o.getLsbD 1

/-- R17: the field `SIZE` of a selector (true: compute the capacity only). -/
def sizeBit (o : BitVec 3) : Bool := o.getLsbD 2

/-- R22: what START latches in `CAP` for a selector and a length. -/
def capFor (o : BitVec 3) (n : Nat) : Nat := if dirBit o then decCap n else encCap n

/-- R19, 92_eei_decisions.md D7: the number of a `STATE`. -/
def phaseCode : Phase → Nat
  | .idle => 0
  | .busy => 1
  | .done => 2

/-- R19, R140, R141: the number of an `ERR`. -/
def errCode : Err → Nat
  | .none => 0
  | .zeroByte => 1
  | .shortInput => 2

/-- R19: `STATUS` as its 4 bits, `STATE` in bits 1:0 and `ERR` in bits 3:2. -/
def statusWord (t : Status) : BitVec 4 := BitVec.ofNat 4 (phaseCode t.phase + 4 * errCode t.err)

/-- 60_exceptions.md R150: the level `done`. -/
def doneLevel (s : State) : Bool := decide (s.status.phase = .done)

/-- Replace the working registers. -/
def setWork (w : Work) (s : State) : State := { s with work := w }

/-- `OUT[j] <- v` (00_scope.md R8). -/
def storeOut (j : Nat) (v : Byte) (s : State) : State := { s with outBuf := Memory.write s.outBuf j v }

/-- 40_cobs_encode.md R81: the first lines of `ENC_SCAN`. -/
def initEnc (s : State) : State :=
  setWork { s.work with src := 0, codeIdx := 0, dst := 1, searchLen := 1#8 } s

/-- 41_cobs_decode.md R90, R92: the first line of a decoder and the initial state of its machine. -/
def initDec (s : State) : State :=
  setWork { s.work with src := 0, dst := 0, fsm := .readCode } s

/-- 10_state.md R13, R14: START initialises the working registers as the selected operation's rule says; a sizing
operation has none. -/
def initWork (o : BitVec 3) (s : State) : State :=
  if sizeBit o then s else if dirBit o then initDec s else initEnc s

/-- 45_control.md R130, R22: an accepted START. The earlier results are discarded and `OUT_BUF` becomes unspecified,
held as no value (log entry 5); no input byte has been overwritten in the new operation yet. -/
def launch (s : State) : State :=
  initWork s.opReg
    { s with
      opLatch := s.opReg, nLatch := s.inLen, cap := capFor s.opReg s.inLen, outLen := 0, errOffset := 0,
      status := ⟨.busy, .none⟩, outBuf := [], overwritten := [] }

/-- R132: `complete with ERR = NONE`, with the operation's last line `OUT_LEN <- len`. -/
def complete (len : Nat) (s : State) : State := { s with status := ⟨.done, .none⟩, outLen := len }

/-- The spec's one exception, `fail KIND at i` (R132; 60_exceptions.md R146): the kind and the offset are
recorded, the output is empty and every byte of `OUT_BUF` becomes unspecified (held as no value, log entry 5).
Control goes nowhere; the machine of R92 is in `Failed`. There is no return from it and nothing to restore
(R149): the next accepted START overwrites the record (`launch`). -/
def failAt (kind : Err) (i : Nat) (s : State) : State :=
  { s with
    status := ⟨.done, kind⟩, outLen := 0, errOffset := i, outBuf := [], work := { s.work with fsm := .failed } }

/-- Run one piece of pseudocode after another; a piece that has ended the operation or stopped the model is the
last (00_scope.md R8: nothing after a `fail` runs). -/
def Flow.andThen (r : Flow) (f : State → Flow) : Flow :=
  match r with
  | .go s => f s
  | .ended s => .ended s
  | .broke e => .broke e

/-- What a piece of pseudocode is as a step of the machine. -/
def Flow.outcome (r : Flow) : Host.Outcome State Fault Refusal :=
  match r with
  | .go s => .next s
  | .ended s => .next s
  | .broke e => .fault e

/-- `while src < n` (R81, R90, R110): at most `fuel` passes of `body`. Each pass reads one input byte at least
(R132), so `n` passes are always enough. -/
def whileInput (body : State → Flow) : Nat → State → Flow
  | 0, s => .go s
  | fuel + 1, s =>
    if s.work.src < s.nLatch then (body s).andThen (whileInput body fuel) else .go s

end Sys2Proof.Machine
end

