-- ==== Sys2Proof/Machine/Operands.lean ====
section
/-! DEFINITION. Every operand form: input loads, output stores, and the payload length of a length code
(20_memory.md R46, R47; 30_encoding.md R64, R65). -/

namespace Sys2Proof.Machine

/-- R64: the payload length a length code states, `c - 1` for `c >= 1`. -/
def payloadLen (c : Byte) : Nat := c.toNat - 1

/-- The values `IN_BUF[i]` held earlier in the running operation (log entry 6). -/
def earlierBytes (s : State) (i : Nat) : List (Option Byte) :=
  (s.overwritten.filter fun p => p.1 == i).map Prod.snd

/-- One of the values of an overwritten byte: number `k` modulo their number, the current value first. -/
def pickByte (now : Option Byte) (earlier : List (Option Byte)) (k : Nat) : Option Byte :=
  (now :: earlier).getD (k % (earlier.length + 1)) now

/-- What a load gives once the value of the byte is known; a byte without a value stops the model
(93_implementation_defined.md U1). -/
def loadedAs (i : Nat) (v : Option Byte) (s : State) : Loaded :=
  match v with
  | some b => .byte b s
  | none => .missing i

/-- `IN[i]` (00_scope.md R8; 20_memory.md R43, R44). A byte the HOST overwrote during the operation gives any of
its old and new values, a free choice (U4; log entry 6). -/
def loadIn (i : Nat) (s : State) : Loaded :=
  match earlierBytes s i with
  | [] => loadedAs i (Memory.read s.inBuf i) s
  | c :: cs =>
    loadedAs i (pickByte (Memory.read s.inBuf i) (c :: cs) (Config.freeIndex s.draws)) { s with draws := s.draws + 1 }

/-- Load `IN[i]` and go on with the byte. -/
def withInput (i : Nat) (s : State) (f : Byte → State → Flow) : Flow :=
  match loadIn i s with
  | .byte b s' => f b s'
  | .missing j => .broke (.unwrittenInput j)

/-- `src <- src + 1` (10_state.md R14). -/
def advance (s : State) : State := setWork { s.work with src := s.work.src + 1 } s

/-- `OUT[dst] <- v;  dst <- dst + 1` (20_memory.md R46 (a), R47). -/
def emit (v : Byte) (s : State) : State :=
  setWork { s.work with dst := s.work.dst + 1 } (storeOut s.work.dst v s)

/-- Close the pending span with a code and reserve the next span's code slot (40_cobs_encode.md R81; the back-patch
of 20_memory.md R46 (b)). -/
def closeSpan (code : Byte) (s : State) : State :=
  setWork { s.work with codeIdx := s.work.dst, dst := s.work.dst + 1, searchLen := 1#8 }
    (storeOut s.work.codeIdx code s)

/-- `search_len <- search_len + 1` (R81). -/
def countPayload (s : State) : State := setWork { s.work with searchLen := s.work.searchLen + 1#8 } s

/-- A length code accepted by a decoder (41_cobs_decode.md R92, T4): the code consumed, and the span's operands of
30_encoding.md R64 and R65. -/
def acceptCode (code : Byte) (s : State) : State :=
  setWork
    { s.work with
      c := code, src := s.work.src + 1, rem := s.nLatch - (s.work.src + 1),
      k := min (payloadLen code) (s.nLatch - (s.work.src + 1)),
      short := decide (s.nLatch - (s.work.src + 1) < payloadLen code), fsm := .copyPayload } s

/-- One payload byte copied by a decoder (R92, T6). -/
def copyByte (b : Byte) (s : State) : State :=
  setWork { s.work with dst := s.work.dst + 1, src := s.work.src + 1, k := s.work.k - 1 } (storeOut s.work.dst b s)

/-- The COBS/R short last span: the code is the missing byte (30_encoding.md R65; R92, T7). -/
def appendCode (s : State) : State :=
  setWork { s.work with dst := s.work.dst + 1, short := false } (storeOut s.work.dst s.work.c s)

/-- The decode machine moves to another state (R92). -/
def setFsm (f : Fsm) (s : State) : State := setWork { s.work with fsm := f } s

end Sys2Proof.Machine
end

