-- ==== Sys2Proof/Machine/Flags.lean ====
section
/-! DEFINITION. The block has no flags (10_state.md R15); these are the comparisons its algorithms make and use at
once. -/

namespace Sys2Proof.Machine

/-- 40_cobs_encode.md R82: a forced close is due when the pending span holds 254 payload bytes and more input
follows (with `FORCE_AT_END`, also when none follows: 92_eei_decisions.md D1). -/
def forceDue (s : State) : Bool :=
  decide (s.work.searchLen = Config.codeFull) && (decide (s.work.src < s.nLatch) || s.cfg.forceAtEnd)

/-- 42_cobsr_encode.md R100: the COBS/R substitution is made when `last_byte >= search_len`, unsigned. -/
def substitutes (s : State) : Bool := decide (s.work.searchLen ≤ s.work.lastByte)

/-- 30_encoding.md R67: a separator is due when more input remains and the code is not 255. -/
def separatorDue (s : State) : Bool :=
  decide (s.work.src < s.nLatch) && decide (s.work.c ≠ Config.codeFull)

end Sys2Proof.Machine
end

