-- ==== Sys2Proof/Machine/CobsDec.lean ====
section
/-! DEFINITION. COBS decode (41_cobs_decode.md R90) and the pieces both decoders share. -/

namespace Sys2Proof.Machine

/-- R90, R110: the loop that copies payload bytes, check 3 on each in rising index order (60_exceptions.md R147). -/
def copyBytes : Nat → State → Flow
  | 0, s => .go s
  | m + 1, s =>
    withInput s.work.src s fun b t =>
      if b = 0#8 then .ended (failAt .zeroByte t.work.src t) else copyBytes m (copyByte b t)

/-- 30_encoding.md R67: the separator after a span, and back to the next length code. -/
def endSpan (s : State) : State := setFsm .readCode (if separatorDue s then emit 0#8 s else s)

/-- `OUT_LEN <- dst; complete with ERR = NONE`: the decode machine is in `Done` (R92). -/
def decComplete (s : State) : State := setFsm .done (complete s.work.dst s)

/-- R90: one span of `COBS.DEC`, checks 1, 2 and 3 in this order. -/
def cobsSpan (s : State) : Flow :=
  withInput s.work.src s fun code t =>
    if code = 0#8 then .ended (failAt .zeroByte t.work.src t)
    else
      let u := acceptCode code t
      if u.work.short then .ended (failAt .shortInput (u.work.src - 1) u)
      else (copyBytes u.work.k u).andThen fun v => .go (endSpan v)

/-- R90: `COBS.DEC`. -/
def execCobsDec (s : State) : Host.Outcome State Fault Refusal :=
  ((whileInput cobsSpan s.nLatch (initDec s)).andThen fun t => .ended (decComplete t)).outcome

end Sys2Proof.Machine
end

