-- ==== Sys2Proof/Machine/CobsEnc.lean ====
section
/-! DEFINITION. COBS encode and the scan both encoders share (40_cobs_encode.md). -/

namespace Sys2Proof.Machine

/-- R81: a byte read by the scan. A zero closes the pending span; any other byte is copied, and the span is closed
by force when it is full (R82). -/
def scanByte (b : Byte) (s : State) : State :=
  if b = 0#8 then closeSpan s.work.searchLen s
  else
    let t := countPayload (emit b s)
    if forceDue t then closeSpan Config.codeFull t else t

/-- R81: one pass of the loop of `ENC_SCAN`. -/
def encPass (s : State) : Flow := withInput s.work.src s fun b t => .go (scanByte b (advance t))

/-- R81: `ENC_SCAN`. -/
def encScan (s : State) : Flow := whileInput encPass s.nLatch (initEnc s)

/-- R80: the final close and the completion of `COBS.ENC`. -/
def cobsFinalClose (s : State) : State := complete s.work.dst (storeOut s.work.codeIdx s.work.searchLen s)

/-- R80: `COBS.ENC`. -/
def execCobsEnc (s : State) : Host.Outcome State Fault Refusal :=
  ((encScan s).andThen fun t => .ended (cobsFinalClose t)).outcome

end Sys2Proof.Machine
end

