-- ==== Sys2Proof/Machine/CobsrDec.lean ====
section
/-! DEFINITION. COBS/R decode (43_cobsr_decode.md R110). -/

namespace Sys2Proof.Machine

/-- R110: one span of `COBSR.DEC`: no check 2, the bytes present copied, and the code appended when the span is
short. -/
def cobsrSpan (s : State) : Flow :=
  withInput s.work.src s fun code t =>
    if code = 0#8 then .ended (failAt .zeroByte t.work.src t)
    else
      let u := acceptCode code t
      (copyBytes u.work.k u).andThen fun v => .go (endSpan (if v.work.short then appendCode v else v))

/-- R110: `COBSR.DEC`. -/
def execCobsrDec (s : State) : Host.Outcome State Fault Refusal :=
  ((whileInput cobsrSpan s.nLatch (initDec s)).andThen fun t => .ended (decComplete t)).outcome

end Sys2Proof.Machine
end

