-- ==== Sys2Proof/Machine/CobsrEnc.lean ====
section
/-! DEFINITION. COBS/R encode (42_cobsr_encode.md). -/

namespace Sys2Proof.Machine

/-- R100: the final close of `COBSR.ENC` once `last_byte` is known: the substitution, or the close of `COBS.ENC`.
The byte dropped stays in `OUT_BUF` at index `OUT_LEN` (R101). -/
def cobsrCloseWith (last : Byte) (s : State) : State :=
  let t := setWork { s.work with lastByte := last } s
  if substitutes t then complete (t.work.dst - 1) (storeOut t.work.codeIdx last t)
  else cobsFinalClose t

/-- R100: `last_byte <- 0` for the empty input, else `last_byte <- IN[n - 1]`; then the close. -/
def cobsrFinalClose (s : State) : Flow :=
  if s.nLatch = 0 then .ended (cobsrCloseWith 0#8 s)
  else withInput (s.nLatch - 1) s fun b t => .ended (cobsrCloseWith b t)

/-- R100: `COBSR.ENC`. -/
def execCobsrEnc (s : State) : Host.Outcome State Fault Refusal :=
  ((encScan s).andThen cobsrFinalClose).outcome

end Sys2Proof.Machine
end

