-- ==== Sys2Proof/Machine/Control.lean ====
section
/-! DEFINITION. The command `START` (45_control.md R130). -/

namespace Sys2Proof.Machine

/-- R130: `START` is ignored while `BUSY`; in `IDLE` and `DONE` it launches the selected operation. -/
def execStart (s : State) : Host.Outcome State Fault Refusal :=
  match s.status.phase with
  | .busy => .next s
  | .idle => .next (launch s)
  | .done => .next (launch s)

end Sys2Proof.Machine
end

