-- ==== Sys2Proof/Machine/LengthCode.lean ====
section
/-! DEFINITION. A length-code byte met by a decoder in `ReadCode` (30_encoding.md R63 to R66; transitions T2, T3 and
T4 of 41_cobs_decode.md R92). The byte is the one at `IN[src]`. -/

namespace Sys2Proof.Machine

/-- R92, T2: a zero length code fails at its index (R66 (a)). -/
def zeroCode (s : State) : State := failAt .zeroByte s.work.src s

/-- R92 with `V = 0`: T3 when the code states more payload than remains (R66 (c)), else T4. -/
def cobsCode (code : Byte) (s : State) : State :=
  if s.nLatch - (s.work.src + 1) < payloadLen code then failAt .shortInput s.work.src s else acceptCode code s

/-- R92 with `V = 1`: always T4. -/
def cobsrCode (code : Byte) (s : State) : State := acceptCode code s

/-- `LC.ZERO` as `COBS.DEC` reads it. -/
def execLcZeroCobsDec (s : State) : Host.Outcome State Fault Refusal := .next (zeroCode s)

/-- `LC.FULL` as `COBS.DEC` reads it. -/
def execLcFullCobsDec (s : State) : Host.Outcome State Fault Refusal := .next (cobsCode Config.codeFull s)

/-- `LC.SPAN` as `COBS.DEC` reads it. -/
def execLcSpanCobsDec (c : Byte) (s : State) : Host.Outcome State Fault Refusal := .next (cobsCode c s)

/-- `LC.ZERO` as `COBSR.DEC` reads it. -/
def execLcZeroCobsrDec (s : State) : Host.Outcome State Fault Refusal := .next (zeroCode s)

/-- `LC.FULL` as `COBSR.DEC` reads it. -/
def execLcFullCobsrDec (s : State) : Host.Outcome State Fault Refusal := .next (cobsrCode Config.codeFull s)

/-- `LC.SPAN` as `COBSR.DEC` reads it. -/
def execLcSpanCobsrDec (c : Byte) (s : State) : Host.Outcome State Fault Refusal := .next (cobsrCode c s)

end Sys2Proof.Machine
end

