-- ==== Sys2Proof/Machine/Payload.lean ====
section
/-! DEFINITION. A payload byte met by either decoder in `CopyPayload` with `k > 0` (30_encoding.md R66 (b), R70;
transitions T5 and T6 of 41_cobs_decode.md R92). The byte is the one at `IN[src]`. -/

namespace Sys2Proof.Machine

/-- `PB.ZERO`: T5, the decode fails at the byte's index. -/
def execPbZero (s : State) : Host.Outcome State Fault Refusal := .next (failAt .zeroByte s.work.src s)

/-- `PB.DATA`: T6, the byte is copied unchanged. -/
def execPbData (b : Byte) (s : State) : Host.Outcome State Fault Refusal := .next (copyByte b s)

end Sys2Proof.Machine
end

