-- ==== Sys2Proof/Machine/Sizing.lean ====
section
/-! DEFINITION. The sizing operations (44_sizing.md R122, R123): `CAP` was latched at START, no byte is touched. -/

namespace Sys2Proof.Machine

/-- R122, R123: `OUT_LEN <- 0`; complete with `ERR = NONE`. -/
def completeSizing (s : State) : State := complete 0 s

/-- R122: `COBS.ENCCAP`. -/
def execCobsEnccap (s : State) : Host.Outcome State Fault Refusal := .next (completeSizing s)

/-- R123: `COBS.DECCAP`. -/
def execCobsDeccap (s : State) : Host.Outcome State Fault Refusal := .next (completeSizing s)

/-- R122: `COBSR.ENCCAP`. -/
def execCobsrEnccap (s : State) : Host.Outcome State Fault Refusal := .next (completeSizing s)

/-- R123: `COBSR.DECCAP`. -/
def execCobsrDeccap (s : State) : Host.Outcome State Fault Refusal := .next (completeSizing s)

end Sys2Proof.Machine
end

