-- ==== Sys2Proof/Machine/Dispatch.lean ====
section
/-! DEFINITION. One arm per row of the opcode table. -/

namespace Sys2Proof.Machine

/-- What an instruction does to the state. -/
def exec (i : Instr) (s : State) : Host.Outcome State Fault Refusal :=
  match i with
  | .cobsEnc => Sys2Proof.Machine.execCobsEnc s
  | .cobsDec => Sys2Proof.Machine.execCobsDec s
  | .cobsrEnc => Sys2Proof.Machine.execCobsrEnc s
  | .cobsrDec => Sys2Proof.Machine.execCobsrDec s
  | .cobsEnccap => Sys2Proof.Machine.execCobsEnccap s
  | .cobsDeccap => Sys2Proof.Machine.execCobsDeccap s
  | .cobsrEnccap => Sys2Proof.Machine.execCobsrEnccap s
  | .cobsrDeccap => Sys2Proof.Machine.execCobsrDeccap s
  | .start => Sys2Proof.Machine.execStart s
  | .lcZeroCobsDec => Sys2Proof.Machine.execLcZeroCobsDec s
  | .lcFullCobsDec => Sys2Proof.Machine.execLcFullCobsDec s
  | .lcSpanCobsDec c => Sys2Proof.Machine.execLcSpanCobsDec c s
  | .lcZeroCobsrDec => Sys2Proof.Machine.execLcZeroCobsrDec s
  | .lcFullCobsrDec => Sys2Proof.Machine.execLcFullCobsrDec s
  | .lcSpanCobsrDec c => Sys2Proof.Machine.execLcSpanCobsrDec c s
  | .pbZero => Sys2Proof.Machine.execPbZero s
  | .pbData b => Sys2Proof.Machine.execPbData b s

end Sys2Proof.Machine
end

