-- ==== Sys2Proof/Machine/Engine.lean ====
section
/-! DEFINITION. The ENGINE's turns: the byte it fetches, one transition or pass (`engineTick`), and the whole operation
as one atomic step (`engineRun`); 70_reset_and_hazards.md R186 allows both. -/

namespace Sys2Proof.Machine

/-- 45_control.md R131: the decoder that a latched selector runs. -/
def decoderOf (o : BitVec 3) : Decoder := if variantBit o then .cobsr else .cobs

/-- R131: the instruction that the latched selector stands for. -/
def selected (s : State) : Instr := decodeOp3 s.opLatch

/-- Load `IN[src]`, read it in the format in which it stands there (30_encoding.md R68), and execute it. -/
def fetchExec (dec : Byte → Instr) (s : State) : Host.Outcome State Fault Refusal :=
  match loadIn s.work.src s with
  | .byte b t => exec (dec b) t
  | .missing i => .fault (.unwrittenInput i)

/-- One transition of the decode machine (41_cobs_decode.md R92). T2 to T4 are the length-code instructions and
T5, T6 the payload instructions; `Done` and `Failed` have no transition. -/
def decTick (s : State) : Host.Outcome State Fault Refusal :=
  match s.work.fsm with
  | .readCode =>
    if s.work.src < s.nLatch then fetchExec (decodeLc8 (decoderOf s.opLatch)) s
    else .next (decComplete s)                                        -- T1
  | .copyPayload =>
    if 0 < s.work.k then fetchExec decodePb8 s
    else if s.work.short then .next (appendCode s)                    -- T7
    else if s.work.src < s.nLatch then
      if s.work.c = Config.codeFull then .next (setFsm .readCode s)   -- T9
      else .next (setFsm .emitSeparator s)                            -- T10
    else .next (decComplete s)                                        -- T8
  | .emitSeparator => .next (setFsm .readCode (emit 0#8 s))           -- T11
  | .done => .next s
  | .failed => .next s

/-- One step of an encoder along its pseudocode (40_cobs_encode.md R80, R81; 42_cobsr_encode.md R100): a pass of the
scan, or the final close when the input is exhausted. -/
def encTick (s : State) : Host.Outcome State Fault Refusal :=
  if s.work.src < s.nLatch then (encPass s).outcome
  else if variantBit s.opLatch then (cobsrFinalClose s).outcome
  else .next (cobsFinalClose s)

/-- One ENGINE step. The ENGINE has no move while `STATE` is not `BUSY` (10_state.md R10); a sizing operation takes
one step (R187). -/
def engineTick (s : State) : Host.Outcome State Fault Refusal :=
  match s.status.phase with
  | .idle => .next s
  | .done => .next s
  | .busy =>
    if sizeBit s.opLatch then exec (selected s) s
    else if dirBit s.opLatch then decTick s
    else encTick s

/-- The whole selected operation as one step, from its first line (R131, R186; log entry 10). -/
def engineRun (s : State) : Host.Outcome State Fault Refusal :=
  match s.status.phase with
  | .idle => .next s
  | .done => .next s
  | .busy => exec (selected s) s

/-- `fuel` ENGINE steps one after another, stopping where the model stops. -/
def engineTicks : Nat → State → Host.Outcome State Fault Refusal
  | 0, s => .next s
  | fuel + 1, s =>
    match engineTick s with
    | .next t => engineTicks fuel t
    | .fault e => .fault e
    | .refused r => .refused r

/-- Put a word where the next step fetches it: as the latched selector of a running operation, as a HOST write of
`CTRL`, or as the input byte at `src` of a running decoder in the state that reads such a byte (log entry 9). -/
def placeWord (f : Format) (w : Byte) (s : State) : State :=
  match f with
  | .op3 =>
    { s with status := ⟨.busy, .none⟩, opLatch := w.setWidth 3, agenda := .run :: s.agenda }
  | .ctrl1 => { s with agenda := .host (.writeReg 0 w.toNat) :: s.agenda }
  | .lc8 d =>
    { s with
      status := ⟨.busy, .none⟩, opLatch := (match d with | .cobs => 0b001#3 | .cobsr => 0b011#3),
      nLatch := max s.nLatch (s.work.src + 1), inBuf := Memory.write s.inBuf s.work.src w,
      overwritten := s.overwritten.filter (fun p => p.1 != s.work.src),
      work := { s.work with fsm := .readCode }, agenda := .tick :: s.agenda }
  | .pb8 =>
    { s with
      status := ⟨.busy, .none⟩, opLatch := 0b001#3,
      nLatch := max s.nLatch (s.work.src + 1), inBuf := Memory.write s.inBuf s.work.src w,
      overwritten := s.overwritten.filter (fun p => p.1 != s.work.src),
      work := { s.work with fsm := .copyPayload, k := max s.work.k 1 }, agenda := .tick :: s.agenda }

end Sys2Proof.Machine
end

