-- ==== Sys2Proof/Machine/HostPort.lean ====
section
/-! DEFINITION. The HOST's moves (45_control.md R134) over the numbered registers (10_state.md R11) and the two
buffers. -/

namespace Sys2Proof.Machine

/-- What a read returned, as the HOST has it now (log entry 13). -/
def returned (v : Nat) (s : State) : State := { s with lastRead := v }

/-- A read of an unspecified byte of `OUT_BUF`: any value, a fresh one at each read (93_implementation_defined.md U2, U3). -/
def returnedFree (s : State) : State :=
  { s with lastRead := (Config.freeByte s.draws).toNat, draws := s.draws + 1 }

/-- R11, R134: the value a read of register `r` returns; `CTRL` and the numbers above 6 give 0. -/
def regValue (s : State) (r : Nat) : Nat :=
  match r with
  | 1 => s.opReg.toNat
  | 2 => s.inLen
  | 3 => (statusWord s.status).toNat
  | 4 => s.outLen
  | 5 => s.errOffset
  | 6 => s.cap
  | _ => 0

/-- R134: a write of `CTRL` is the command that its word stands for (30_encoding.md R61), else nothing. -/
def writeCtrl (v : Nat) (s : State) : Host.Outcome State Fault Refusal :=
  match decodeCtrl1 (BitVec.ofNat 8 v) with
  | .ok i => exec i s
  | .error _ => .next s

/-- R11, R134: a write of register `r`. `OP` keeps the low 3 bits (R17) and `IN_LEN` the low `LEN_W` bits (DEDUCED,
log entry 11); a read-only register and a number above 6 keep nothing. -/
def writeRegister (r v : Nat) (s : State) : Host.Outcome State Fault Refusal :=
  match r with
  | 0 => writeCtrl v s
  | 1 => .next { s with opReg := BitVec.ofNat 3 v }
  | 2 => .next { s with inLen := v % 2 ^ s.cfg.lenW }
  | _ => .next s

/-- R134: write `IN_BUF[i]`: the byte is stored. While `BUSY`, for `i < n`, the value it replaces is remembered,
since the running operation may load either (U4; log entry 6). -/
def storeIn (i : Nat) (b : Byte) (s : State) : State :=
  { s with
    inBuf := Memory.write s.inBuf i b,
    overwritten :=
      if s.status.phase = .busy ∧ i < s.nLatch then s.overwritten ++ [(i, Memory.read s.inBuf i)]
      else s.overwritten }

/-- R134: read `IN_BUF[i]`: the byte last written; if none was since reset, an unspecified byte, which stays the same
from read to read (20_memory.md R44; log entry 4). -/
def fetchIn (i : Nat) (s : State) : State :=
  match Memory.read s.inBuf i with
  | some b => returned b.toNat s
  | none => returned (Config.freeInput s.resets i).toNat s

/-- R24, R134: whether `OUT_BUF[j]` is a result byte. -/
def isResult (s : State) (j : Nat) : Bool :=
  decide (s.status = ⟨.done, .none⟩) && decide (j < s.outLen)

/-- R134: read `OUT_BUF[j]`: the result byte, unspecified otherwise (log entry 5). -/
def fetchOut (j : Nat) (s : State) : State :=
  if isResult s j then
    match Memory.read s.outBuf j with
    | some b => returned b.toNat s
    | none => returnedFree s
  else returnedFree s

/-- R134, 10_state.md R28, 70_reset_and_hazards.md R170: reset. The parameters are no state of the block; the moves
still to come, the number of draws and what the HOST has read are not the block's either (log entry 18); one more reset
is counted, since the unwritten bytes of `IN_BUF` may now hold others (log entry 4). -/
def resetMove (s : State) : State :=
  { State.resetFor s.cfg with
    agenda := s.agenda, draws := s.draws, resets := s.resets + 1, lastRead := s.lastRead }

/-- R134: one HOST move. -/
def hostMove (m : HostMove) (s : State) : Host.Outcome State Fault Refusal :=
  match m with
  | .writeIn i b => if i < s.cfg.inDepth then .next (storeIn i b s) else .fault (.noInputByte i)
  | .readIn i => if i < s.cfg.inDepth then .next (fetchIn i s) else .fault (.noInputByte i)
  | .writeReg r v => writeRegister r v s
  | .readReg r => .next (returned (regValue s r) s)
  | .readOut j => if j < outDepth s.cfg then .next (fetchOut j s) else .fault (.noOutputByte j)
  | .writeOut j _ => if j < outDepth s.cfg then .next s else .fault (.noOutputByte j)
  | .reset => .next (resetMove s)

end Sys2Proof.Machine
end

