-- ==== Sys2Proof/Machine/Step.lean ====
section
/-! DEFINITION. One step: the next turn of the agenda. -/

namespace Sys2Proof.Machine

/-- One step. The first turn of `agenda` is taken off and done; with no turn left a `BUSY` ENGINE performs its
operation (70_reset_and_hazards.md R188) and otherwise nothing moves (10_state.md R10). `await` stays at the
head until `STATUS` reads `DONE` (log entry 16). -/
def step (s : State) : Host.Outcome State Fault Refusal :=
  match s.agenda with
  | [] => engineRun s
  | .host m :: rest => hostMove m { s with agenda := rest }
  | .tick :: rest => engineTick { s with agenda := rest }
  | .run :: rest => engineRun { s with agenda := rest }
  | .await :: rest =>
    match s.status.phase with
    | .busy => engineRun s
    | .idle => .next (returned (regValue s 3) s)
    | .done => .next (returned (regValue s 3) { s with agenda := rest })

/-- `s` with a table word placed where `step` fetches its next instruction (log entry 9). -/
def State.withFetchWord (s : State) (nbits w : Nat) : State :=
  match tableFormat nbits w with
  | none => s
  | some f => placeWord f (BitVec.ofNat 8 w) s

end Sys2Proof.Machine
end

