-- ==== Sys2Proof/Safety.lean ====
section
/-! DEFINITION. The terms claims use: what an input and an output buffer hold, what a HOST observes of a finished
operation, the spec's closed forms of the four transforms over byte sequences, and the invariant of the machine. -/

namespace Sys2Proof

/-! The closed forms, over abstract sequences (00_scope.md R6). -/

/-- 40_cobs_encode.md R83: the runs `r_0, ..., r_z` into which the zero bytes split an input. -/
def splitZeros : List Byte → List (List Byte)
  | [] => [[]]
  | b :: bs =>
    if b = 0#8 then [] :: splitZeros bs
    else
      match splitZeros bs with
      | [] => [[b]]
      | r :: rs => (b :: r) :: rs

/-- R83, `full(r)`: the first `q` blocks of 254 bytes of a run, each written as `FF` followed by the block. -/
def fullBlocks : Nat → List Byte → List Byte
  | 0, _ => []
  | q + 1, r => Config.codeFull :: r.take 254 ++ fullBlocks q (r.drop 254)

/-- R83: a run closed after its full blocks by the code `m + 1` and its last `m = L mod 254` bytes. -/
def closedRun (r : List Byte) : List Byte :=
  fullBlocks (r.length / 254) r ++ BitVec.ofNat 8 (r.length % 254 + 1) :: r.drop (254 * (r.length / 254))

/-- R83: the final run. -/
def finalRun (r : List Byte) : List Byte :=
  if r.length ≠ 0 ∧ r.length % 254 = 0 then fullBlocks (r.length / 254) r else closedRun r

/-- R83: the encodings of the runs, one after another. -/
def encodeRuns : List (List Byte) → List Byte
  | [] => []
  | [r] => finalRun r
  | r :: r' :: rs => closedRun r ++ encodeRuns (r' :: rs)

/-- R83: the closed form of `COBS.ENC`. -/
def cobsEncoding (xs : List Byte) : List Byte := encodeRuns (splitZeros xs)

/-- R83 with `FORCE_AT_END = true` (92_eei_decisions.md D1): the final run is closed like any other. -/
def cobsEncodingForced (xs : List Byte) : List Byte := (splitZeros xs).flatMap closedRun

/-- The last run of an input, what follows its last zero byte (R83, `r_z`). -/
def lastRun (xs : List Byte) : List Byte := (splitZeros xs).getLastD []

/-- The number of payload bytes pending at the end of the scan (R82: a full span is not closed by force at the end
of the input). -/
def pendingLen (xs : List Byte) : Nat := if lastRun xs = [] then 0 else ((lastRun xs).length - 1) % 254 + 1

/-- 42_cobsr_encode.md R100: `last_byte`, 0 for the empty input. -/
def lastByteOf (xs : List Byte) : Byte := xs.getLastD 0#8

/-- R100, R102 (c): the COBS/R encoder substitutes exactly when `last_byte >= search_len`. -/
def substitutesOn (xs : List Byte) : Bool := decide (pendingLen xs + 1 ≤ (lastByteOf xs).toNat)

/-- The index of the last length code of the COBS encoding (R84 (d)). -/
def lastCodeIndex (xs : List Byte) : Nat := (cobsEncoding xs).length - (pendingLen xs + 1)

/-- R100: the closed form of `COBSR.ENC`: the COBS encoding, or with the substitution its last code replaced by
`last_byte` and its last byte dropped. -/
def cobsrEncoding (xs : List Byte) : List Byte :=
  if substitutesOn xs then ((cobsEncoding xs).set (lastCodeIndex xs) (lastByteOf xs)).dropLast
  else cobsEncoding xs

/-- 41_cobs_decode.md R90 and 43_cobsr_decode.md R110 over a sequence, span by span: the data, or the error and its
offset. `i` is the index of the first byte of the list; a list of `fuel` bytes at most is read whole. -/
def decodeSpans (d : Decoder) : Nat → Nat → List Byte → Except (Machine.Err × Nat) (List Byte)
  | _, _, [] => .ok []
  | 0, _, _ :: _ => .ok []
  | fuel + 1, i, c :: rest =>
    if c = 0#8 then .error (.zeroByte, i)
    else if d = .cobs ∧ rest.length < c.toNat - 1 then .error (.shortInput, i)
    else
      match (rest.take (c.toNat - 1)).findIdx? (fun b => b == 0#8) with
      | some j => .error (.zeroByte, i + 1 + j)
      | none =>
        match decodeSpans d fuel (i + c.toNat) (rest.drop (c.toNat - 1)) with
        | .error e => .error e
        | .ok ys =>
          .ok (rest.take (c.toNat - 1) ++ (if rest.length < c.toNat - 1 then [c] else []) ++
            (if rest.drop (c.toNat - 1) ≠ [] ∧ c ≠ Config.codeFull then [0#8] else []) ++ ys)

/-- What a decoder makes of a whole input. -/
def decoding (d : Decoder) (xs : List Byte) : Except (Machine.Err × Nat) (List Byte) :=
  decodeSpans d xs.length 0 xs

/-- `ceil(n / 254)` (00_scope.md R8). -/
def ceilDiv254 (n : Nat) : Nat := (n + 253) / 254

namespace Machine

/-- The running operation's input is `xs`: `n` is its length, each byte has been written, and the HOST has overwritten
none of them since START (70_reset_and_hazards.md R172, R181). -/
def holdsInput (s : State) (xs : List Byte) : Prop :=
  s.nLatch = xs.length ∧
    ∀ i < xs.length, Memory.read s.inBuf i = xs[i]? ∧ earlierBytes s i = []

/-- The output of a finished transform is `ys` (10_state.md R20, R24). -/
def holdsOutput (s : State) (ys : List Byte) : Prop :=
  s.outLen = ys.length ∧ ∀ j < ys.length, Memory.read s.outBuf j = ys[j]?

/-- The transform succeeded with output `ys`, as an operation begun by START leaves the registers (45_control.md
R132): `DONE`, `NONE`, the length and the bytes. -/
def succeedsWith (s : State) (ys : List Byte) : Prop := s.status = ⟨.done, .none⟩ ∧ holdsOutput s ys

/-- Every byte of `OUT_BUF` is unspecified to the HOST (10_state.md R24; 93_implementation_defined.md U3): a read of any
of them returns the next free value, whatever that is (log entry 7 says how the model holds free values). -/
def outputUnspecified (s : State) : Prop :=
  ∀ j, j < outDepth s.cfg → ∃ t, hostMove (.readOut j) s = .next t ∧ t.lastRead = (Config.freeByte s.draws).toNat

/-- The decode failed with a kind at an offset (60_exceptions.md R146). -/
def failsWith (s : State) (kind : Err) (i : Nat) : Prop :=
  s.status = ⟨.done, kind⟩ ∧ s.errOffset = i ∧ s.outLen = 0 ∧ outputUnspecified s

/-- 70_reset_and_hazards.md R189: what a HOST observes of a finished operation. -/
def sameObservation (s t : State) : Prop :=
  s.status = t.status ∧ s.errOffset = t.errOffset ∧ s.cap = t.cap ∧ s.outLen = t.outLen ∧
    ∀ j < s.outLen, Memory.read s.outBuf j = Memory.read t.outBuf j

/-- Nothing but these parts of the state differs: `STATUS`, `OUT_LEN`, `ERR_OFFSET`, `OUT_BUF`, the working registers
and the number of draws. This is all an operation may change (R146, 20_memory.md R44, 45_control.md R131). -/
def sameOutsideOperation (s t : State) : Prop :=
  t = { s with
    status := t.status, outLen := t.outLen, errOffset := t.errOffset, outBuf := t.outBuf, work := t.work,
    draws := t.draws }

/-- The turn that `step` takes next. -/
def nextTurn (s : State) : Option Turn := s.agenda.head?

/-- The next turn is a HOST write of `CTRL` with bit 0 set. -/
def isStartTurn (s : State) : Prop := ∃ v, nextTurn s = some (.host (.writeReg 0 v)) ∧ v % 2 = 1

/-- The next turn is a reset. -/
def isResetTurn (s : State) : Prop := nextTurn s = some (.host .reset)

/-- The working registers of an encoder between two passes (10_state.md R13, R85): the cursors, the pending code
slot, the bound on the number of forced closes, and every byte but the reserved slot written. -/
structure EncoderInv (s : State) : Prop where
  src_le : s.work.src ≤ s.nLatch
  dst_gt : s.work.src + 1 ≤ s.work.dst
  slot_lt : s.work.codeIdx < s.work.dst
  count_pos : 1 ≤ s.work.searchLen.toNat
  count_open : s.work.src < s.nLatch → s.work.searchLen.toNat ≤ 254
  forced_le : 254 * (s.work.dst - (s.work.src + 1)) + (s.work.searchLen.toNat - 1) ≤ s.work.src
  written : ∀ j < s.work.dst, j ≠ s.work.codeIdx → Memory.read s.outBuf j ≠ none

/-- What the decode state says of the cursors of a decoder (R13, R92). -/
def decoderCursors (s : State) : Prop :=
  match s.work.fsm with
  | .readCode => s.work.dst ≤ s.work.src ∧ s.work.src ≤ s.nLatch
  | .copyPayload =>
    s.work.src + s.work.k ≤ s.nLatch ∧ s.work.k ≤ 254 ∧ s.work.c ≠ 0#8 ∧ s.work.rem < s.nLatch ∧
      (s.work.short = true → s.work.src + s.work.k = s.nLatch ∧ variantBit s.opLatch = true) ∧
      (s.work.dst + 1 ≤ s.work.src ∨
        (s.work.dst ≤ s.work.src ∧ s.work.k = 0 ∧ s.work.short = false ∧ s.work.src = s.nLatch))
  | .emitSeparator => s.work.dst + 1 ≤ s.work.src ∧ s.work.src < s.nLatch
  | .done => False
  | .failed => False

/-- The working registers of a decoder between two transitions. -/
structure DecoderInv (s : State) : Prop where
  cursors : decoderCursors s
  written : ∀ j < s.work.dst, Memory.read s.outBuf j ≠ none

/-- The working registers of the running operation (R13, R131). -/
def runningInv (s : State) : Prop :=
  if sizeBit s.opLatch then True else if dirBit s.opLatch then DecoderInv s else EncoderInv s

/-- The invariant of the machine: both memories in canonical form and inside their depths, every register within its
width or range, the results as R19 to R22 and R142 relate them to `STATUS`, every result byte written (20_memory.md
R48), every store below `CAP` (R49). -/
structure Inv (s : State) : Prop where
  lenW_pos : 1 ≤ s.cfg.lenW
  in_wf : Memory.wf s.inBuf
  out_wf : Memory.wf s.outBuf
  in_depth : ∀ x ∈ s.inBuf, x.1 < s.cfg.inDepth
  out_cap : ∀ x ∈ s.outBuf, x.1 < s.cap
  cap_depth : s.cap ≤ outDepth s.cfg
  inLen_le : s.inLen ≤ s.cfg.inMax
  nLatch_le : s.nLatch ≤ s.cfg.inMax
  outLen_le : s.outLen ≤ s.cap
  errOffset_le : s.errOffset ≤ s.cfg.inMax
  not_done : s.status.phase ≠ .done → s.status.err = .none ∧ s.outLen = 0
  cap_latched : s.status.phase ≠ .idle → s.cap = capFor s.opLatch s.nLatch
  no_error : s.status.err = .none → s.errOffset = 0
  error : s.status.err ≠ .none → s.outLen = 0 ∧ sizeBit s.opLatch = false ∧ dirBit s.opLatch = true
  short_input : s.status.err = .shortInput → variantBit s.opLatch = false
  results : ∀ j < s.outLen, Memory.read s.outBuf j ≠ none
  running : s.status.phase = .busy → runningInv s

end Machine
end Sys2Proof
end

