-- ==== Sys2Proof/Certificates/Slice0/Obligations.lean ====
section
/-! DEFINITION. The statements for the provers. -/

open Sys2Proof Sys2Proof.Machine

/-! Encoding. -/

/-- 30_encoding.md R60: the table of selectors, with the fields of each, and that `VARIANT` changes no sizing result. -/
def Obligations.EverySelectorValueIsAnOperation : Prop :=
  decodeOp3 0b000#3 = .cobsEnc ∧ decodeOp3 0b001#3 = .cobsDec ∧
  decodeOp3 0b010#3 = .cobsrEnc ∧ decodeOp3 0b011#3 = .cobsrDec ∧
  decodeOp3 0b100#3 = .cobsEnccap ∧ decodeOp3 0b101#3 = .cobsDeccap ∧
  decodeOp3 0b110#3 = .cobsrEnccap ∧ decodeOp3 0b111#3 = .cobsrDeccap ∧
  (∀ o : BitVec 3, decode .op3 (o.setWidth 8) = .ok (decodeOp3 o) ∧
    o.toNat = 4 * (sizeBit o).toNat + 2 * (variantBit o).toNat + (dirBit o).toNat) ∧
  (∀ s, exec .cobsrEnccap s = exec .cobsEnccap s ∧ exec .cobsrDeccap s = exec .cobsDeccap s)

/-- 30_encoding.md R61 with 45_control.md R130: a write of `CTRL` with bit 0 set is `START`, any other is nothing;
no bit above bit 0 matters. -/
def Obligations.ControlWriteIsStartOrNothing : Prop :=
  ∀ (v : Nat) (s : State),
    (v % 2 = 1 → hostMove (.writeReg 0 v) s = exec .start s) ∧
    (v % 2 = 0 → hostMove (.writeReg 0 v) s = .next s)

/-- The encoder's word of a well-formed instruction decodes to it, and a word that decodes stands for one
well-formed instruction of its format whose word agrees with it in every bit the format looks at. -/
def Obligations.DecodeEncodeRoundTrip : Prop :=
  (∀ i : Instr, i.wellFormed = true → decode (formatOf i) (encode i) = .ok i) ∧
  (∀ f w i, decode f w = .ok i →
    i.wellFormed = true ∧ formatOf i = f ∧ encode i = w &&& formatMask f)

/-- 30_encoding.md R73: decoding is the first match among the rows of the opcode table, in the order listed; a word
no row matches is rejected. -/
def Obligations.DecodeIsFirstMatchOfOpcodeTable : Prop :=
  ∀ f w,
    match decode f w with
    | .ok i => firstMatch f w = some (mnemonic i)
    | .error _ => firstMatch f w = none

/-- Words written out from the spec's encodings (R60, R61, R63, R66) decode to the instructions they stand for. -/
def Obligations.SampleWordsDecode : Prop :=
  decode .op3 0b00000011#8 = .ok .cobsrDec ∧ decode .ctrl1 0b00000001#8 = .ok .start ∧
  decode .ctrl1 0b00000000#8 = .error .noCommand ∧
  decode (.lc8 .cobs) 0b00000000#8 = .ok .lcZeroCobsDec ∧
  decode (.lc8 .cobs) 0b11111110#8 = .ok (.lcSpanCobsDec 254#8) ∧
  decode (.lc8 .cobsr) 0b11111111#8 = .ok .lcFullCobsrDec ∧
  decode .pb8 0b11111111#8 = .ok (.pbData 255#8)

/-! The step. -/

/-- A step runs the instruction decoded from the word that stands where the ENGINE, or the `CTRL` port, reads it:
the latched selector (45_control.md R131), a length code or a payload byte at `IN[src]` (41_cobs_decode.md R92),
a written command (R130); the turn is taken off the agenda, and the byte is the one `IN_BUF` holds when the
HOST has not overwritten it. -/
def Obligations.StepRunsDecodedInstruction : Prop :=
  ∀ (s : State) (rest : List Turn),
    (s.agenda = .run :: rest → s.status.phase = .busy →
      step s = exec (decodeOp3 s.opLatch) { s with agenda := rest }) ∧
    (s.agenda = [] → s.status.phase = .busy → step s = exec (decodeOp3 s.opLatch) s) ∧
    (s.agenda = .tick :: rest → s.status.phase = .busy → sizeBit s.opLatch = true →
      step s = exec (decodeOp3 s.opLatch) { s with agenda := rest }) ∧
    (∀ b, s.agenda = .tick :: rest → s.status.phase = .busy → sizeBit s.opLatch = false →
      dirBit s.opLatch = true → s.work.fsm = .readCode → s.work.src < s.nLatch →
      Memory.read s.inBuf s.work.src = some b → earlierBytes s s.work.src = [] →
      step s = exec (decodeLc8 (decoderOf s.opLatch) b) { s with agenda := rest }) ∧
    (∀ b, s.agenda = .tick :: rest → s.status.phase = .busy → sizeBit s.opLatch = false →
      dirBit s.opLatch = true → s.work.fsm = .copyPayload → 0 < s.work.k →
      Memory.read s.inBuf s.work.src = some b → earlierBytes s s.work.src = [] →
      step s = exec (decodePb8 b) { s with agenda := rest }) ∧
    (∀ v i, s.agenda = .host (.writeReg 0 v) :: rest → decodeCtrl1 (BitVec.ofNat 8 v) = .ok i →
      step s = exec i { s with agenda := rest })

/-- A table word placed by `withFetchWord` is the very next instruction executed, and its turn is then gone from the
agenda (log entry 9: the placing is the model's own). -/
def Obligations.PlacedWordIsExecutedNext : Prop :=
  ∀ (s : State) (nbits w : Nat) (i : Instr), decodeTableWord nbits w = some i →
    step (s.withFetchWord nbits w) = exec i { s.withFetchWord nbits w with agenda := s.agenda }

/-- 10_state.md R10: the ENGINE has no move while `STATE` is not `BUSY`. -/
def Obligations.EngineHasNoMoveUnlessBusy : Prop :=
  ∀ s : State, s.status.phase ≠ .busy →
    engineTick s = .next s ∧ engineRun s = .next s ∧ (s.agenda = [] → step s = .next s)

/-! Reset. -/

/-- 10_state.md R28: what reset leaves in every register the HOST reads, for every `LEN_W`, and that no buffer byte
holds a value. The value `LEN_W = 16` of `State.reset` is the model's (log entry 1). -/
def Obligations.ResetLeavesSpecValues : Prop :=
  State.reset = State.resetFor (Config.block 16) ∧
  ∀ c : Config,
    (State.resetFor c).cfg = c ∧ (State.resetFor c).status = ⟨.idle, .none⟩ ∧
    (∀ r, regValue (State.resetFor c) r = 0) ∧
    ∀ a, Memory.read (State.resetFor c).inBuf a = none ∧ Memory.read (State.resetFor c).outBuf a = none

/-- 10_state.md R28 (and 70_reset_and_hazards.md R170): the reset move abandons whatever ran: every register reads 0,
no input byte holds a value, a read of `OUT_BUF` returns a free value; a `START` straight after it encodes the
empty input. -/
def Obligations.ResetAbandonsAndStartEncodesEmpty : Prop :=
  ∀ s : State, ∃ t u v,
    hostMove .reset s = .next t ∧ t.status = ⟨.idle, .none⟩ ∧ t.cfg = s.cfg ∧ (∀ r, regValue t r = 0) ∧
    (∀ a, Memory.read t.inBuf a = none) ∧
    outputUnspecified t ∧
    exec .start t = .next u ∧ u.cap = 1 ∧
    engineRun u = .next v ∧ succeedsWith v [1#8] ∧ v.cap = 1 ∧ v.errOffset = 0

/-- The invariant holds after reset, for every positive `LEN_W`. -/
def Obligations.InvHoldsAtReset : Prop :=
  ∀ c : Config, 1 ≤ c.lenW → Inv (State.resetFor c)

/-- Every step, whatever turn it takes, keeps the invariant: canonical memories, registers inside their widths,
stores below `CAP` (20_memory.md R49), results and errors as R19 to R22 and R142 say, every result byte
written (R48), the working registers in their ranges (R13). -/
def Obligations.StepKeepsInv : Prop :=
  ∀ s t : State, Inv s → step s = .next t → Inv t

/-! START and the HOST's moves. -/

/-- 45_control.md R130: `START` is ignored while `BUSY`; otherwise it latches, clears the results and begins, changing
nothing else of the registers and the input, leaving `OUT_BUF` unspecified, and it cannot fail; with R130's
worked example. -/
def Obligations.StartLaunchesOrIsIgnored : Prop :=
  (∀ s : State, s.status.phase = .busy → exec .start s = .next s) ∧
  (∀ s : State, s.status.phase ≠ .busy → ∃ t, exec .start s = .next t ∧
    t.opLatch = s.opReg ∧ t.nLatch = s.inLen ∧
    (s.opReg.getLsbD 0 = false → t.cap = encCap s.inLen) ∧ (s.opReg.getLsbD 0 = true → t.cap = decCap s.inLen) ∧
    t.outLen = 0 ∧ t.errOffset = 0 ∧ t.status = ⟨.busy, .none⟩ ∧
    t.cfg = s.cfg ∧ t.opReg = s.opReg ∧ t.inLen = s.inLen ∧ t.inBuf = s.inBuf ∧ t.agenda = s.agenda ∧
    t.lastRead = s.lastRead ∧ outputUnspecified t) ∧
  (∀ s : State, s.status.phase ≠ .busy → s.inLen = 1 → s.opReg = 0b000#3 →
    Memory.read s.inBuf 0 = some 0x2F#8 → ∃ t u, exec .start s = .next t ∧ t.cap = 2 ∧
      t.status.phase = .busy ∧ engineRun t = .next u ∧ succeedsWith u [0x02#8, 0x2F#8])

/-- 10_state.md R13, R14, 40_cobs_encode.md R81, 41_cobs_decode.md R90: an accepted `START` of a transform sets the
working registers as the operation's first lines say, forgets input overwritten earlier, and leaves `OUT_BUF`
without a value (log entry 5: how the model holds "unspecified"). -/
def Obligations.StartInitialisesWorkingRegisters : Prop :=
  ∀ s : State, s.status.phase ≠ .busy → ∃ t, exec .start s = .next t ∧
    (sizeBit s.opReg = false → dirBit s.opReg = false →
      t.work = { s.work with src := 0, codeIdx := 0, dst := 1, searchLen := 1#8 }) ∧
    (sizeBit s.opReg = false → dirBit s.opReg = true →
      t.work = { s.work with src := 0, dst := 0, fsm := .readCode }) ∧
    (∀ i, earlierBytes t i = []) ∧ (∀ j, Memory.read t.outBuf j = none)

/-- 45_control.md R134, 10_state.md R17, R18, R22: a write of `OP` or `IN_LEN` sets that register and nothing else,
also while `BUSY`; so the latches of a running operation stay. That `IN_LEN` keeps the low `LEN_W` bits of a
wider value is the model's inference (log entry 11). -/
def Obligations.HostWritesSetOnlyTheirRegister : Prop :=
  ∀ (s : State) (v : Nat),
    (∃ t, hostMove (.writeReg 1 v) s = .next t ∧ t = { s with opReg := t.opReg } ∧
      t.opReg.toNat = v % 8 ∧ regValue t 1 = v % 8) ∧
    (∃ t, hostMove (.writeReg 2 v) s = .next t ∧ t = { s with inLen := t.inLen } ∧
      regValue t 2 = v % 2 ^ s.cfg.lenW ∧ (v ≤ s.cfg.inMax → regValue t 2 = v))

/-- 10_state.md R11: a write to a read-only register or to a number above 6 has no effect; a read of a number above 6,
or of `CTRL`, returns 0; 45_control.md R134: a write of `OUT_BUF` has no effect. -/
def Obligations.ReadOnlyAndUnknownRegisters : Prop :=
  ∀ (s : State) (r v : Nat),
    (3 ≤ r → hostMove (.writeReg r v) s = .next s) ∧
    (7 ≤ r ∨ r = 0 → ∃ t, hostMove (.readReg r) s = .next t ∧ t.lastRead = 0) ∧
    (∀ b, v < outDepth s.cfg → hostMove (.writeOut v b) s = .next s)

/-- 20_memory.md R44: no read of the HOST has a side effect: nothing changes but what the HOST has read and the number
of free values drawn. A read of a register or of `IN_BUF`, written or not, draws none, and made again it returns
the same value; a read of `OUT_BUF` outside the result may not (93_implementation_defined.md U2). -/
def Obligations.HostReadsHaveNoSideEffect : Prop :=
  ∀ (s t : State) (m : HostMove),
    ((∃ i, m = .readIn i) ∨ (∃ r, m = .readReg r) ∨ ∃ j, m = .readOut j) →
    hostMove m s = .next t → t = { s with lastRead := t.lastRead, draws := t.draws } ∧
      ((∀ j, m ≠ .readOut j) → t.draws = s.draws ∧ hostMove m t = .next t)

/-- 10_state.md R11, R19, 45_control.md R134: what a read of each register returns; `STATUS` as its four bits, with
the numbers of R19 and of 60_exceptions.md R140 and R141 written out. -/
def Obligations.RegisterReadsReturnTheRegister : Prop :=
  ∀ s : State, ∀ r, ∃ t, hostMove (.readReg r) s = .next t ∧
    (r = 1 → t.lastRead = s.opReg.toNat) ∧ (r = 2 → t.lastRead = s.inLen) ∧
    (r = 4 → t.lastRead = s.outLen) ∧ (r = 5 → t.lastRead = s.errOffset) ∧ (r = 6 → t.lastRead = s.cap) ∧
    (r = 3 → t.lastRead < 16 ∧
      (s.status.phase = .idle → t.lastRead % 4 = 0) ∧ (s.status.phase = .busy → t.lastRead % 4 = 1) ∧
      (s.status.phase = .done → t.lastRead % 4 = 2) ∧
      (s.status.err = .none → t.lastRead / 4 = 0) ∧ (s.status.err = .zeroByte → t.lastRead / 4 = 1) ∧
      (s.status.err = .shortInput → t.lastRead / 4 = 2))

/-- 45_control.md R134: a byte written to `IN_BUF` is read back, every other byte stays, and a byte at or above `n` is
no part of the running operation; a read of any byte written earlier returns it, and of a byte not written since
reset a free value (log entry 4), with nothing else changed. -/
def Obligations.HostWriteReadsBackFromInputBuffer : Prop :=
  (∀ (s : State) (i : Nat) (b : Byte), i < s.cfg.inDepth → ∃ t u,
    hostMove (.writeIn i b) s = .next t ∧ t = { s with inBuf := t.inBuf, overwritten := t.overwritten } ∧
    (∀ a, Memory.read t.inBuf a = if a = i then some b else Memory.read s.inBuf a) ∧
    (s.nLatch ≤ i → t.overwritten = s.overwritten) ∧
    hostMove (.readIn i) t = .next u ∧ u.lastRead = b.toNat) ∧
  ∀ (s : State) (i : Nat), i < s.cfg.inDepth → ∃ t, hostMove (.readIn i) s = .next t ∧
    t = { s with lastRead := t.lastRead } ∧
    (∀ b, Memory.read s.inBuf i = some b → t.lastRead = b.toNat) ∧
    (Memory.read s.inBuf i = none → t.lastRead = (Config.freeInput s.resets i).toNat)

/-- 93_implementation_defined.md U4 (log entry 6: the treatment that U4 offers a model which gives the breach a
behaviour): a byte of the running operation's input that the HOST overwrote is loaded as its old or its new
value. -/
def Obligations.OverwrittenInputLoadsOldOrNew : Prop :=
  ∀ (s t u : State) (i : Nat) (old new b : Byte), s.status.phase = .busy → i < s.nLatch → i < s.cfg.inDepth →
    Memory.read s.inBuf i = some old → earlierBytes s i = [] →
    hostMove (.writeIn i new) s = .next t → loadIn i t = .byte b u → b = old ∨ b = new

/-- 45_control.md R134, 10_state.md R24: a read of `OUT_BUF[j]` returns the result byte in `DONE` with `ERR = NONE` and
`j < OUT_LEN`, and otherwise the next free value, whatever it is (93 U2, U3; log entries 5 and 7). -/
def Obligations.OutputReadsReturnResultOrFreeValue : Prop :=
  ∀ (s : State) (j : Nat), j < outDepth s.cfg → ∃ t, hostMove (.readOut j) s = .next t ∧
    (∀ b, s.status = ⟨.done, .none⟩ → j < s.outLen → Memory.read s.outBuf j = some b → t.lastRead = b.toNat) ∧
    (s.status ≠ ⟨.done, .none⟩ ∨ s.outLen ≤ j →
      t.lastRead = (Config.freeByte s.draws).toNat ∧ t.draws = s.draws + 1)

/-- 20_memory.md R50 (log entry 12: that the model stops there is its own): an index past a buffer's depth does not
exist, and a HOST access to it stops the model by name. -/
def Obligations.AccessPastABufferStops : Prop :=
  ∀ (s : State) (a : Nat) (b : Byte),
    (s.cfg.inDepth ≤ a → hostMove (.writeIn a b) s = .fault (.noInputByte a) ∧
      hostMove (.readIn a) s = .fault (.noInputByte a)) ∧
    (outDepth s.cfg ≤ a → hostMove (.writeOut a b) s = .fault (.noOutputByte a) ∧
      hostMove (.readOut a) s = .fault (.noOutputByte a))

/-! Sizing. -/

/-- 44_sizing.md R120, R121, R124: the formulas, the looser bound on `ENC_CAP`, that no result overflows `CAP` for any
`LEN_W`, and that `ENC_CAP` is strictly increasing. -/
def Obligations.CapacitiesFitTheirRegister : Prop :=
  (∀ n, encCap n = n + n / 254 + 1 ∧ encCap n ≤ n + ceilDiv254 n + 1 ∧ decCap n = n) ∧
  (∀ (c : Config) (n : Nat), n ≤ c.inMax → encCap n < 2 ^ (c.lenW + 1) ∧ decCap n < 2 ^ (c.lenW + 1)) ∧
  (∀ m n, m < n → encCap m < encCap n)

/-- 44_sizing.md R122: the encode capacity operations, from `START` to completion, with R122's corner cases and worked
example. -/
def Obligations.EncodeCapacityOperations : Prop :=
  (∀ s : State, s.status.phase ≠ .busy → s.opReg = 0b100#3 ∨ s.opReg = 0b110#3 → ∃ t u,
    exec .start s = .next t ∧ t.cap = encCap s.inLen ∧ engineRun t = .next u ∧
    u.status = ⟨.done, .none⟩ ∧ u.cap = encCap s.inLen ∧ u.outLen = 0 ∧ u.errOffset = 0 ∧
    u.inBuf = s.inBuf ∧ u.outBuf = t.outBuf) ∧
  (∀ s : State, ∀ i, i = Instr.cobsEnccap ∨ i = Instr.cobsrEnccap → ∃ t, exec i s = .next t ∧
    t.status = ⟨.done, .none⟩ ∧ t.outLen = 0 ∧ t = { s with status := t.status, outLen := t.outLen }) ∧
  encCap 0 = 1 ∧ encCap 253 = 254 ∧ encCap 254 = 256 ∧ encCap 255 = 257 ∧
  ∀ c : Config, encCap c.inMax = outDepth c

/-- 44_sizing.md R123: the decode capacity operations, from `START` to completion, with R123's corner case and worked
example. -/
def Obligations.DecodeCapacityOperations : Prop :=
  (∀ s : State, s.status.phase ≠ .busy → s.opReg = 0b101#3 ∨ s.opReg = 0b111#3 → ∃ t u,
    exec .start s = .next t ∧ t.cap = s.inLen ∧ engineRun t = .next u ∧
    u.status = ⟨.done, .none⟩ ∧ u.cap = s.inLen ∧ u.outLen = 0 ∧ u.errOffset = 0 ∧
    u.inBuf = s.inBuf ∧ u.outBuf = t.outBuf) ∧
  (∀ s : State, ∀ i, i = Instr.cobsDeccap ∨ i = Instr.cobsrDeccap → ∃ t, exec i s = .next t ∧
    t.status = ⟨.done, .none⟩ ∧ t.outLen = 0 ∧ t = { s with status := t.status, outLen := t.outLen }) ∧
  decCap 0 = 0 ∧ decCap 5 = 5

/-! The encoders. -/

/-- 40_cobs_encode.md R80 to R83: `COBS.ENC` completes and its output is the closed form, of the length R83 gives;
nothing outside the operation changes. -/
def Obligations.CobsEncodeMatchesClosedForm : Prop :=
  ∀ (s : State) (xs : List Byte), s.cfg.forceAtEnd = false → holdsInput s xs → ∃ t, exec .cobsEnc s = .next t ∧
    succeedsWith t (cobsEncoding xs) ∧ t.errOffset = s.errOffset ∧ sameOutsideOperation s t ∧
    t.outLen = xs.length + ((splitZeros xs).dropLast.map fun r => r.length / 254).sum +
      (if lastRun xs = [] then 1 else ceilDiv254 (lastRun xs).length)

/-- 42_cobsr_encode.md R100 to R102: `COBSR.ENC` completes and its output is the COBS encoding, or with the
substitution (`last_byte >= search_len`) its last code replaced and its last byte dropped. -/
def Obligations.CobsrEncodeMatchesReducedForm : Prop :=
  ∀ (s : State) (xs : List Byte), s.cfg.forceAtEnd = false → holdsInput s xs → ∃ t, exec .cobsrEnc s = .next t ∧
    succeedsWith t (cobsrEncoding xs) ∧ t.errOffset = s.errOffset ∧ sameOutsideOperation s t

/-- 92_eei_decisions.md D1, 93_implementation_defined.md U10: what the other reading of the forced close would give,
as D1 describes it: a trailing `01` after `COBS.ENC`, and the `COBS.ENC` output of this block from `COBSR.ENC`,
for exactly the inputs whose last run has a positive multiple of 254 bytes. -/
def Obligations.ForcedCloseAtEndChangesOnlyFullLastRuns : Prop :=
  ∀ (s : State) (xs : List Byte), s.cfg.forceAtEnd = true → holdsInput s xs → ∃ t u,
    exec .cobsEnc s = .next t ∧ exec .cobsrEnc s = .next u ∧
    (lastRun xs ≠ [] ∧ (lastRun xs).length % 254 = 0 →
      succeedsWith t (cobsEncoding xs ++ [1#8]) ∧ succeedsWith u (cobsEncoding xs)) ∧
    (lastRun xs = [] ∨ (lastRun xs).length % 254 ≠ 0 →
      succeedsWith t (cobsEncoding xs) ∧ succeedsWith u (cobsrEncoding xs))

/-- 60_exceptions.md R144: no encoder path fails: whenever an encoder ends, `STATUS.ERR` is `NONE`, and it does end on
every input the HOST has written. -/
def Obligations.EncodingNeverFails : Prop :=
  ∀ i, i = Instr.cobsEnc ∨ i = Instr.cobsrEnc →
    (∀ s t : State, exec i s = .next t → t.status = ⟨.done, .none⟩) ∧
    (∀ (s : State) (xs : List Byte), holdsInput s xs → ∃ t, exec i s = .next t ∧ t.status = ⟨.done, .none⟩)

/-- 40_cobs_encode.md R84 (a), 42_cobsr_encode.md R102 (a): no output byte of an encoder is zero (95_test_vectors.md
P2), under either reading of the forced close. -/
def Obligations.EncodedStreamsHoldNoZero : Prop :=
  ∀ i, i = Instr.cobsEnc ∨ i = Instr.cobsrEnc →
    ∀ (s : State) (xs : List Byte), holdsInput s xs → ∃ t ys, exec i s = .next t ∧ succeedsWith t ys ∧ 0#8 ∉ ys

/-- 40_cobs_encode.md R84 (c), 44_sizing.md R125: the bounds on the length of a COBS encoding, and that `ENC_CAP` is
reached. -/
def Obligations.CobsEncodeLengthBounds : Prop :=
  (∀ (s : State) (xs : List Byte), holdsInput s xs → ∃ t, exec .cobsEnc s = .next t ∧
    xs.length + 1 ≤ t.outLen ∧ t.outLen ≤ encCap xs.length ∧
    (s.cfg.forceAtEnd = false → xs ≠ [] → t.outLen ≤ xs.length + ceilDiv254 xs.length)) ∧
  (∀ s : State, holdsInput s [] → ∃ t, exec .cobsEnc s = .next t ∧ t.outLen = encCap 0)

/-- 42_cobsr_encode.md R102 (c): COBS/R is never longer than COBS, shorter by one byte exactly when the substitution is
made, and otherwise the same byte for byte (95_test_vectors.md P4). -/
def Obligations.CobsrNeverLongerThanCobs : Prop :=
  ∀ (s : State) (xs : List Byte), s.cfg.forceAtEnd = false → holdsInput s xs → ∃ t u ys zs,
    exec .cobsEnc s = .next t ∧ succeedsWith t ys ∧ exec .cobsrEnc s = .next u ∧ succeedsWith u zs ∧
    (substitutesOn xs = true → zs.length + 1 = ys.length) ∧ (substitutesOn xs = false → zs = ys)

/-- 93_implementation_defined.md U1, 70_reset_and_hazards.md R182: a transform that meets an input byte nothing has
written stops the model at that byte (log entry 4): an encoder and `COBSR.DEC` at the first such byte they come
to, a single transition or pass of any transform at the byte it reads; and no decode of an input that holds one
ends with success. -/
def Obligations.UnwrittenInputStopsTheTransforms : Prop :=
  (∀ i, i = Instr.cobsEnc ∨ i = Instr.cobsrEnc → ∀ (s : State) (m : Nat), m < s.nLatch →
    (∀ a ≤ m, earlierBytes s a = []) → (∀ a < m, Memory.read s.inBuf a ≠ none) → Memory.read s.inBuf m = none →
    exec i s = .fault (.unwrittenInput m)) ∧
  (∀ s : State, s.status.phase = .busy → sizeBit s.opLatch = false →
    (dirBit s.opLatch = false ∧ s.work.src < s.nLatch ∨
      dirBit s.opLatch = true ∧ s.work.fsm = .readCode ∧ s.work.src < s.nLatch ∨
      dirBit s.opLatch = true ∧ s.work.fsm = .copyPayload ∧ 0 < s.work.k) →
    Memory.read s.inBuf s.work.src = none → earlierBytes s s.work.src = [] →
    engineTick s = .fault (.unwrittenInput s.work.src)) ∧
  (∀ (s : State) (m : Nat), m < s.nLatch → (∀ a ≤ m, earlierBytes s a = []) →
    (∀ a < m, ∃ b, Memory.read s.inBuf a = some b ∧ b ≠ 0#8) → Memory.read s.inBuf m = none →
    exec .cobsrDec s = .fault (.unwrittenInput m)) ∧
  (∀ i, i = Instr.cobsDec ∨ i = Instr.cobsrDec → ∀ (s t : State) (m : Nat), m < s.nLatch →
    (∀ a < s.nLatch, earlierBytes s a = []) → Memory.read s.inBuf m = none →
    exec i s = .next t → t.status.err ≠ .none)

/-- 40_cobs_encode.md R81, R82: one pass of the scan on a running encoder: a zero closes the span; any other byte is
copied, and the span is closed by force when it then holds 254 bytes and more input follows. -/
def Obligations.ScanPassClosesOrCopies : Prop :=
  ∀ (s : State) (b : Byte), s.status.phase = .busy → sizeBit s.opLatch = false → dirBit s.opLatch = false →
    s.cfg.forceAtEnd = false → s.work.src < s.nLatch → s.work.codeIdx < s.work.dst →
    Memory.read s.inBuf s.work.src = some b → earlierBytes s s.work.src = [] →
    ∃ t, engineTick s = .next t ∧ t = { s with work := t.work, outBuf := t.outBuf } ∧
      t.work.src = s.work.src + 1 ∧
      (b = 0#8 → t.work.searchLen = 1#8 ∧ t.work.codeIdx = s.work.dst ∧ t.work.dst = s.work.dst + 1 ∧
        ∀ a, Memory.read t.outBuf a =
          if a = s.work.codeIdx then some s.work.searchLen else Memory.read s.outBuf a) ∧
      (b ≠ 0#8 → s.work.searchLen + 1#8 ≠ 255#8 ∨ s.work.src + 1 = s.nLatch →
        t.work.searchLen = s.work.searchLen + 1#8 ∧ t.work.codeIdx = s.work.codeIdx ∧
        t.work.dst = s.work.dst + 1 ∧
        ∀ a, Memory.read t.outBuf a = if a = s.work.dst then some b else Memory.read s.outBuf a) ∧
      (b ≠ 0#8 → s.work.searchLen + 1#8 = 255#8 → s.work.src + 1 < s.nLatch →
        t.work.searchLen = 1#8 ∧ t.work.codeIdx = s.work.dst + 1 ∧ t.work.dst = s.work.dst + 2 ∧
        ∀ a, Memory.read t.outBuf a =
          if a = s.work.codeIdx then some 255#8
          else if a = s.work.dst then some b else Memory.read s.outBuf a)

/-! The decoders. -/

/-- 41_cobs_decode.md R90, 43_cobsr_decode.md R110, 60_exceptions.md R147: `COBS.DEC` and `COBSR.DEC` complete and give
what their checks and the separator rule make of the input span by span, or the first failing check in their
order. -/
def Obligations.DecodersReadSpans : Prop :=
  ∀ d i, (d = Decoder.cobs ∧ i = Instr.cobsDec) ∨ (d = Decoder.cobsr ∧ i = Instr.cobsrDec) →
    ∀ (s : State) (xs : List Byte), holdsInput s xs → ∃ t, exec i s = .next t ∧ sameOutsideOperation s t ∧
      match decoding d xs with
      | .ok ys => succeedsWith t ys ∧ t.errOffset = s.errOffset
      | .error e => failsWith t e.1 e.2

/-- 41_cobs_decode.md R93: decode of the empty input succeeds with `OUT_LEN = 0`, for both decoders. -/
def Obligations.EmptyInputDecodesToEmpty : Prop :=
  ∀ i, i = Instr.cobsDec ∨ i = Instr.cobsrDec → ∀ s : State, s.nLatch = 0 →
    ∃ t, exec i s = .next t ∧ t.status = ⟨.done, .none⟩ ∧ t.outLen = 0

/-- 60_exceptions.md R148: truncation is found before a zero inside the span by `COBS.DEC`, and only the zero by
`COBSR.DEC`; a zero beyond a failing span is never seen. -/
def Obligations.TruncationIsReportedBeforeZero : Prop :=
  (∀ s : State, holdsInput s [0x03#8, 0x00#8] →
    (∃ t, exec .cobsDec s = .next t ∧ failsWith t .shortInput 0) ∧
    (∃ t, exec .cobsrDec s = .next t ∧ failsWith t .zeroByte 1)) ∧
  (∀ s : State, holdsInput s [0x00#8, 0x00#8] → ∃ t, exec .cobsDec s = .next t ∧ failsWith t .zeroByte 0)

/-- 60_exceptions.md R146: what a failed decode records and changes: the kind and the offset of the first offending
byte in the order of R147 (the zero byte, or the code byte whose span is too short), `OUT_LEN = 0`, every byte of
`OUT_BUF` unspecified; `CAP`, `OP`, `IN_LEN`, `IN_BUF` unchanged. -/
def Obligations.FailureRecordsKindAndOffset : Prop :=
  ∀ d i, (d = Decoder.cobs ∧ i = Instr.cobsDec) ∨ (d = Decoder.cobsr ∧ i = Instr.cobsrDec) →
    ∀ (s t : State) (xs : List Byte), holdsInput s xs → exec i s = .next t → t.status.err ≠ .none →
    decoding d xs = .error (t.status.err, t.errOffset) ∧
    t.status.phase = .done ∧ t.outLen = 0 ∧ sameOutsideOperation s t ∧ outputUnspecified t ∧
    t.cap = s.cap ∧ t.opReg = s.opReg ∧ t.inLen = s.inLen ∧ t.inBuf = s.inBuf ∧
    (t.status.err = .zeroByte → xs[t.errOffset]? = some 0#8) ∧
    (t.status.err = .shortInput → i = .cobsDec ∧
      ∃ c, xs[t.errOffset]? = some c ∧ xs.length - (t.errOffset + 1) < c.toNat - 1)

/-- 41_cobs_decode.md R94 (b), 43_cobsr_decode.md R112 (c): `COBSR.DEC` succeeds exactly on the inputs without a zero
byte, and `COBS.DEC` only on such inputs (95_test_vectors.md P7). -/
def Obligations.DecodersRejectZeroBytes : Prop :=
  ∀ (s : State) (xs : List Byte), holdsInput s xs →
    (∃ t, exec .cobsrDec s = .next t ∧ (t.status.err = .none ↔ 0#8 ∉ xs)) ∧
    (∃ t, exec .cobsDec s = .next t ∧ (t.status.err = .none → 0#8 ∉ xs))

/-- 43_cobsr_decode.md R113: wherever `COBS.DEC` succeeds, `COBSR.DEC` succeeds with the same output (P8). -/
def Obligations.CobsrDecodeExtendsCobsDecode : Prop :=
  ∀ (s t : State) (xs ys : List Byte), holdsInput s xs → exec .cobsDec s = .next t → succeedsWith t ys →
    ∃ u, exec .cobsrDec s = .next u ∧ succeedsWith u ys

/-- 44_sizing.md R126, 41_cobs_decode.md R94 (a), 43_cobsr_decode.md R112 (a): the bounds on the length of decoded data
(P9). -/
def Obligations.DecodedLengthBounds : Prop :=
  ∀ (s : State) (xs : List Byte), holdsInput s xs →
    (∃ t, exec .cobsDec s = .next t ∧ t.outLen ≤ xs.length - 1) ∧
    (∃ t, exec .cobsrDec s = .next t ∧ t.outLen ≤ decCap xs.length)

/-! Both directions. -/

/-- 40_cobs_encode.md R84 (b): `COBS.DEC` of `COBS.ENC` returns the input, under either reading of the forced close. -/
def Obligations.CobsRoundTrip : Prop :=
  ∀ (s : State) (xs : List Byte), holdsInput s xs → ∃ t ys, exec .cobsEnc s = .next t ∧ succeedsWith t ys ∧
    ∀ u : State, holdsInput u ys → ∃ v, exec .cobsDec u = .next v ∧ succeedsWith v xs

/-- 42_cobsr_encode.md R102 (b): `COBSR.DEC` of `COBSR.ENC` returns the input, under either reading. -/
def Obligations.CobsrRoundTrip : Prop :=
  ∀ (s : State) (xs : List Byte), holdsInput s xs → ∃ t ys, exec .cobsrEnc s = .next t ∧ succeedsWith t ys ∧
    ∀ u : State, holdsInput u ys → ∃ v, exec .cobsrDec u = .next v ∧ succeedsWith v xs

/-- 70_reset_and_hazards.md R184: `COBS.DEC` of a `COBSR.ENC` stream never returns wrong data: it returns the input when
no substitution was made and otherwise fails with `SHORT_INPUT` at the last length code (P10). -/
def Obligations.WrongDecoderNeverReturnsWrongData : Prop :=
  ∀ (s : State) (xs : List Byte), s.cfg.forceAtEnd = false → holdsInput s xs → ∃ t ys,
    exec .cobsrEnc s = .next t ∧ succeedsWith t ys ∧
    ∀ u : State, holdsInput u ys → ∃ v, exec .cobsDec u = .next v ∧
      (substitutesOn xs = false → succeedsWith v xs) ∧
      (substitutesOn xs = true → failsWith v .shortInput (lastCodeIndex xs))

/-- 10_state.md R27: the results of an operation depend on `OP`, `IN_LEN` and the input bytes at `START` and on nothing
else: two blocks of any history give the same observation. -/
def Obligations.ResultDependsOnlyOnOperationAndInput : Prop :=
  ∀ (s s' : State) (xs : List Byte), s.status.phase ≠ .busy → s'.status.phase ≠ .busy →
    s.cfg.forceAtEnd = s'.cfg.forceAtEnd → s.opReg = s'.opReg → s.inLen = xs.length → s'.inLen = xs.length →
    (∀ i < xs.length, Memory.read s.inBuf i = xs[i]? ∧ Memory.read s'.inBuf i = xs[i]?) →
    ∃ t t' u u', exec .start s = .next t ∧ exec .start s' = .next t' ∧
      engineRun t = .next u ∧ engineRun t' = .next u' ∧ sameObservation u u'

/-- What the four transforms leave unchanged (20_memory.md R44, R46 to R48; 60_exceptions.md R146): every register but
`STATUS`, `OUT_LEN`, `ERR_OFFSET` and the working registers; on success `ERR_OFFSET` and every byte of
`OUT_BUF` at or above the final `dst`; the result ends at `dst`, or one byte below it when `COBSR.ENC` dropped
the last byte. -/
def Obligations.TransformFrame : Prop :=
  ∀ i, i = Instr.cobsEnc ∨ i = Instr.cobsDec ∨ i = Instr.cobsrEnc ∨ i = Instr.cobsrDec →
    ∀ s t : State, exec i s = .next t → sameOutsideOperation s t ∧ t.status.phase = .done ∧
      (t.status.err = .none → t.errOffset = s.errOffset ∧
        (∀ a, t.work.dst ≤ a → Memory.read t.outBuf a = Memory.read s.outBuf a) ∧
        (t.outLen = t.work.dst ∨ (i = .cobsrEnc ∧ t.outLen + 1 = t.work.dst)))

/-! The decode machine, transition by transition. -/

/-- 41_cobs_decode.md R92, T2 (30_encoding.md R66 (a), 60_exceptions.md R146): a zero length code fails `ZERO_BYTE` at
its index, for both decoders, with nothing else changed. -/
def Obligations.ZeroLengthCodeFails : Prop :=
  ∀ i, i = Instr.lcZeroCobsDec ∨ i = Instr.lcZeroCobsrDec → ∀ s : State,
    ∃ t, exec i s = .next t ∧ failsWith t .zeroByte s.work.src ∧
      t = { s with
        status := t.status, outLen := t.outLen, errOffset := t.errOffset, outBuf := t.outBuf,
        work := { s.work with fsm := .failed } }

/-- R92, T4 with `V = 0`: a length code of `COBS.DEC` whose payload is present is accepted: the code consumed, `k`
set to the `c - 1` bytes to copy, nothing stored and nothing else changed. -/
def Obligations.CobsLengthCodeAccepted : Prop :=
  ∀ (i : Instr) (c : Byte), (i = .lcFullCobsDec ∧ c = 255#8) ∨ (i = .lcSpanCobsDec c ∧ c ≠ 0#8 ∧ c ≠ 255#8) →
    ∀ s : State, c.toNat - 1 ≤ s.nLatch - (s.work.src + 1) →
      exec i s = .next { s with work := { s.work with
        c := c, src := s.work.src + 1, rem := s.nLatch - (s.work.src + 1), k := c.toNat - 1, short := false,
        fsm := .copyPayload } }

/-- R92, T3 (30_encoding.md R66 (c)): a length code of `COBS.DEC` that states more payload than remains fails
`SHORT_INPUT` at its own index, with nothing else changed. -/
def Obligations.CobsShortSpanFails : Prop :=
  ∀ (i : Instr) (c : Byte), (i = .lcFullCobsDec ∧ c = 255#8) ∨ (i = .lcSpanCobsDec c ∧ c ≠ 0#8 ∧ c ≠ 255#8) →
    ∀ s : State, s.nLatch - (s.work.src + 1) < c.toNat - 1 →
      ∃ t, exec i s = .next t ∧ failsWith t .shortInput s.work.src ∧
        t = { s with
          status := t.status, outLen := t.outLen, errOffset := t.errOffset, outBuf := t.outBuf,
          work := { s.work with fsm := .failed } }

/-- R92, T4 with `V = 1` (30_encoding.md R64, R65): every non-zero length code of `COBSR.DEC` is accepted, the payload
being the bytes present at most; `short` records that fewer than `c - 1` remain. -/
def Obligations.CobsrLengthCodeAccepted : Prop :=
  ∀ (i : Instr) (c : Byte), (i = .lcFullCobsrDec ∧ c = 255#8) ∨ (i = .lcSpanCobsrDec c ∧ c ≠ 0#8 ∧ c ≠ 255#8) →
    ∀ s : State, ∃ t, exec i s = .next t ∧ t = { s with work := t.work } ∧
      t.work = { s.work with
        c := c, src := s.work.src + 1, rem := s.nLatch - (s.work.src + 1),
        k := min (c.toNat - 1) (s.nLatch - (s.work.src + 1)), short := t.work.short, fsm := .copyPayload } ∧
      (t.work.short = true ↔ s.nLatch - (s.work.src + 1) < c.toNat - 1)

/-- R92, T5: a zero payload byte fails `ZERO_BYTE` at its index, with nothing else changed. -/
def Obligations.ZeroPayloadByteFails : Prop :=
  ∀ s : State, ∃ t, exec .pbZero s = .next t ∧ failsWith t .zeroByte s.work.src ∧
    t = { s with
      status := t.status, outLen := t.outLen, errOffset := t.errOffset, outBuf := t.outBuf,
      work := { s.work with fsm := .failed } }

/-- R92, T6: any other payload byte is copied to `OUT[dst]` and the cursors move; no other output byte and no other
register changes. -/
def Obligations.PayloadByteIsCopied : Prop :=
  ∀ (s : State) (b : Byte), b ≠ 0#8 → ∃ t, exec (.pbData b) s = .next t ∧
    t = { s with outBuf := t.outBuf, work := { s.work with
      dst := s.work.dst + 1, src := s.work.src + 1, k := s.work.k - 1 } } ∧
    Memory.read t.outBuf s.work.dst = some b ∧
    ∀ a, a ≠ s.work.dst → Memory.read t.outBuf a = Memory.read s.outBuf a

/-- R92, T1 and T7 to T11: the transitions of the decode machine that read no byte, each with its whole effect. -/
def Obligations.DecodeMachineInternalTransitions : Prop :=
  ∀ s : State, s.status.phase = .busy → sizeBit s.opLatch = false → dirBit s.opLatch = true →
    (s.work.fsm = .readCode ∧ s.work.src = s.nLatch ∨
      s.work.fsm = .copyPayload ∧ s.work.k = 0 ∧ s.work.short = false ∧ s.work.src = s.nLatch →
      engineTick s = .next { s with
        status := ⟨.done, .none⟩, outLen := s.work.dst, work := { s.work with fsm := .done } }) ∧
    (s.work.fsm = .copyPayload → s.work.k = 0 → s.work.short = true →
      ∃ t, engineTick s = .next t ∧
        t = { s with outBuf := t.outBuf, work := { s.work with dst := s.work.dst + 1, short := false } } ∧
        ∀ a, Memory.read t.outBuf a = if a = s.work.dst then some s.work.c else Memory.read s.outBuf a) ∧
    (s.work.fsm = .copyPayload → s.work.k = 0 → s.work.short = false → s.work.src < s.nLatch →
      engineTick s = .next { s with work := { s.work with
        fsm := if s.work.c = 255#8 then .readCode else .emitSeparator } }) ∧
    (s.work.fsm = .emitSeparator →
      ∃ t, engineTick s = .next t ∧
        t = { s with outBuf := t.outBuf, work := { s.work with dst := s.work.dst + 1, fsm := .readCode } } ∧
        ∀ a, Memory.read t.outBuf a = if a = s.work.dst then some 0#8 else Memory.read s.outBuf a)

/-- 41_cobs_decode.md R92, 95_test_vectors.md P13: the state machine, step by step, ends a decode as the pseudocode run
as one step does, working registers apart, within `3n + 1` transitions (70_reset_and_hazards.md R187). -/
def Obligations.StepwiseDecodeEqualsAtomic : Prop :=
  ∀ (s : State) (xs : List Byte), s.status.phase = .busy → s.opLatch = 0b001#3 ∨ s.opLatch = 0b011#3 →
    s.work.src = 0 → s.work.dst = 0 → s.work.fsm = .readCode → holdsInput s xs →
    ∃ t u, exec (decodeOp3 s.opLatch) s = .next t ∧ engineTicks (3 * xs.length + 1) s = .next u ∧
      u.status.phase = .done ∧ u = { t with work := u.work }

/-- 70_reset_and_hazards.md R186, R187: an encoder, pass by pass, ends as its pseudocode run as one step does, after
exactly `n` passes and one final close. -/
def Obligations.StepwiseEncodeEqualsAtomic : Prop :=
  ∀ (s : State) (xs : List Byte), s.status.phase = .busy → s.opLatch = 0b000#3 ∨ s.opLatch = 0b010#3 →
    s.work.src = 0 → s.work.codeIdx = 0 → s.work.dst = 1 → s.work.searchLen = 1#8 → holdsInput s xs →
    ∃ t u v, exec (decodeOp3 s.opLatch) s = .next t ∧ engineTicks xs.length s = .next u ∧
      u.status.phase = .busy ∧ engineTicks (xs.length + 1) s = .next v ∧ v = t

/-! Whole-machine rules. -/

/-- 70_reset_and_hazards.md R188, 45_control.md R132: a running operation is finished by single transitions from any
point of it within `3n + 1`; and with no turn left in the agenda by the next step, which is how the model lets a
BUSY ENGINE go on (log entry 2, a DESIGN CHOICE; R188 says finitely many steps, not one). -/
def Obligations.RunningOperationFinishes : Prop :=
  ∀ (s : State) (xs : List Byte), s.status.phase = .busy → holdsInput s xs →
    (s.agenda = [] → ∃ t, step s = .next t ∧ t.status.phase = .done) ∧
    (Inv s → ∃ t, engineTicks (3 * xs.length + 1) s = .next t ∧ t.status.phase = .done)

/-- 70_reset_and_hazards.md R170, 10_state.md R19: reset is the only way to `IDLE`, an accepted `START` the only way to
`BUSY`, and `DONE` is reached from `BUSY` only. -/
def Obligations.PhaseChanges : Prop :=
  ∀ s t : State, step s = .next t →
    (t.status.phase = .idle → s.status.phase = .idle ∨ isResetTurn s) ∧
    (t.status.phase = .busy → s.status.phase = .busy ∨ isStartTurn s) ∧
    (t.status.phase = .done → s.status.phase = .done ∨ s.status.phase = .busy)

/-- 10_state.md R19, 92_eei_decisions.md D23: `DONE` and all results persist until the next accepted `START` or reset. -/
def Obligations.ResultsPersistUntilStartOrReset : Prop :=
  ∀ s t : State, s.status.phase = .done → ¬ isStartTurn s → ¬ isResetTurn s → step s = .next t →
    t.status = s.status ∧ t.outLen = s.outLen ∧ t.errOffset = s.errOffset ∧ t.cap = s.cap ∧ t.outBuf = s.outBuf

/-- 10_state.md R23, 20_memory.md R44, R46, R47, R55: nothing but a HOST write or a reset changes `IN_BUF`, `OP` or
`IN_LEN`; the parameters never change. -/
def Obligations.OnlyTheHostChangesItsRegistersAndInput : Prop :=
  ∀ s t : State, step s = .next t → t.cfg = s.cfg ∧ (¬ isResetTurn s →
    ((∀ i b, nextTurn s ≠ some (.host (.writeIn i b))) → t.inBuf = s.inBuf) ∧
    ((∀ v, nextTurn s ≠ some (.host (.writeReg 1 v))) → t.opReg = s.opReg) ∧
    ((∀ v, nextTurn s ≠ some (.host (.writeReg 2 v))) → t.inLen = s.inLen))

/-- 45_control.md R134, 20_memory.md R45: while an operation runs, `STATUS` reads `BUSY` with `NONE`, `OUT_LEN` and
`ERR_OFFSET` read 0 and `CAP` the value latched at `START`. -/
def Obligations.BusyReadsShowNoResult : Prop :=
  ∀ s : State, Inv s → s.status.phase = .busy →
    regValue s 3 = 1 ∧ regValue s 4 = 0 ∧ regValue s 5 = 0 ∧ regValue s 6 = capFor s.opLatch s.nLatch
end

