-- ==== Sys2Proof/Laws/State.lean ====
section
/-! SUPPORT. What each named update of State leaves in each field: one lemma per field per update, true by rfl, so that
no later proof unfolds a record update. -/

namespace Sys2Proof.Machine

variable (s : State)

@[simp] theorem setWork_cfg (w : Work) : (setWork w s).cfg = s.cfg := rfl
@[simp] theorem setWork_opReg (w : Work) : (setWork w s).opReg = s.opReg := rfl
@[simp] theorem setWork_inLen (w : Work) : (setWork w s).inLen = s.inLen := rfl
@[simp] theorem setWork_status (w : Work) : (setWork w s).status = s.status := rfl
@[simp] theorem setWork_outLen (w : Work) : (setWork w s).outLen = s.outLen := rfl
@[simp] theorem setWork_errOffset (w : Work) : (setWork w s).errOffset = s.errOffset := rfl
@[simp] theorem setWork_cap (w : Work) : (setWork w s).cap = s.cap := rfl
@[simp] theorem setWork_opLatch (w : Work) : (setWork w s).opLatch = s.opLatch := rfl
@[simp] theorem setWork_nLatch (w : Work) : (setWork w s).nLatch = s.nLatch := rfl
@[simp] theorem setWork_work (w : Work) : (setWork w s).work = w := rfl
@[simp] theorem setWork_inBuf (w : Work) : (setWork w s).inBuf = s.inBuf := rfl
@[simp] theorem setWork_outBuf (w : Work) : (setWork w s).outBuf = s.outBuf := rfl
@[simp] theorem setWork_overwritten (w : Work) : (setWork w s).overwritten = s.overwritten := rfl
@[simp] theorem setWork_agenda (w : Work) : (setWork w s).agenda = s.agenda := rfl
@[simp] theorem setWork_draws (w : Work) : (setWork w s).draws = s.draws := rfl
@[simp] theorem setWork_resets (w : Work) : (setWork w s).resets = s.resets := rfl
@[simp] theorem setWork_lastRead (w : Work) : (setWork w s).lastRead = s.lastRead := rfl

@[simp] theorem storeOut_cfg (j : Nat) (v : Byte) : (storeOut j v s).cfg = s.cfg := rfl
@[simp] theorem storeOut_opReg (j : Nat) (v : Byte) : (storeOut j v s).opReg = s.opReg := rfl
@[simp] theorem storeOut_inLen (j : Nat) (v : Byte) : (storeOut j v s).inLen = s.inLen := rfl
@[simp] theorem storeOut_status (j : Nat) (v : Byte) : (storeOut j v s).status = s.status := rfl
@[simp] theorem storeOut_outLen (j : Nat) (v : Byte) : (storeOut j v s).outLen = s.outLen := rfl
@[simp] theorem storeOut_errOffset (j : Nat) (v : Byte) : (storeOut j v s).errOffset = s.errOffset := rfl
@[simp] theorem storeOut_cap (j : Nat) (v : Byte) : (storeOut j v s).cap = s.cap := rfl
@[simp] theorem storeOut_opLatch (j : Nat) (v : Byte) : (storeOut j v s).opLatch = s.opLatch := rfl
@[simp] theorem storeOut_nLatch (j : Nat) (v : Byte) : (storeOut j v s).nLatch = s.nLatch := rfl
@[simp] theorem storeOut_work (j : Nat) (v : Byte) : (storeOut j v s).work = s.work := rfl
@[simp] theorem storeOut_inBuf (j : Nat) (v : Byte) : (storeOut j v s).inBuf = s.inBuf := rfl
@[simp] theorem storeOut_outBuf (j : Nat) (v : Byte) : (storeOut j v s).outBuf = Memory.write s.outBuf j v := rfl
@[simp] theorem storeOut_overwritten (j : Nat) (v : Byte) : (storeOut j v s).overwritten = s.overwritten := rfl
@[simp] theorem storeOut_agenda (j : Nat) (v : Byte) : (storeOut j v s).agenda = s.agenda := rfl
@[simp] theorem storeOut_draws (j : Nat) (v : Byte) : (storeOut j v s).draws = s.draws := rfl
@[simp] theorem storeOut_resets (j : Nat) (v : Byte) : (storeOut j v s).resets = s.resets := rfl
@[simp] theorem storeOut_lastRead (j : Nat) (v : Byte) : (storeOut j v s).lastRead = s.lastRead := rfl

@[simp] theorem advance_cfg : (advance s).cfg = s.cfg := rfl
@[simp] theorem advance_opReg : (advance s).opReg = s.opReg := rfl
@[simp] theorem advance_inLen : (advance s).inLen = s.inLen := rfl
@[simp] theorem advance_status : (advance s).status = s.status := rfl
@[simp] theorem advance_outLen : (advance s).outLen = s.outLen := rfl
@[simp] theorem advance_errOffset : (advance s).errOffset = s.errOffset := rfl
@[simp] theorem advance_cap : (advance s).cap = s.cap := rfl
@[simp] theorem advance_opLatch : (advance s).opLatch = s.opLatch := rfl
@[simp] theorem advance_nLatch : (advance s).nLatch = s.nLatch := rfl
@[simp] theorem advance_work : (advance s).work = { s.work with src := s.work.src + 1 } := rfl
@[simp] theorem advance_inBuf : (advance s).inBuf = s.inBuf := rfl
@[simp] theorem advance_outBuf : (advance s).outBuf = s.outBuf := rfl
@[simp] theorem advance_overwritten : (advance s).overwritten = s.overwritten := rfl
@[simp] theorem advance_agenda : (advance s).agenda = s.agenda := rfl
@[simp] theorem advance_draws : (advance s).draws = s.draws := rfl
@[simp] theorem advance_resets : (advance s).resets = s.resets := rfl
@[simp] theorem advance_lastRead : (advance s).lastRead = s.lastRead := rfl

@[simp] theorem emit_cfg (v : Byte) : (emit v s).cfg = s.cfg := rfl
@[simp] theorem emit_opReg (v : Byte) : (emit v s).opReg = s.opReg := rfl
@[simp] theorem emit_inLen (v : Byte) : (emit v s).inLen = s.inLen := rfl
@[simp] theorem emit_status (v : Byte) : (emit v s).status = s.status := rfl
@[simp] theorem emit_outLen (v : Byte) : (emit v s).outLen = s.outLen := rfl
@[simp] theorem emit_errOffset (v : Byte) : (emit v s).errOffset = s.errOffset := rfl
@[simp] theorem emit_cap (v : Byte) : (emit v s).cap = s.cap := rfl
@[simp] theorem emit_opLatch (v : Byte) : (emit v s).opLatch = s.opLatch := rfl
@[simp] theorem emit_nLatch (v : Byte) : (emit v s).nLatch = s.nLatch := rfl
@[simp] theorem emit_work (v : Byte) : (emit v s).work = { s.work with dst := s.work.dst + 1 } := rfl
@[simp] theorem emit_inBuf (v : Byte) : (emit v s).inBuf = s.inBuf := rfl
@[simp] theorem emit_outBuf (v : Byte) : (emit v s).outBuf = Memory.write s.outBuf s.work.dst v := rfl
@[simp] theorem emit_overwritten (v : Byte) : (emit v s).overwritten = s.overwritten := rfl
@[simp] theorem emit_agenda (v : Byte) : (emit v s).agenda = s.agenda := rfl
@[simp] theorem emit_draws (v : Byte) : (emit v s).draws = s.draws := rfl
@[simp] theorem emit_resets (v : Byte) : (emit v s).resets = s.resets := rfl
@[simp] theorem emit_lastRead (v : Byte) : (emit v s).lastRead = s.lastRead := rfl

@[simp] theorem closeSpan_cfg (v : Byte) : (closeSpan v s).cfg = s.cfg := rfl
@[simp] theorem closeSpan_opReg (v : Byte) : (closeSpan v s).opReg = s.opReg := rfl
@[simp] theorem closeSpan_inLen (v : Byte) : (closeSpan v s).inLen = s.inLen := rfl
@[simp] theorem closeSpan_status (v : Byte) : (closeSpan v s).status = s.status := rfl
@[simp] theorem closeSpan_outLen (v : Byte) : (closeSpan v s).outLen = s.outLen := rfl
@[simp] theorem closeSpan_errOffset (v : Byte) : (closeSpan v s).errOffset = s.errOffset := rfl
@[simp] theorem closeSpan_cap (v : Byte) : (closeSpan v s).cap = s.cap := rfl
@[simp] theorem closeSpan_opLatch (v : Byte) : (closeSpan v s).opLatch = s.opLatch := rfl
@[simp] theorem closeSpan_nLatch (v : Byte) : (closeSpan v s).nLatch = s.nLatch := rfl
@[simp] theorem closeSpan_work (v : Byte) : (closeSpan v s).work =
    { s.work with codeIdx := s.work.dst, dst := s.work.dst + 1, searchLen := 1#8 } := rfl
@[simp] theorem closeSpan_inBuf (v : Byte) : (closeSpan v s).inBuf = s.inBuf := rfl
@[simp] theorem closeSpan_outBuf (v : Byte) : (closeSpan v s).outBuf = Memory.write s.outBuf s.work.codeIdx v := rfl
@[simp] theorem closeSpan_overwritten (v : Byte) : (closeSpan v s).overwritten = s.overwritten := rfl
@[simp] theorem closeSpan_agenda (v : Byte) : (closeSpan v s).agenda = s.agenda := rfl
@[simp] theorem closeSpan_draws (v : Byte) : (closeSpan v s).draws = s.draws := rfl
@[simp] theorem closeSpan_resets (v : Byte) : (closeSpan v s).resets = s.resets := rfl
@[simp] theorem closeSpan_lastRead (v : Byte) : (closeSpan v s).lastRead = s.lastRead := rfl

@[simp] theorem countPayload_cfg : (countPayload s).cfg = s.cfg := rfl
@[simp] theorem countPayload_opReg : (countPayload s).opReg = s.opReg := rfl
@[simp] theorem countPayload_inLen : (countPayload s).inLen = s.inLen := rfl
@[simp] theorem countPayload_status : (countPayload s).status = s.status := rfl
@[simp] theorem countPayload_outLen : (countPayload s).outLen = s.outLen := rfl
@[simp] theorem countPayload_errOffset : (countPayload s).errOffset = s.errOffset := rfl
@[simp] theorem countPayload_cap : (countPayload s).cap = s.cap := rfl
@[simp] theorem countPayload_opLatch : (countPayload s).opLatch = s.opLatch := rfl
@[simp] theorem countPayload_nLatch : (countPayload s).nLatch = s.nLatch := rfl
@[simp] theorem countPayload_work : (countPayload s).work = { s.work with searchLen := s.work.searchLen + 1#8 } := rfl
@[simp] theorem countPayload_inBuf : (countPayload s).inBuf = s.inBuf := rfl
@[simp] theorem countPayload_outBuf : (countPayload s).outBuf = s.outBuf := rfl
@[simp] theorem countPayload_overwritten : (countPayload s).overwritten = s.overwritten := rfl
@[simp] theorem countPayload_agenda : (countPayload s).agenda = s.agenda := rfl
@[simp] theorem countPayload_draws : (countPayload s).draws = s.draws := rfl
@[simp] theorem countPayload_resets : (countPayload s).resets = s.resets := rfl
@[simp] theorem countPayload_lastRead : (countPayload s).lastRead = s.lastRead := rfl

@[simp] theorem acceptCode_cfg (v : Byte) : (acceptCode v s).cfg = s.cfg := rfl
@[simp] theorem acceptCode_opReg (v : Byte) : (acceptCode v s).opReg = s.opReg := rfl
@[simp] theorem acceptCode_inLen (v : Byte) : (acceptCode v s).inLen = s.inLen := rfl
@[simp] theorem acceptCode_status (v : Byte) : (acceptCode v s).status = s.status := rfl
@[simp] theorem acceptCode_outLen (v : Byte) : (acceptCode v s).outLen = s.outLen := rfl
@[simp] theorem acceptCode_errOffset (v : Byte) : (acceptCode v s).errOffset = s.errOffset := rfl
@[simp] theorem acceptCode_cap (v : Byte) : (acceptCode v s).cap = s.cap := rfl
@[simp] theorem acceptCode_opLatch (v : Byte) : (acceptCode v s).opLatch = s.opLatch := rfl
@[simp] theorem acceptCode_nLatch (v : Byte) : (acceptCode v s).nLatch = s.nLatch := rfl
@[simp] theorem acceptCode_work (v : Byte) : (acceptCode v s).work = { s.work with
      c := v, src := s.work.src + 1, rem := s.nLatch - (s.work.src + 1),
      k := min (payloadLen v) (s.nLatch - (s.work.src + 1)),
      short := decide (s.nLatch - (s.work.src + 1) < payloadLen v), fsm := .copyPayload } := rfl
@[simp] theorem acceptCode_inBuf (v : Byte) : (acceptCode v s).inBuf = s.inBuf := rfl
@[simp] theorem acceptCode_outBuf (v : Byte) : (acceptCode v s).outBuf = s.outBuf := rfl
@[simp] theorem acceptCode_overwritten (v : Byte) : (acceptCode v s).overwritten = s.overwritten := rfl
@[simp] theorem acceptCode_agenda (v : Byte) : (acceptCode v s).agenda = s.agenda := rfl
@[simp] theorem acceptCode_draws (v : Byte) : (acceptCode v s).draws = s.draws := rfl
@[simp] theorem acceptCode_resets (v : Byte) : (acceptCode v s).resets = s.resets := rfl
@[simp] theorem acceptCode_lastRead (v : Byte) : (acceptCode v s).lastRead = s.lastRead := rfl

@[simp] theorem copyByte_cfg (v : Byte) : (copyByte v s).cfg = s.cfg := rfl
@[simp] theorem copyByte_opReg (v : Byte) : (copyByte v s).opReg = s.opReg := rfl
@[simp] theorem copyByte_inLen (v : Byte) : (copyByte v s).inLen = s.inLen := rfl
@[simp] theorem copyByte_status (v : Byte) : (copyByte v s).status = s.status := rfl
@[simp] theorem copyByte_outLen (v : Byte) : (copyByte v s).outLen = s.outLen := rfl
@[simp] theorem copyByte_errOffset (v : Byte) : (copyByte v s).errOffset = s.errOffset := rfl
@[simp] theorem copyByte_cap (v : Byte) : (copyByte v s).cap = s.cap := rfl
@[simp] theorem copyByte_opLatch (v : Byte) : (copyByte v s).opLatch = s.opLatch := rfl
@[simp] theorem copyByte_nLatch (v : Byte) : (copyByte v s).nLatch = s.nLatch := rfl
@[simp] theorem copyByte_work (v : Byte) : (copyByte v s).work =
    { s.work with dst := s.work.dst + 1, src := s.work.src + 1, k := s.work.k - 1 } := rfl
@[simp] theorem copyByte_inBuf (v : Byte) : (copyByte v s).inBuf = s.inBuf := rfl
@[simp] theorem copyByte_outBuf (v : Byte) : (copyByte v s).outBuf = Memory.write s.outBuf s.work.dst v := rfl
@[simp] theorem copyByte_overwritten (v : Byte) : (copyByte v s).overwritten = s.overwritten := rfl
@[simp] theorem copyByte_agenda (v : Byte) : (copyByte v s).agenda = s.agenda := rfl
@[simp] theorem copyByte_draws (v : Byte) : (copyByte v s).draws = s.draws := rfl
@[simp] theorem copyByte_resets (v : Byte) : (copyByte v s).resets = s.resets := rfl
@[simp] theorem copyByte_lastRead (v : Byte) : (copyByte v s).lastRead = s.lastRead := rfl

@[simp] theorem appendCode_cfg : (appendCode s).cfg = s.cfg := rfl
@[simp] theorem appendCode_opReg : (appendCode s).opReg = s.opReg := rfl
@[simp] theorem appendCode_inLen : (appendCode s).inLen = s.inLen := rfl
@[simp] theorem appendCode_status : (appendCode s).status = s.status := rfl
@[simp] theorem appendCode_outLen : (appendCode s).outLen = s.outLen := rfl
@[simp] theorem appendCode_errOffset : (appendCode s).errOffset = s.errOffset := rfl
@[simp] theorem appendCode_cap : (appendCode s).cap = s.cap := rfl
@[simp] theorem appendCode_opLatch : (appendCode s).opLatch = s.opLatch := rfl
@[simp] theorem appendCode_nLatch : (appendCode s).nLatch = s.nLatch := rfl
@[simp] theorem appendCode_work : (appendCode s).work = { s.work with dst := s.work.dst + 1, short := false } := rfl
@[simp] theorem appendCode_inBuf : (appendCode s).inBuf = s.inBuf := rfl
@[simp] theorem appendCode_outBuf : (appendCode s).outBuf = Memory.write s.outBuf s.work.dst s.work.c := rfl
@[simp] theorem appendCode_overwritten : (appendCode s).overwritten = s.overwritten := rfl
@[simp] theorem appendCode_agenda : (appendCode s).agenda = s.agenda := rfl
@[simp] theorem appendCode_draws : (appendCode s).draws = s.draws := rfl
@[simp] theorem appendCode_resets : (appendCode s).resets = s.resets := rfl
@[simp] theorem appendCode_lastRead : (appendCode s).lastRead = s.lastRead := rfl

@[simp] theorem setFsm_cfg (f : Fsm) : (setFsm f s).cfg = s.cfg := rfl
@[simp] theorem setFsm_opReg (f : Fsm) : (setFsm f s).opReg = s.opReg := rfl
@[simp] theorem setFsm_inLen (f : Fsm) : (setFsm f s).inLen = s.inLen := rfl
@[simp] theorem setFsm_status (f : Fsm) : (setFsm f s).status = s.status := rfl
@[simp] theorem setFsm_outLen (f : Fsm) : (setFsm f s).outLen = s.outLen := rfl
@[simp] theorem setFsm_errOffset (f : Fsm) : (setFsm f s).errOffset = s.errOffset := rfl
@[simp] theorem setFsm_cap (f : Fsm) : (setFsm f s).cap = s.cap := rfl
@[simp] theorem setFsm_opLatch (f : Fsm) : (setFsm f s).opLatch = s.opLatch := rfl
@[simp] theorem setFsm_nLatch (f : Fsm) : (setFsm f s).nLatch = s.nLatch := rfl
@[simp] theorem setFsm_work (f : Fsm) : (setFsm f s).work = { s.work with fsm := f } := rfl
@[simp] theorem setFsm_inBuf (f : Fsm) : (setFsm f s).inBuf = s.inBuf := rfl
@[simp] theorem setFsm_outBuf (f : Fsm) : (setFsm f s).outBuf = s.outBuf := rfl
@[simp] theorem setFsm_overwritten (f : Fsm) : (setFsm f s).overwritten = s.overwritten := rfl
@[simp] theorem setFsm_agenda (f : Fsm) : (setFsm f s).agenda = s.agenda := rfl
@[simp] theorem setFsm_draws (f : Fsm) : (setFsm f s).draws = s.draws := rfl
@[simp] theorem setFsm_resets (f : Fsm) : (setFsm f s).resets = s.resets := rfl
@[simp] theorem setFsm_lastRead (f : Fsm) : (setFsm f s).lastRead = s.lastRead := rfl

@[simp] theorem complete_cfg (n : Nat) : (complete n s).cfg = s.cfg := rfl
@[simp] theorem complete_opReg (n : Nat) : (complete n s).opReg = s.opReg := rfl
@[simp] theorem complete_inLen (n : Nat) : (complete n s).inLen = s.inLen := rfl
@[simp] theorem complete_status (n : Nat) : (complete n s).status = ⟨.done, .none⟩ := rfl
@[simp] theorem complete_outLen (n : Nat) : (complete n s).outLen = n := rfl
@[simp] theorem complete_errOffset (n : Nat) : (complete n s).errOffset = s.errOffset := rfl
@[simp] theorem complete_cap (n : Nat) : (complete n s).cap = s.cap := rfl
@[simp] theorem complete_opLatch (n : Nat) : (complete n s).opLatch = s.opLatch := rfl
@[simp] theorem complete_nLatch (n : Nat) : (complete n s).nLatch = s.nLatch := rfl
@[simp] theorem complete_work (n : Nat) : (complete n s).work = s.work := rfl
@[simp] theorem complete_inBuf (n : Nat) : (complete n s).inBuf = s.inBuf := rfl
@[simp] theorem complete_outBuf (n : Nat) : (complete n s).outBuf = s.outBuf := rfl
@[simp] theorem complete_overwritten (n : Nat) : (complete n s).overwritten = s.overwritten := rfl
@[simp] theorem complete_agenda (n : Nat) : (complete n s).agenda = s.agenda := rfl
@[simp] theorem complete_draws (n : Nat) : (complete n s).draws = s.draws := rfl
@[simp] theorem complete_resets (n : Nat) : (complete n s).resets = s.resets := rfl
@[simp] theorem complete_lastRead (n : Nat) : (complete n s).lastRead = s.lastRead := rfl

@[simp] theorem failAt_cfg (e : Err) (i : Nat) : (failAt e i s).cfg = s.cfg := rfl
@[simp] theorem failAt_opReg (e : Err) (i : Nat) : (failAt e i s).opReg = s.opReg := rfl
@[simp] theorem failAt_inLen (e : Err) (i : Nat) : (failAt e i s).inLen = s.inLen := rfl
@[simp] theorem failAt_status (e : Err) (i : Nat) : (failAt e i s).status = ⟨.done, e⟩ := rfl
@[simp] theorem failAt_outLen (e : Err) (i : Nat) : (failAt e i s).outLen = 0 := rfl
@[simp] theorem failAt_errOffset (e : Err) (i : Nat) : (failAt e i s).errOffset = i := rfl
@[simp] theorem failAt_cap (e : Err) (i : Nat) : (failAt e i s).cap = s.cap := rfl
@[simp] theorem failAt_opLatch (e : Err) (i : Nat) : (failAt e i s).opLatch = s.opLatch := rfl
@[simp] theorem failAt_nLatch (e : Err) (i : Nat) : (failAt e i s).nLatch = s.nLatch := rfl
@[simp] theorem failAt_work (e : Err) (i : Nat) : (failAt e i s).work = { s.work with fsm := .failed } := rfl
@[simp] theorem failAt_inBuf (e : Err) (i : Nat) : (failAt e i s).inBuf = s.inBuf := rfl
@[simp] theorem failAt_outBuf (e : Err) (i : Nat) : (failAt e i s).outBuf = [] := rfl
@[simp] theorem failAt_overwritten (e : Err) (i : Nat) : (failAt e i s).overwritten = s.overwritten := rfl
@[simp] theorem failAt_agenda (e : Err) (i : Nat) : (failAt e i s).agenda = s.agenda := rfl
@[simp] theorem failAt_draws (e : Err) (i : Nat) : (failAt e i s).draws = s.draws := rfl
@[simp] theorem failAt_resets (e : Err) (i : Nat) : (failAt e i s).resets = s.resets := rfl
@[simp] theorem failAt_lastRead (e : Err) (i : Nat) : (failAt e i s).lastRead = s.lastRead := rfl

@[simp] theorem initEnc_cfg : (initEnc s).cfg = s.cfg := rfl
@[simp] theorem initEnc_opReg : (initEnc s).opReg = s.opReg := rfl
@[simp] theorem initEnc_inLen : (initEnc s).inLen = s.inLen := rfl
@[simp] theorem initEnc_status : (initEnc s).status = s.status := rfl
@[simp] theorem initEnc_outLen : (initEnc s).outLen = s.outLen := rfl
@[simp] theorem initEnc_errOffset : (initEnc s).errOffset = s.errOffset := rfl
@[simp] theorem initEnc_cap : (initEnc s).cap = s.cap := rfl
@[simp] theorem initEnc_opLatch : (initEnc s).opLatch = s.opLatch := rfl
@[simp] theorem initEnc_nLatch : (initEnc s).nLatch = s.nLatch := rfl
@[simp] theorem initEnc_work : (initEnc s).work =
    { s.work with src := 0, codeIdx := 0, dst := 1, searchLen := 1#8 } := rfl
@[simp] theorem initEnc_inBuf : (initEnc s).inBuf = s.inBuf := rfl
@[simp] theorem initEnc_outBuf : (initEnc s).outBuf = s.outBuf := rfl
@[simp] theorem initEnc_overwritten : (initEnc s).overwritten = s.overwritten := rfl
@[simp] theorem initEnc_agenda : (initEnc s).agenda = s.agenda := rfl
@[simp] theorem initEnc_draws : (initEnc s).draws = s.draws := rfl
@[simp] theorem initEnc_resets : (initEnc s).resets = s.resets := rfl
@[simp] theorem initEnc_lastRead : (initEnc s).lastRead = s.lastRead := rfl

@[simp] theorem initDec_cfg : (initDec s).cfg = s.cfg := rfl
@[simp] theorem initDec_opReg : (initDec s).opReg = s.opReg := rfl
@[simp] theorem initDec_inLen : (initDec s).inLen = s.inLen := rfl
@[simp] theorem initDec_status : (initDec s).status = s.status := rfl
@[simp] theorem initDec_outLen : (initDec s).outLen = s.outLen := rfl
@[simp] theorem initDec_errOffset : (initDec s).errOffset = s.errOffset := rfl
@[simp] theorem initDec_cap : (initDec s).cap = s.cap := rfl
@[simp] theorem initDec_opLatch : (initDec s).opLatch = s.opLatch := rfl
@[simp] theorem initDec_nLatch : (initDec s).nLatch = s.nLatch := rfl
@[simp] theorem initDec_work : (initDec s).work = { s.work with src := 0, dst := 0, fsm := .readCode } := rfl
@[simp] theorem initDec_inBuf : (initDec s).inBuf = s.inBuf := rfl
@[simp] theorem initDec_outBuf : (initDec s).outBuf = s.outBuf := rfl
@[simp] theorem initDec_overwritten : (initDec s).overwritten = s.overwritten := rfl
@[simp] theorem initDec_agenda : (initDec s).agenda = s.agenda := rfl
@[simp] theorem initDec_draws : (initDec s).draws = s.draws := rfl
@[simp] theorem initDec_resets : (initDec s).resets = s.resets := rfl
@[simp] theorem initDec_lastRead : (initDec s).lastRead = s.lastRead := rfl

end Sys2Proof.Machine
end

