-- ==== Sys2Proof/Laws/Flow.lean ====
section
/-! SUPPORT. Loads, sequencing and the input loop: one lemma per shape, cited instead of unfolding. -/

namespace Sys2Proof.Machine

@[simp] theorem Flow.andThen_go (s : State) (f : State → Flow) : (Flow.go s).andThen f = f s := rfl
@[simp] theorem Flow.andThen_ended (s : State) (f : State → Flow) : (Flow.ended s).andThen f = .ended s := rfl
@[simp] theorem Flow.andThen_broke (e : Fault) (f : State → Flow) : (Flow.broke e).andThen f = .broke e := rfl
@[simp] theorem Flow.outcome_go (s : State) : (Flow.go s).outcome = .next s := rfl
@[simp] theorem Flow.outcome_ended (s : State) : (Flow.ended s).outcome = .next s := rfl
@[simp] theorem Flow.outcome_broke (e : Fault) : (Flow.broke e).outcome = .fault e := rfl

/-- Sequencing is associative. -/
theorem Flow.andThen_assoc (r : Flow) (f g : State → Flow) :
    (r.andThen f).andThen g = r.andThen fun s => (f s).andThen g := by
  cases r <;> rfl

/-- A load changes nothing but the number of draws. -/
theorem loadIn_state {i : Nat} {s t : State} {b : Byte} (h : loadIn i s = .byte b t) :
    t = { s with draws := t.draws } := by
  unfold loadIn loadedAs at h
  split at h
  all_goals split at h
  all_goals first | cases h; rfl | cases h

/-- A load that gives no byte names the index it was made at. -/
theorem loadIn_missing_index {i j : Nat} {s : State} (h : loadIn i s = .missing j) : j = i := by
  unfold loadIn loadedAs at h
  split at h
  all_goals split at h
  all_goals first | cases h; rfl | cases h

/-- A load of a byte that holds a value and was not overwritten gives that byte and changes nothing. -/
theorem loadIn_held {i : Nat} {s : State} {b : Byte} (hb : Memory.read s.inBuf i = some b)
    (he : earlierBytes s i = []) : loadIn i s = .byte b s := by
  rw [loadIn, he, hb]; rfl

/-- A load of a byte that nothing has written gives no byte. -/
theorem loadIn_unwritten {i : Nat} {s : State} (hb : Memory.read s.inBuf i = none)
    (he : earlierBytes s i = []) : loadIn i s = .missing i := by
  rw [loadIn, he, hb]; rfl

theorem withInput_held {i : Nat} {s : State} {b : Byte} (f : Byte → State → Flow)
    (hb : Memory.read s.inBuf i = some b) (he : earlierBytes s i = []) : withInput i s f = f b s := by
  rw [withInput, loadIn_held hb he]

theorem withInput_unwritten {i : Nat} {s : State} (f : Byte → State → Flow)
    (hb : Memory.read s.inBuf i = none) (he : earlierBytes s i = []) :
    withInput i s f = .broke (.unwrittenInput i) := by
  rw [withInput, loadIn_unwritten hb he]

/-- All that a load can do: the continuation runs on some byte with the number of draws changed at most, or the model
stops at this index. -/
theorem withInput_cases (i : Nat) (s : State) (f : Byte → State → Flow) :
    (∃ b d, withInput i s f = f b { s with draws := d }) ∨ withInput i s f = .broke (.unwrittenInput i) := by
  unfold withInput
  split
  · next b t h => exact .inl ⟨b, t.draws, by rw [← loadIn_state h]⟩
  · next j h => exact .inr (by rw [loadIn_missing_index h])

@[simp] theorem whileInput_zero (body : State → Flow) (s : State) : whileInput body 0 s = .go s := rfl

theorem whileInput_done {body : State → Flow} {fuel : Nat} {s : State} (h : s.nLatch ≤ s.work.src) :
    whileInput body fuel s = .go s := by
  cases fuel with
  | zero => rfl
  | succ fuel => rw [whileInput, if_neg (by omega)]

theorem whileInput_more {body : State → Flow} {fuel : Nat} {s : State} (h : s.work.src < s.nLatch) :
    whileInput body (fuel + 1) s = (body s).andThen (whileInput body fuel) := by
  rw [whileInput, if_pos h]

/-- What every piece of pseudocode keeps: `P` of the states it passes through and `Q` of the states it ends in. -/
def Flow.All (P Q : State → Prop) : Flow → Prop
  | .go s => P s
  | .ended s => Q s
  | .broke _ => True

theorem Flow.All.andThen {P P' Q : State → Prop} {r : Flow} {f : State → Flow} (hr : r.All P Q)
    (hf : ∀ s, P s → (f s).All P' Q) : (r.andThen f).All P' Q := by
  cases r with
  | go s => exact hf s hr
  | ended s => exact hr
  | broke e => trivial

theorem Flow.All.weaken {P Q Q' : State → Prop} {r : Flow} (hr : r.All P Q) (hQ : ∀ s, Q s → Q' s) : r.All P Q' := by
  cases r with
  | go s => exact hr
  | ended s => exact hQ s hr
  | broke e => trivial

/-- What the outcome of a piece says of the next state. -/
theorem Flow.All.next {P Q : State → Prop} {r : Flow} {t : State} (hr : r.All P Q)
    (h : r.outcome = .next t) : P t ∨ Q t := by
  cases r with
  | go s => cases h; exact .inl hr
  | ended s => cases h; exact .inr hr
  | broke e => cases h

/-- The loop's rule: what every pass keeps, the loop keeps. -/
theorem whileInput_all {P Q : State → Prop} {body : State → Flow}
    (hbody : ∀ s, P s → s.work.src < s.nLatch → (body s).All P Q) :
    ∀ fuel s, P s → (whileInput body fuel s).All P Q := by
  intro fuel
  induction fuel with
  | zero => intro s hs; exact hs
  | succ fuel ih =>
    intro s hs
    unfold whileInput
    split
    · next h => exact (hbody s hs h).andThen ih
    · exact hs

/-- The loop's rule when the passes also advance `src`: the loop leaves with the input exhausted. -/
theorem whileInput_exhausts {P Q : State → Prop} {body : State → Flow} {n : Nat}
    (hbody : ∀ s, P s → s.nLatch = n → s.work.src < n →
      (body s).All (fun t => P t ∧ t.nLatch = n ∧ s.work.src < t.work.src) Q) :
    ∀ fuel s, P s → s.nLatch = n → n ≤ fuel + s.work.src →
      (whileInput body fuel s).All (fun t => P t ∧ t.nLatch = n ∧ n ≤ t.work.src) Q := by
  intro fuel
  induction fuel with
  | zero => intro s hs hn hf; exact ⟨hs, hn, by omega⟩
  | succ fuel ih =>
    intro s hs hn hf
    unfold whileInput
    split
    · next h =>
      exact (hbody s hs hn (hn ▸ h)).andThen fun t ⟨ht, htn, hts⟩ => ih t ht htn (by omega)
    · exact ⟨hs, hn, by omega⟩

theorem withInput_all {P Q : State → Prop} {i : Nat} {s : State} {f : Byte → State → Flow}
    (hf : ∀ b d, (f b { s with draws := d }).All P Q) : (withInput i s f).All P Q := by
  rcases withInput_cases i s f with ⟨b, d, h⟩ | h
  · rw [h]; exact hf b d
  · rw [h]; trivial

end Sys2Proof.Machine
end

