-- ==== Sys2Proof/Laws/Memory.lean ====
section
/-! SUPPORT. The laws of a byte memory: read after write, the canonical form, and where the listed cells stand. -/

namespace Sys2Proof.Machine

@[simp] theorem Memory.read_nil (a : Nat) : Memory.read [] a = none := rfl

@[simp] theorem Memory.wf_nil : Memory.wf [] := List.Pairwise.nil

/-- A read at the address just written gives the byte written. -/
@[simp] theorem Memory.read_write_same (m : Memory) (a : Nat) (v : Byte) :
    Memory.read (Memory.write m a v) a = some v := by
  induction m with
  | nil => simp [Memory.write, Memory.read]
  | cons x m ih =>
    obtain ⟨x, b⟩ := x
    unfold Memory.write
    split
    · simp [Memory.read]
    · split
      · simp [Memory.read]
      · next h1 h2 => simp [Memory.read, Ne.symm h2, ih]

/-- A write leaves every other address alone. -/
theorem Memory.read_write_other (m : Memory) {a a' : Nat} (v : Byte) (h : a' ≠ a) :
    Memory.read (Memory.write m a v) a' = Memory.read m a' := by
  induction m with
  | nil => simp [Memory.write, Memory.read, Ne.symm h]
  | cons x m ih =>
    obtain ⟨x, b⟩ := x
    unfold Memory.write
    split
    · simp [Memory.read, Ne.symm h]
    · split
      · next h1 h2 => subst h2; simp [Memory.read, Ne.symm h]
      · simp only [Memory.read, ih]

/-- A read after a write, in one equation. -/
theorem Memory.read_write (m : Memory) (a a' : Nat) (v : Byte) :
    Memory.read (Memory.write m a v) a' = if a' = a then some v else Memory.read m a' := by
  split
  · next h => subst h; exact Memory.read_write_same m _ v
  · next h => exact Memory.read_write_other m v h

/-- The cells of a written memory are the cell written and cells of the old memory. -/
theorem Memory.mem_write {m : Memory} {a : Nat} {v : Byte} {x : Host.Cell} (h : x ∈ Memory.write m a v) :
    x = (a, v) ∨ x ∈ m := by
  induction m with
  | nil => simpa [Memory.write] using h
  | cons y m ih =>
    obtain ⟨y, b⟩ := y
    unfold Memory.write at h
    split at h
    · simpa using h
    · split at h
      · rcases List.mem_cons.1 h with h | h
        · exact .inl h
        · exact .inr (List.mem_cons_of_mem _ h)
      · rcases List.mem_cons.1 h with h | h
        · exact .inr (h ▸ List.mem_cons_self)
        · exact (ih h).imp id (List.mem_cons_of_mem _)

/-- A write keeps the canonical form. -/
theorem Memory.write_wf {m : Memory} (a : Nat) (v : Byte) (h : Memory.wf m) : Memory.wf (Memory.write m a v) := by
  induction m with
  | nil => exact List.pairwise_singleton _ _
  | cons x m ih =>
    obtain ⟨x, b⟩ := x
    obtain ⟨hx, hm⟩ := List.pairwise_cons.1 h
    unfold Memory.write
    split
    · next hlt =>
      refine List.pairwise_cons.2 ⟨fun y hy => ?_, h⟩
      rcases List.mem_cons.1 hy with rfl | hy
      · exact hlt
      · exact Nat.lt_trans hlt (hx y hy)
    · next hge =>
      split
      · next heq => subst heq; exact List.pairwise_cons.2 ⟨hx, hm⟩
      · next hne =>
        refine List.pairwise_cons.2 ⟨fun y hy => ?_, ih hm⟩
        rcases Memory.mem_write hy with rfl | hy
        · exact Nat.lt_of_le_of_ne (Nat.le_of_not_lt hge) (Ne.symm hne)
        · exact hx y hy

/-- A write keeps every listed address below a bound that the address written meets. -/
theorem Memory.write_bound {m : Memory} {a d : Nat} (v : Byte) (hm : ∀ x ∈ m, x.1 < d) (ha : a < d) :
    ∀ x ∈ Memory.write m a v, x.1 < d := fun x hx => by
  rcases Memory.mem_write hx with rfl | hx
  · exact ha
  · exact hm x hx

/-- A written memory holds a value wherever the old one did, and at the address written. -/
theorem Memory.write_ne_none {m : Memory} {a j : Nat} (v : Byte) (h : j = a ∨ Memory.read m j ≠ none) :
    Memory.read (Memory.write m a v) j ≠ none := by
  rw [Memory.read_write]
  split
  · simp
  · next hne => exact h.resolve_left hne

/-- A memory whose listed addresses are below a bound holds no value at or above it. -/
theorem Memory.read_none_of_bound {m : Memory} {d a : Nat} (hm : ∀ x ∈ m, x.1 < d) (ha : d ≤ a) :
    Memory.read m a = none := by
  induction m with
  | nil => rfl
  | cons x m ih =>
    obtain ⟨x, b⟩ := x
    have hx : x < d := hm (x, b) List.mem_cons_self
    rw [Memory.read, if_neg (by omega)]
    exact ih fun y hy => hm y (List.mem_cons_of_mem _ hy)

end Sys2Proof.Machine
end

