-- ==== Sys2Proof/Laws/Encoder.lean ====
section
/-! SUPPORT. What the encode scan does, over byte sequences: `C` is the part of the output already closed,
    `P` the payload
of the pending span. -/

namespace Sys2Proof.Machine

/-- The output buffer and the working registers of an encoder hold the closed output `C`, then the pending code slot,
then the pending payload `P`. -/
structure ScanRep (s : State) (C P : List Byte) : Prop where
  slot : s.work.codeIdx = C.length
  dst : s.work.dst = C.length + 1 + P.length
  count : s.work.searchLen = BitVec.ofNat 8 (P.length + 1)
  closed : ∀ j < C.length, Memory.read s.outBuf j = C[j]?
  pending : ∀ j < P.length, Memory.read s.outBuf (C.length + 1 + j) = P[j]?

/-- One pass of `ENC_SCAN` (R81) over sequences; `more` says whether a full span is closed by force (R82). -/
def scanStep (more : Bool) (b : Byte) (C P : List Byte) : List Byte × List Byte :=
  if b = 0#8 then (C ++ BitVec.ofNat 8 (P.length + 1) :: P, [])
  else if P.length + 1 = 254 ∧ more = true then (C ++ Config.codeFull :: (P ++ [b]), [])
  else (C, P ++ [b])

/-- `ENC_SCAN` over sequences. -/
def scanList (force : Bool) : List Byte → List Byte → List Byte → List Byte × List Byte
  | [], C, P => (C, P)
  | b :: bs, C, P =>
    scanList force bs (scanStep (!bs.isEmpty || force) b C P).1 (scanStep (!bs.isEmpty || force) b C P).2

/-- The scan starts with nothing closed and nothing pending. -/
theorem initEnc_rep (s : State) : ScanRep (initEnc s) [] [] :=
  ⟨rfl, rfl, rfl, fun _ h => absurd h (by simp), fun _ h => absurd h (by simp)⟩

theorem ScanRep.emit {s : State} {C P : List Byte} (h : ScanRep s C P) (b : Byte) :
    ScanRep (countPayload (emit b s)) C (P ++ [b]) where
  slot := h.slot
  dst := by simp [h.dst]; omega
  count := by simp [h.count, BitVec.ofNat_add]
  closed j hj := by
    simp only [countPayload_outBuf, emit_outBuf]
    rw [Memory.read_write_other _ _ (by rw [h.dst]; omega), h.closed j hj]
  pending j hj := by
    simp only [countPayload_outBuf, emit_outBuf]
    rw [Memory.read_write, h.dst]
    by_cases hjp : j < P.length
    · rw [if_neg (by omega), h.pending j hjp, List.getElem?_append_left hjp]
    · have : j = P.length := by simp at hj; omega
      subst this
      simp

/-- Closing the pending span with a code appends the code and the payload to the closed output. -/
theorem ScanRep.close {s : State} {C P : List Byte} (h : ScanRep s C P) (code : Byte) :
    ScanRep (closeSpan code s) (C ++ code :: P) [] where
  slot := by simp [h.dst]; omega
  dst := by simp [h.dst]; omega
  count := rfl
  closed j hj := by
    simp only [closeSpan_outBuf]
    rw [Memory.read_write, h.slot]
    simp only [List.length_append, List.length_cons] at hj
    by_cases h1 : j < C.length
    · rw [if_neg (by omega), h.closed j h1, List.getElem?_append_left h1]
    · rw [List.getElem?_append_right (by omega)]
      by_cases h2 : j = C.length
      · subst h2; simp
      · rw [if_neg h2]
        obtain ⟨i, rfl⟩ : ∃ i, j = C.length + 1 + i := ⟨j - (C.length + 1), by omega⟩
        rw [h.pending i (by omega), show C.length + 1 + i - C.length = i + 1 by omega, List.getElem?_cons_succ]
  pending j hj := absurd hj (by simp)

/-- What stays outside the scan: everything but the cursors, the output and the draws. -/
theorem scanByte_frame (b : Byte) (s : State) :
    scanByte b s = { s with
      work := (scanByte b s).work, outBuf := (scanByte b s).outBuf } ∧
    (scanByte b s).work = { s.work with
      dst := (scanByte b s).work.dst, codeIdx := (scanByte b s).work.codeIdx,
      searchLen := (scanByte b s).work.searchLen } := by
  unfold scanByte
  split
  · exact ⟨rfl, rfl⟩
  · simp only
    split <;> exact ⟨rfl, rfl⟩

@[simp] theorem scanByte_src (b : Byte) (s : State) : (scanByte b s).work.src = s.work.src := by
  rw [(scanByte_frame b s).2]

/-- A byte read by the scan, over sequences. -/
theorem ScanRep.scanByte {s : State} {C P : List Byte} (h : ScanRep s C P) (b : Byte) (hP : P.length ≤ 253) :
    ScanRep (Machine.scanByte b s)
      (scanStep (decide (s.work.src < s.nLatch) || s.cfg.forceAtEnd) b C P).1
      (scanStep (decide (s.work.src < s.nLatch) || s.cfg.forceAtEnd) b C P).2 := by
  unfold Machine.scanByte scanStep
  split
  · simpa [h.count] using h.close (BitVec.ofNat 8 (P.length + 1))
  · have hcount : (countPayload (Machine.emit b s)).work.searchLen = BitVec.ofNat 8 (P.length + 2) := by
      simp [h.count, BitVec.ofNat_add]; rw [BitVec.add_assoc]; rfl
    have hfull : forceDue (countPayload (Machine.emit b s)) = true ↔
        P.length + 1 = 254 ∧ (decide (s.work.src < s.nLatch) || s.cfg.forceAtEnd) = true := by
      unfold forceDue
      rw [hcount, Bool.and_eq_true, decide_eq_true_iff]
      refine and_congr ?_ Iff.rfl
      rw [Config.codeFull, ← BitVec.toNat_inj, BitVec.toNat_ofNat, BitVec.toNat_ofNat]
      omega
    simp only [hfull]
    split
    · exact (h.emit b).close Config.codeFull
    · exact h.emit b

/-- The pending payload stays short while input remains. -/
theorem scanStep_length {C P : List Byte} {b : Byte} (hP : P.length ≤ 253) :
    (scanStep true b C P).2.length ≤ 253 := by
  unfold scanStep
  split
  · simp
  · split
    · simp
    · next h => simp at h ⊢; omega

/-- The rest of the input as the running operation sees it: from `src` on, the bytes of `bs`, none overwritten. -/
structure RestIs (s : State) (bs : List Byte) : Prop where
  count : s.nLatch = s.work.src + bs.length
  bytes : ∀ i < bs.length, Memory.read s.inBuf (s.work.src + i) = bs[i]? ∧ earlierBytes s (s.work.src + i) = []

theorem holdsInput.restIs {s t : State} {xs : List Byte} (h : holdsInput s xs) (ht0 : t.work.src = 0)
    (ht : t.nLatch = s.nLatch) (hi : t.inBuf = s.inBuf) (ho : t.overwritten = s.overwritten) : RestIs t xs where
  count := by rw [ht0, ht, h.1]; omega
  bytes i hx := by
    rw [ht0, hi, Nat.zero_add]
    exact ⟨(h.2 i hx).1, by rw [earlierBytes, ho]; exact (h.2 i hx).2⟩

/-- Once the first byte is consumed, the rest holds the others. -/
theorem RestIs.tail {s t : State} {b : Byte} {bs : List Byte} (h : RestIs s (b :: bs))
    (hs : t.work.src = s.work.src + 1) (ht : t.nLatch = s.nLatch) (hi : t.inBuf = s.inBuf)
    (ho : t.overwritten = s.overwritten) : RestIs t bs where
  count := by have := h.count; simp only [List.length_cons] at this; omega
  bytes i hx := by
    have := h.bytes (i + 1) (by simpa using hx)
    rw [hs, hi, show s.work.src + 1 + i = s.work.src + (i + 1) by omega]
    exact ⟨by simpa using this.1, by rw [earlierBytes, ho]; exact this.2⟩

/-- A load at `src` gives the first byte of the rest. -/
theorem RestIs.load {s : State} {b : Byte} {bs : List Byte} (h : RestIs s (b :: bs)) (f : Byte → State → Flow) :
    withInput s.work.src s f = f b s := by
  have := h.bytes 0 (by simp)
  exact withInput_held f (by simpa using this.1) (by simpa using this.2)

/-- The loop of `ENC_SCAN` over the rest of the input, from any point of the scan. -/
theorem encScan_loop {fuel : Nat} : ∀ {s : State} {bs C P : List Byte}, RestIs s bs → ScanRep s C P →
    (bs ≠ [] → P.length ≤ 253) → bs.length ≤ fuel →
    ∃ t, whileInput encPass fuel s = .go t ∧
      ScanRep t (scanList s.cfg.forceAtEnd bs C P).1 (scanList s.cfg.forceAtEnd bs C P).2 ∧
      t.work.src = s.nLatch ∧ t = { s with work := t.work, outBuf := t.outBuf } ∧
      t.work = { s.work with
        src := t.work.src, dst := t.work.dst, codeIdx := t.work.codeIdx, searchLen := t.work.searchLen } := by
  induction fuel with
  | zero =>
    intro s bs C P hr hs _ hf
    have : bs = [] := List.eq_nil_of_length_eq_zero (by omega)
    subst this
    exact ⟨s, rfl, hs, by have := hr.count; simpa using this.symm, rfl, rfl⟩
  | succ fuel ih =>
    intro s bs C P hr hs hP hf
    cases bs with
    | nil =>
      have : s.nLatch = s.work.src := by simpa using hr.count
      exact ⟨s, whileInput_done (by omega), hs, this.symm, rfl, rfl⟩
    | cons b bs =>
      have hlen : s.nLatch = s.work.src + (bs.length + 1) := by simpa using hr.count
      have hP' := hP (by simp)
      rw [whileInput_more (by omega), encPass, hr.load, Flow.andThen_go]
      have ha : ScanRep (advance s) C P := ⟨hs.slot, hs.dst, hs.count, hs.closed, hs.pending⟩
      have hstep := ha.scanByte b hP'
      have hmore : (decide ((advance s).work.src < (advance s).nLatch) || (advance s).cfg.forceAtEnd)
          = (!bs.isEmpty || s.cfg.forceAtEnd) := by
        cases bs <;> simp [hlen]
      rw [hmore] at hstep
      obtain ⟨hf1, hf2⟩ := scanByte_frame b (advance s)
      have hfr : ∀ {α} (g : State → α), (∀ w o (r : State), g { r with work := w, outBuf := o } = g r) →
          g (Machine.scanByte b (advance s)) = g s := fun g hg => by
        rw [hf1, hg]; exact hg _ _ s
      obtain ⟨t, h1, h2, h3, h4, h5⟩ := ih
        (hr.tail (by simp) (hfr State.nLatch fun _ _ _ => rfl) (hfr State.inBuf fun _ _ _ => rfl)
          (hfr State.overwritten fun _ _ _ => rfl)) hstep
        (by
          intro hne
          have : (!bs.isEmpty || s.cfg.forceAtEnd) = true := by
            cases bs with
            | nil => exact absurd rfl hne
            | cons => rfl
          rw [this]; exact scanStep_length hP')
        (by simpa using hf)
      refine ⟨t, h1, ?_, ?_, ?_, ?_⟩
      · rw [hfr (fun r => r.cfg.forceAtEnd) fun _ _ _ => rfl] at h2; exact h2
      · rw [h3]; exact hfr State.nLatch fun _ _ _ => rfl
      · rw [h4, hf1]; rfl
      · rw [h5, hf2]; rfl

/-- `ENC_SCAN` on an input the HOST has written: it leaves the pending span unclosed, with the closed output and the
pending payload that the scan over sequences gives. -/
theorem encScan_spec {s : State} {xs : List Byte} (h : holdsInput s xs) :
    ∃ t, encScan s = .go t ∧
      ScanRep t (scanList s.cfg.forceAtEnd xs [] []).1 (scanList s.cfg.forceAtEnd xs [] []).2 ∧
      t.work.src = s.nLatch ∧ t = { s with work := t.work, outBuf := t.outBuf } ∧
      t.work = { s.work with
        src := t.work.src, dst := t.work.dst, codeIdx := t.work.codeIdx, searchLen := t.work.searchLen } := by
  obtain ⟨t, h1, h2, h3, h4, h5⟩ := encScan_loop (fuel := s.nLatch) (s := initEnc s)
    (h.restIs rfl rfl rfl rfl) (initEnc_rep s) (by simp) (by rw [h.1])
  exact ⟨t, h1, h2, h3, h4, h5⟩

/-- The final close of `COBS.ENC` (R80) gives the closed output, the code of the pending span and its payload. -/
theorem cobsFinalClose_spec {s : State} {C P : List Byte} (h : ScanRep s C P) :
    succeedsWith (cobsFinalClose s) (C ++ BitVec.ofNat 8 (P.length + 1) :: P) := by
  have hc := h.close (BitVec.ofNat 8 (P.length + 1))
  refine ⟨rfl, by simp [cobsFinalClose, h.dst]; omega, fun j hj => ?_⟩
  rw [← hc.closed j hj]
  simp [cobsFinalClose, h.count]

end Sys2Proof.Machine
end

