-- ==== Sys2Proof/Laws/Decoder.lean ====
section
/-! SUPPORT. What the two decoders do, over byte sequences. -/

namespace Sys2Proof.Machine

/-- The output buffer of a decoder holds the data `D` so far. -/
structure DecRep (s : State) (D : List Byte) : Prop where
  dst : s.work.dst = D.length
  data : ∀ j < D.length, Memory.read s.outBuf j = D[j]?

theorem initDec_rep (s : State) : DecRep (initDec s) [] := ⟨rfl, fun _ h => absurd h (by simp)⟩

/-- A store at `dst` appends to the data. -/
theorem DecRep.append {s t : State} {D : List Byte} {v : Byte} (h : DecRep s D)
    (hd : t.work.dst = s.work.dst + 1) (ho : t.outBuf = Memory.write s.outBuf s.work.dst v) : DecRep t (D ++ [v]) where
  dst := by rw [hd, h.dst]; simp
  data j hj := by
    rw [ho, Memory.read_write, h.dst]
    by_cases h1 : j = D.length
    · subst h1; simp
    · have h2 : j < D.length := by simp at hj; omega
      rw [if_neg h1, h.data j h2, List.getElem?_append_left h2]

/-- What a running decoder changes: its working registers and the output. -/
def decFrame (s t : State) : Prop := t = { s with work := t.work, outBuf := t.outBuf }

theorem decFrame.refl (s : State) : decFrame s s := rfl

theorem decFrame.trans {s t u : State} (h : decFrame s t) (h' : decFrame t u) : decFrame s u := by
  unfold decFrame at *; rw [h', h]

theorem decFrame.proj {α} {s t : State} (h : decFrame s t) (g : State → α)
    (hg : ∀ w o (r : State), g { r with work := w, outBuf := o } = g r) : g t = g s := by
  rw [h, hg]

theorem decFrame.nLatch {s t : State} (h : decFrame s t) : t.nLatch = s.nLatch := h.proj State.nLatch fun _ _ _ => rfl

/-- A running decoder that ends has changed nothing outside its operation. -/
theorem decFrame.outside {s t u : State} (h : decFrame s t) (h' : sameOutsideOperation t u) :
    sameOutsideOperation s u := by
  unfold sameOutsideOperation decFrame at *; rw [h', h]

theorem failAt_outside (e : Err) (i : Nat) (s : State) : sameOutsideOperation s (failAt e i s) := rfl

/-- Away from a success the HOST reads no result byte (10_state.md R24). -/
theorem outputUnspecified_of_status {s : State} (h : s.status ≠ ⟨.done, .none⟩) : outputUnspecified s := fun j hj =>
  ⟨returnedFree s, by simp [hostMove, hj, fetchOut, isResult, h], rfl⟩

/-- The record of a failure (60_exceptions.md R146). -/
theorem failAt_failsWith {e : Err} (he : e ≠ .none) (i : Nat) (s : State) : failsWith (failAt e i s) e i :=
  ⟨rfl, rfl, rfl, outputUnspecified_of_status (by simp [he])⟩

/-- The copy loop over payload without a zero. -/
theorem copyBytes_data (ps : List Byte) : ∀ {s : State} {D rest : List Byte}, RestIs s (ps ++ rest) → DecRep s D →
    0#8 ∉ ps → ∃ t, copyBytes ps.length s = .go t ∧ DecRep t (D ++ ps) ∧ RestIs t rest ∧ decFrame s t ∧
      t.work = { s.work with
        src := s.work.src + ps.length, dst := t.work.dst, k := s.work.k - ps.length } := by
  induction ps with
  | nil =>
    intro s D rest hr hd _
    exact ⟨s, rfl, by simpa using hd, hr, rfl, rfl⟩
  | cons b ps ih =>
    intro s D rest hr hd h0
    have hb : b ≠ 0#8 := fun h => h0 (h ▸ List.mem_cons_self)
    have h0' : 0#8 ∉ ps := fun h => h0 (List.mem_cons_of_mem _ h)
    have hd' : DecRep (copyByte b s) (D ++ [b]) := hd.append rfl rfl
    obtain ⟨t, h1, h2, h3, h4, h5⟩ := ih (hr.tail (t := copyByte b s) rfl rfl rfl rfl) hd' h0'
    refine ⟨t, ?_, by simpa using h2, h3, (show decFrame s (copyByte b s) from rfl).trans h4, ?_⟩
    · rw [List.length_cons, copyBytes, hr.load, if_neg hb, h1]
    · rw [h5]
      simp only [copyByte_work, List.length_cons, Work.mk.injEq, and_self, and_true, true_and]
      omega

/-- The copy loop over payload with a zero: it fails at the first one. -/
theorem copyBytes_zero (good : List Byte) : ∀ {m : Nat} {s : State} {D rest : List Byte},
    RestIs s (good ++ 0#8 :: rest) → DecRep s D → 0#8 ∉ good → good.length < m →
    ∃ t, copyBytes m s = .ended (failAt .zeroByte (s.work.src + good.length) t) ∧ decFrame s t := by
  induction good with
  | nil =>
    intro m s D rest hr _ _ hm
    obtain ⟨m, rfl⟩ : ∃ n, m = n + 1 := ⟨m - 1, by simp at hm; omega⟩
    exact ⟨s, by rw [copyBytes, hr.load, if_pos rfl]; rfl, rfl⟩
  | cons b good ih =>
    intro m s D rest hr hd h0 hm
    obtain ⟨m, rfl⟩ : ∃ n, m = n + 1 := ⟨m - 1, by simp at hm; omega⟩
    have hb : b ≠ 0#8 := fun h => h0 (h ▸ List.mem_cons_self)
    have h0' : 0#8 ∉ good := fun h => h0 (List.mem_cons_of_mem _ h)
    obtain ⟨t, h1, h2⟩ := ih (m := m) (hr.tail (t := copyByte b s) rfl rfl rfl rfl)
      (hd.append (t := copyByte b s) rfl rfl) h0' (by simpa using hm)
    refine ⟨t, ?_, (show decFrame s (copyByte b s) from rfl).trans h2⟩
    rw [copyBytes, hr.load, if_neg hb, h1]
    simp only [copyByte_work, List.length_cons]
    congr 2; omega

/-- One span of either decoder. -/
def spanOf : Decoder → State → Flow
  | .cobs => cobsSpan
  | .cobsr => cobsrSpan

/-- The pass after a length code was accepted (R90, R110): copy, append the code when short, separate. -/
def spanRest (u : State) : Flow :=
  (copyBytes u.work.k u).andThen fun v => .go (endSpan (if v.work.short then appendCode v else v))

theorem copyBytes_short : ∀ (m : Nat) (s : State),
    (copyBytes m s).All (fun t => t.work.short = s.work.short) fun _ => True := by
  intro m
  induction m with
  | zero => intro s; rfl
  | succ m ih =>
    intro s
    refine withInput_all fun b d => ?_
    split
    · trivial
    · exact ih _

/-- A span once its length code is read: check 1, check 2 of `COBS.DEC`, and the rest. -/
theorem spanOf_eq (d : Decoder) (s : State) :
    spanOf d s = withInput s.work.src s fun code t =>
      if code = 0#8 then .ended (failAt .zeroByte t.work.src t)
      else if d = .cobs ∧ (acceptCode code t).work.short = true then
        .ended (failAt .shortInput t.work.src (acceptCode code t))
      else spanRest (acceptCode code t) := by
  cases d with
  | cobs =>
    rw [spanOf]
    unfold cobsSpan
    congr 1; funext code t
    split
    · rfl
    · simp only [true_and]
      split
      · simp
      · next h =>
        unfold spanRest
        have hk := copyBytes_short (acceptCode code t).work.k (acceptCode code t)
        revert hk
        cases copyBytes (acceptCode code t).work.k (acceptCode code t) with
        | go v => intro hk; simp only [Flow.andThen_go]; rw [if_neg (by rw [hk]; exact h)]
        | ended v => intro _; rfl
        | broke e => intro _; rfl
  | cobsr => rfl

/-- What one span makes of its payload and of what follows (R65, R67). -/
def spanTail (c : Byte) (rest : List Byte) : List Byte :=
  (if rest.length < c.toNat - 1 then [c] else []) ++
    if rest.drop (c.toNat - 1) ≠ [] ∧ c ≠ Config.codeFull then [0#8] else []

theorem byte_pos {c : Byte} (h : c ≠ 0#8) : 1 ≤ c.toNat := by
  have : c.toNat ≠ 0 := fun h0 => h (BitVec.eq_of_toNat_eq h0)
  omega

/-- The pass after an accepted length code, over payload without a zero. -/
theorem spanRest_data {s : State} {D rest : List Byte} {c : Byte} (hr : RestIs s (c :: rest))
    (hd : DecRep s D) (h0 : 0#8 ∉ rest.take (c.toNat - 1)) :
    ∃ t, spanRest (acceptCode c s) = .go t ∧
      DecRep t (D ++ (rest.take (c.toNat - 1) ++ spanTail c rest)) ∧ RestIs t (rest.drop (c.toNat - 1)) ∧
      decFrame s t ∧ t.work.fsm = .readCode ∧ t.work.src = s.work.src + 1 + (rest.take (c.toNat - 1)).length := by
  have hn : s.nLatch - (s.work.src + 1) = rest.length := by have := hr.count; simp at this; omega
  have hr1 : RestIs (acceptCode c s) (rest.take (c.toNat - 1) ++ rest.drop (c.toNat - 1)) := by
    rw [List.take_append_drop]; exact hr.tail rfl rfl rfl rfl
  have hd1 : DecRep (acceptCode c s) D := ⟨hd.dst, hd.data⟩
  have hk : (acceptCode c s).work.k = (rest.take (c.toNat - 1)).length := by
    simp [payloadLen, hn, List.length_take]
  obtain ⟨t, h1, h2, h3, h4, h5⟩ := copyBytes_data _ hr1 hd1 h0
  have hshort : t.work.short = decide (rest.length < c.toNat - 1) := by
    rw [h5]; simp [payloadLen, hn]
  have htc : t.work.c = c := by rw [h5]; rfl
  have hts : t.work.src = s.work.src + 1 + (rest.take (c.toNat - 1)).length := by rw [h5]; rfl
  have hf : decFrame s t := (show decFrame s (acceptCode c s) from rfl).trans h4
  have ht : ∃ u, (if t.work.short then appendCode t else t) = u ∧
      DecRep u (D ++ (rest.take (c.toNat - 1) ++ if rest.length < c.toNat - 1 then [c] else [])) ∧
      RestIs u (rest.drop (c.toNat - 1)) ∧ decFrame s u ∧ u.work.c = c ∧ u.work.src = t.work.src := by
    refine ⟨_, rfl, ?_⟩
    rw [hshort]
    by_cases hsh : rest.length < c.toNat - 1
    · rw [if_pos (by simpa using hsh), if_pos hsh]
      refine ⟨?_, ⟨h3.count, h3.bytes⟩, hf.trans rfl, htc, rfl⟩
      rw [← List.append_assoc]
      exact h2.append rfl (by simp [htc])
    · rw [if_neg (by simpa using hsh), if_neg hsh]
      exact ⟨by simpa using h2, h3, hf, htc, rfl⟩
  obtain ⟨u, hu, hud, hur, huf, huc, hus⟩ := ht
  refine ⟨endSpan u, ?_, ?_, ?_, ?_, rfl, ?_⟩
  · rw [spanRest, hk, h1, Flow.andThen_go, hu]
  · have hsep : separatorDue u = decide (rest.drop (c.toNat - 1) ≠ [] ∧ c ≠ Config.codeFull) := by
      have := hur.count
      unfold separatorDue
      rw [huc]
      cases hdr : rest.drop (c.toNat - 1) with
      | nil => rw [hdr] at this; simp at this; simp; intro h; omega
      | cons x l => rw [hdr] at this; simp at this; simp; intro _; omega
    unfold endSpan spanTail
    rw [hsep]
    by_cases hs : rest.drop (c.toNat - 1) ≠ [] ∧ c ≠ Config.codeFull
    · rw [if_pos (by simpa using hs), if_pos hs]
      have : DecRep (emit 0#8 u) _ := hud.append (v := 0#8) rfl rfl
      exact ⟨by simpa using this.dst, by simpa using this.data⟩
    · rw [if_neg (by simpa using hs), if_neg hs]
      exact ⟨by simpa using hud.dst, by simpa using hud.data⟩
  · unfold endSpan
    split <;> exact ⟨hur.count, hur.bytes⟩
  · unfold endSpan
    split <;> exact huf.trans rfl
  · rw [← hts, ← hus]; unfold endSpan; split <;> rfl

/-- A list with a zero, cut at the first one. -/
theorem findIdx?_zero {l : List Byte} {j : Nat} (h : l.findIdx? (fun b => b == 0#8) = some j) :
    l = l.take j ++ 0#8 :: l.drop (j + 1) ∧ 0#8 ∉ l.take j ∧ (l.take j).length = j ∧ j < l.length := by
  obtain ⟨hj, hz, hmin⟩ := List.findIdx?_eq_some_iff_getElem.1 h
  have hz' : l[j] = 0#8 := by simpa using hz
  refine ⟨?_, ?_, by simp; omega, hj⟩
  · conv_lhs => rw [← List.take_append_drop j l, ← List.cons_getElem_drop_succ (h := hj), hz']
  · intro hm
    obtain ⟨i, hi, he⟩ := List.getElem_of_mem hm
    have hij : i < j := by simp at hi; omega
    have := hmin i hij
    rw [List.getElem_take] at he
    simp [he] at this

/-- What `endSpan` and the loop leave: a decoder's whole input loop, from any span start, gives what `decodeSpans`
makes of the rest of the input. -/
theorem decLoop_spec (d : Decoder) : ∀ (fuel : Nat) {s : State} {xs D : List Byte}, RestIs s xs → DecRep s D →
    xs.length ≤ fuel →
    match decodeSpans d fuel s.work.src xs with
    | .ok ys => ∃ t, whileInput (spanOf d) fuel s = .go t ∧ DecRep t (D ++ ys) ∧ t.work.src = s.nLatch ∧ decFrame s t
    | .error e => ∃ t, whileInput (spanOf d) fuel s = .ended t ∧ failsWith t e.1 e.2 ∧ sameOutsideOperation s t := by
  intro fuel
  induction fuel with
  | zero =>
    intro s xs D hr hd hf
    obtain rfl : xs = [] := List.eq_nil_of_length_eq_zero (by omega)
    exact ⟨s, rfl, by simpa using hd, by have := hr.count; simpa using this.symm, rfl⟩
  | succ fuel ih =>
    intro s xs D hr hd hf
    cases xs with
    | nil =>
      have hn : s.nLatch = s.work.src := by simpa using hr.count
      exact ⟨s, whileInput_done (by omega), by simpa using hd, hn.symm, rfl⟩
    | cons c rest =>
      have hlen : s.nLatch = s.work.src + (rest.length + 1) := by simpa using hr.count
      have hloop : whileInput (spanOf d) (fuel + 1) s = (spanOf d s).andThen (whileInput (spanOf d) fuel) :=
        whileInput_more (by omega)
      rw [hloop, spanOf_eq, hr.load, decodeSpans]
      by_cases hc : c = 0#8
      · rw [if_pos hc, if_pos hc]
        exact ⟨_, rfl, failAt_failsWith (by decide) _ _, rfl⟩
      rw [if_neg hc, if_neg hc]
      have hsh : (acceptCode c s).work.short = decide (rest.length < c.toNat - 1) := by
        simp [payloadLen, hlen, show s.work.src + (rest.length + 1) - (s.work.src + 1) = rest.length by omega]
      by_cases h2 : d = .cobs ∧ rest.length < c.toNat - 1
      · rw [if_pos h2, if_pos ⟨h2.1, by rw [hsh]; simpa using h2.2⟩]
        exact ⟨_, rfl, failAt_failsWith (by decide) _ _, rfl⟩
      have hcond : ¬ (d = .cobs ∧ (acceptCode c s).work.short = true) := fun h =>
        h2 ⟨h.1, of_decide_eq_true (hsh ▸ h.2)⟩
      rw [if_neg h2, if_neg hcond]
      have hc1 := byte_pos hc
      cases hz : (rest.take (c.toNat - 1)).findIdx? (fun b => b == 0#8) with
      | some j =>
        obtain ⟨hsplit, hno, hjl, hj⟩ := findIdx?_zero hz
        have hr1 : RestIs (acceptCode c s)
            ((rest.take (c.toNat - 1)).take j ++
              0#8 :: ((rest.take (c.toNat - 1)).drop (j + 1) ++ rest.drop (c.toNat - 1))) := by
          have : (rest.take (c.toNat - 1)).take j ++
              0#8 :: ((rest.take (c.toNat - 1)).drop (j + 1) ++ rest.drop (c.toNat - 1)) = rest := by
            rw [← List.cons_append, ← List.append_assoc, ← hsplit, List.take_append_drop]
          rw [this]; exact hr.tail rfl rfl rfl rfl
        have hk : (acceptCode c s).work.k = (rest.take (c.toNat - 1)).length := by
          simp [payloadLen, hlen, show s.work.src + (rest.length + 1) - (s.work.src + 1) = rest.length by omega]
        obtain ⟨t, h3, h4⟩ := copyBytes_zero _ (m := (acceptCode c s).work.k) hr1
          (show DecRep (acceptCode c s) D from ⟨hd.dst, hd.data⟩) hno (by rw [hk, hjl]; exact hj)
        rw [spanRest, h3, hjl]
        exact ⟨_, rfl, failAt_failsWith (by decide) _ _,
          ((show decFrame s (acceptCode c s) from rfl).trans h4).outside (failAt_outside _ _ _)⟩
      | none =>
        have hno : 0#8 ∉ rest.take (c.toNat - 1) := by
          intro hm
          have := List.findIdx?_eq_none_iff.1 hz _ hm
          simp at this
        obtain ⟨t, h3, h4, h5, h6, _, h8⟩ := spanRest_data hr hd hno
        rw [h3, Flow.andThen_go]
        have hih := ih h5 h4 (by simp at hf ⊢; omega)
        have hsrc : decodeSpans d fuel t.work.src (rest.drop (c.toNat - 1)) =
            decodeSpans d fuel (s.work.src + c.toNat) (rest.drop (c.toNat - 1)) := by
          by_cases hle : c.toNat - 1 ≤ rest.length
          · rw [h8, List.length_take, Nat.min_eq_left hle]
            congr 1; omega
          · rw [List.drop_eq_nil_of_le (by omega)]; cases fuel <;> rfl
        rw [hsrc] at hih
        simp only
        cases hdec : decodeSpans d fuel (s.work.src + c.toNat) (rest.drop (c.toNat - 1)) with
        | error e =>
          rw [hdec] at hih
          obtain ⟨u, hu1, hu2, hu3⟩ := hih
          exact ⟨u, hu1, hu2, h6.outside hu3⟩
        | ok ys =>
          rw [hdec] at hih
          obtain ⟨u, hu1, hu2, hu3, hu4⟩ := hih
          refine ⟨u, hu1, ?_, by rw [hu3, h6.nLatch], h6.trans hu4⟩
          simpa [spanTail, List.append_assoc] using hu2

end Sys2Proof.Machine
end

