-- ==== Sys2Proof/Laws/Invariant.lean ====
section
/-! SUPPORT. What each piece of an operation keeps of the machine's invariant. -/

namespace Sys2Proof.Machine

/-- `t` is a state inside the operation that runs in `s`: only the working registers, the output buffer and the number
of draws have changed, and every stored byte lies below `CAP`. -/
structure Midway (s t : State) : Prop where
  frame : t = { s with work := t.work, outBuf := t.outBuf, draws := t.draws }
  wf : Memory.wf t.outBuf
  below : ∀ x ∈ t.outBuf, x.1 < s.cap

theorem Midway.refl {s : State} (h : Inv s) : Midway s s := ⟨rfl, h.out_wf, h.out_cap⟩

theorem Midway.proj {s t : State} (m : Midway s t) {α} (g : State → α)
    (hg : ∀ w o d (r : State), g { r with work := w, outBuf := o, draws := d } = g r) : g t = g s := by
  rw [m.frame]; exact hg _ _ _ _

theorem Midway.cap {s t : State} (m : Midway s t) : t.cap = s.cap := m.proj State.cap fun _ _ _ _ => rfl
theorem Midway.nLatch {s t : State} (m : Midway s t) : t.nLatch = s.nLatch := m.proj State.nLatch fun _ _ _ _ => rfl
theorem Midway.opLatch {s t : State} (m : Midway s t) : t.opLatch = s.opLatch :=
  m.proj State.opLatch fun _ _ _ _ => rfl

theorem Midway.draws {s t : State} (m : Midway s t) (d : Nat) : Midway s { t with draws := d } :=
  ⟨by rw [m.frame], m.wf, m.below⟩

theorem Midway.setWork {s t : State} (m : Midway s t) (w : Work) : Midway s (setWork w t) :=
  ⟨by rw [m.frame]; rfl, m.wf, m.below⟩

theorem Midway.storeOut {s t : State} (m : Midway s t) {j : Nat} (v : Byte) (hj : j < s.cap) :
    Midway s (storeOut j v t) :=
  ⟨by rw [m.frame]; rfl, Memory.write_wf _ _ m.wf, Memory.write_bound _ m.below hj⟩

/-- A running state reached from a running state of the invariant meets it when its working registers do. -/
theorem Inv.midway {s t : State} (h : Inv s) (hb : s.status.phase = .busy) (m : Midway s t)
    (hr : runningInv t) : Inv t := by
  have h0 := (h.not_done (by simp [hb])).2
  have e1 := m.proj State.cfg fun _ _ _ _ => rfl
  have e2 := m.proj State.inBuf fun _ _ _ _ => rfl
  have e4 := m.proj State.inLen fun _ _ _ _ => rfl
  have e6 := m.proj State.outLen fun _ _ _ _ => rfl
  have e7 := m.proj State.errOffset fun _ _ _ _ => rfl
  have e8 := m.proj State.status fun _ _ _ _ => rfl
  constructor
  case out_wf => exact m.wf
  case out_cap => rw [m.cap]; exact m.below
  case running => exact fun _ => hr
  case results => rw [e6, h0]; intro j hj; omega
  all_goals simp only [e1, e2, m.cap, e4, m.nLatch, e6, e7, e8, m.opLatch]
  exacts [h.lenW_pos, h.in_wf, h.in_depth, h.cap_depth, h.inLen_le, h.nLatch_le, h.outLen_le, h.errOffset_le,
    h.not_done, h.cap_latched, h.no_error, h.error, h.short_input]

/-- A completion from a state inside a running operation, with every result byte written, meets the invariant. -/
theorem Inv.completed {s t u : State} (h : Inv s) (hb : s.status.phase = .busy) (m : Midway s t) (hl : u.outLen ≤ s.cap)
    (hu : u = { t with status := ⟨.done, .none⟩, outLen := u.outLen, work := u.work })
    (hres : ∀ j < u.outLen, Memory.read t.outBuf j ≠ none) : Inv u := by
  have e : ∀ {α} (g : State → α), (∀ a b w (r : State),
      g { r with status := a, outLen := b, work := w } = g r) → g u = g t :=
    fun g hg => by rw [hu]; exact hg _ _ _ _
  have e1 := (e State.cfg fun _ _ _ _ => rfl).trans (m.proj State.cfg fun _ _ _ _ => rfl)
  have e2 := (e State.inBuf fun _ _ _ _ => rfl).trans (m.proj State.inBuf fun _ _ _ _ => rfl)
  have e3 := (e State.cap fun _ _ _ _ => rfl).trans m.cap
  have e4 := (e State.inLen fun _ _ _ _ => rfl).trans (m.proj State.inLen fun _ _ _ _ => rfl)
  have e5 := (e State.nLatch fun _ _ _ _ => rfl).trans m.nLatch
  have e6 := e State.outBuf fun _ _ _ _ => rfl
  have e7 := (e State.errOffset fun _ _ _ _ => rfl).trans (m.proj State.errOffset fun _ _ _ _ => rfl)
  have e8 : u.status = ⟨.done, .none⟩ := by rw [hu]
  have e9 := (e State.opLatch fun _ _ _ _ => rfl).trans m.opLatch
  constructor
  case out_wf => rw [e6]; exact m.wf
  case out_cap => rw [e3, e6]; exact m.below
  case running => rw [e8]; intro h; cases h
  case results => rw [e6]; exact hres
  all_goals simp only [e1, e2, e3, e4, e5, e7, e8, e9]
  exacts [h.lenW_pos, h.in_wf, h.in_depth, h.cap_depth, h.inLen_le, h.nLatch_le, hl, h.errOffset_le, by simp,
    fun _ => h.cap_latched (by simp [hb]), fun _ => h.no_error (h.not_done (by simp [hb])).1, by simp, by simp]

/-- A failure of a running decode at an index of its input meets the invariant. -/
theorem Inv.failed {s t : State} (h : Inv s) (hb : s.status.phase = .busy) (m : Midway s t) {kind : Err} {i : Nat}
    (hk : kind ≠ .none) (hi : i < s.nLatch) (hz : sizeBit s.opLatch = false) (hd : dirBit s.opLatch = true)
    (hv : kind = .shortInput → variantBit s.opLatch = false) : Inv (failAt kind i t) := by
  have e1 := m.proj State.cfg fun _ _ _ _ => rfl
  have e2 := m.proj State.inBuf fun _ _ _ _ => rfl
  have e4 := m.proj State.inLen fun _ _ _ _ => rfl
  constructor
  case running => intro h; cases h
  case results => intro j hj; exact absurd hj (Nat.not_lt_zero _)
  all_goals simp only [failAt, e1, e2, m.cap, e4, m.nLatch, m.opLatch]
  exacts [h.lenW_pos, h.in_wf, List.Pairwise.nil, h.in_depth, by simp, h.cap_depth, h.inLen_le, h.nLatch_le,
    Nat.zero_le _, Nat.le_trans (Nat.le_of_lt hi) h.nLatch_le, by simp, fun _ => h.cap_latched (by simp [hb]),
    fun h' => absurd h' hk, fun _ => ⟨trivial, hz, hd⟩, hv]

/-! The encoders. -/

theorem EncoderInv.draws {s : State} (d : Nat) (h : EncoderInv s) : EncoderInv { s with draws := d } :=
  ⟨h.1, h.2, h.3, h.4, h.5, h.6, h.7⟩

/-- The cursor `dst` of an encoder leaves room below `ENC_CAP`. -/
theorem EncoderInv.dst_le {s : State} (h : EncoderInv s) : s.work.dst ≤ encCap s.work.src := by
  have := h.forced_le; have := h.dst_gt
  simp only [encCap, Config.sizeDiv]; omega

theorem encCap_mono {m n : Nat} (h : m ≤ n) : encCap m ≤ encCap n := by
  have : m / 254 ≤ n / 254 := Nat.div_le_div_right h
  simp only [encCap, Config.sizeDiv]; omega

theorem encCap_lt {m n : Nat} (h : m < n) : encCap m < encCap n := by
  have : m / 254 ≤ n / 254 := Nat.div_le_div_right (Nat.le_of_lt h)
  simp only [encCap, Config.sizeDiv]; omega

/-- One scanned byte keeps the working registers of an encoder in their ranges and the operation within `CAP`. -/
theorem EncoderInv.scanByte {s t : State} {b : Byte} (hI : EncoderInv t) (m : Midway s t) (hlt : t.work.src < t.nLatch)
    (hcap : s.cap = encCap s.nLatch) :
    Midway s (scanByte b (advance t)) ∧ EncoderInv (scanByte b (advance t)) := by
  have hdc : t.work.dst < s.cap := by
    rw [hcap, ← m.nLatch]; exact Nat.lt_of_le_of_lt hI.dst_le (encCap_lt hlt)
  have hdf : 254 * (t.work.dst - (t.work.src + 1)) + (t.work.searchLen.toNat - 1) ≤ t.work.src := hI.forced_le
  have hcnt := hI.count_open hlt
  obtain ⟨i1, i2, i3, i4, i5, i6, i7⟩ := hI
  unfold Machine.scanByte
  split
  · refine ⟨((m.setWork _).storeOut _ (by simp; omega)).setWork _, ⟨?_, ?_, ?_, ?_, ?_, ?_, ?_⟩⟩
    all_goals simp only [closeSpan_work, advance_work, closeSpan_nLatch, advance_nLatch, closeSpan_outBuf,
      advance_outBuf]
    · omega
    · omega
    · omega
    · decide
    · intro _; decide
    · simp; omega
    · intro j hj hne
      refine Memory.write_ne_none _ ?_
      by_cases h : j = t.work.codeIdx
      · exact .inl h
      · exact .inr (i7 j (by omega) h)
  · have hs : (t.work.searchLen + 1#8).toNat = t.work.searchLen.toNat + 1 := by
      rw [BitVec.toNat_add]; simp; omega
    have m' : Midway s (countPayload (emit b (advance t))) :=
      (((m.setWork _).storeOut _ (by simpa using hdc)).setWork _).setWork _
    simp only
    split
    · next hfd =>
      simp only [forceDue, Bool.and_eq_true] at hfd
      have h255 : t.work.searchLen + 1#8 = 255#8 := of_decide_eq_true hfd.1
      have : t.work.searchLen.toNat = 254 := by
        have := congrArg BitVec.toNat h255; rw [hs] at this; simp at this; omega
      refine ⟨(m'.storeOut _ (by simp; omega)).setWork _, ⟨?_, ?_, ?_, ?_, ?_, ?_, ?_⟩⟩
      all_goals simp only [closeSpan_work, advance_work, closeSpan_nLatch, advance_nLatch, closeSpan_outBuf,
        advance_outBuf, countPayload_work, emit_work, countPayload_nLatch, emit_nLatch, countPayload_outBuf,
        emit_outBuf]
      · omega
      · omega
      · omega
      · decide
      · intro _; decide
      · simp; omega
      · intro j hj hne
        refine Memory.write_ne_none _ ?_
        by_cases h : j = t.work.codeIdx
        · exact .inl h
        · refine .inr (Memory.write_ne_none _ ?_)
          by_cases h' : j = t.work.dst
          · exact .inl h'
          · exact .inr (i7 j (by omega) h)
    · next hfd =>
      refine ⟨m', ⟨?_, ?_, ?_, ?_, ?_, ?_, ?_⟩⟩
      all_goals simp only [advance_work, advance_nLatch, advance_outBuf, countPayload_work, emit_work,
        countPayload_nLatch, emit_nLatch, countPayload_outBuf, emit_outBuf]
      · omega
      · omega
      · omega
      · omega
      · intro hl
        rw [hs]
        have h2 : (t.work.searchLen + 1#8).toNat ≠ 255 := fun h => hfd (by
          have h' : t.work.searchLen + 1#8 = 255#8 := BitVec.eq_of_toNat_eq (by simpa using h)
          simp only [forceDue, Bool.and_eq_true]
          exact ⟨decide_eq_true h', by rw [Bool.or_eq_true]; exact .inl (decide_eq_true hl)⟩)
        omega
      · rw [hs]; omega
      · intro j hj hne
        refine Memory.write_ne_none _ ?_
        by_cases h' : j = t.work.dst
        · exact .inl h'
        · exact .inr (i7 j (by omega) hne)

theorem encPass_midway {s t : State} (m : Midway s t) (hE : EncoderInv t) (hcap : s.cap = encCap s.nLatch)
    (hlt : t.work.src < t.nLatch) :
    (encPass t).All (fun u => (Midway s u ∧ EncoderInv u) ∧ u.nLatch = t.nLatch ∧ t.work.src < u.work.src)
      fun _ => False :=
  withInput_all fun b d => by
    have h := (hE.draws d).scanByte (b := b) (m.draws d) hlt hcap
    exact ⟨h, by rw [h.1.nLatch, m.nLatch], by simp⟩

theorem initEnc_encoderInv (s : State) : EncoderInv (initEnc s) := by
  refine ⟨by simp, by simp, by simp, by simp, by simp, by simp, ?_⟩
  intro j hj hne; simp at hj hne; omega

theorem encScan_midway {s : State} (h : Inv s) (hcap : s.cap = encCap s.nLatch) :
    (encScan s).All (fun u => Midway s u ∧ EncoderInv u) fun _ => False := by
  have := whileInput_all (P := fun u => Midway s u ∧ EncoderInv u) (Q := fun _ => False) (body := encPass)
    (fun t ⟨m, hE⟩ hlt => by
      have := encPass_midway m hE hcap hlt
      cases hp : encPass t <;> rw [hp] at this
      · exact this.1
      · exact this
      · trivial) s.nLatch (initEnc s) ⟨(Midway.refl h).setWork _, initEnc_encoderInv s⟩
  exact this

theorem cobsFinalClose_inv {s t : State} (h : Inv s) (hb : s.status.phase = .busy) (m : Midway s t)
    (hE : EncoderInv t) (hcap : s.cap = encCap s.nLatch) : Inv (cobsFinalClose t) := by
  have hd : t.work.dst ≤ s.cap := by
    rw [hcap, ← m.nLatch]; exact Nat.le_trans hE.dst_le (encCap_mono hE.src_le)
  refine h.completed hb (m.storeOut t.work.searchLen (Nat.lt_of_lt_of_le hE.slot_lt hd)) hd rfl fun j hj => ?_
  refine Memory.write_ne_none _ ?_
  by_cases hj' : j = t.work.codeIdx
  · exact .inl hj'
  · exact .inr (hE.written j hj hj')

theorem cobsrCloseWith_inv {s t : State} (h : Inv s) (hb : s.status.phase = .busy) (m : Midway s t)
    (hE : EncoderInv t) (hcap : s.cap = encCap s.nLatch) (last : Byte) : Inv (cobsrCloseWith last t) := by
  have hE' : EncoderInv (setWork { t.work with lastByte := last } t) :=
    ⟨hE.1, hE.2, hE.3, hE.4, hE.5, hE.6, hE.7⟩
  have m' := m.setWork { t.work with lastByte := last }
  simp only [cobsrCloseWith]
  split
  · have hd : t.work.dst ≤ s.cap := by
      rw [hcap, ← m.nLatch]; exact Nat.le_trans hE.dst_le (encCap_mono hE.src_le)
    refine h.completed hb (m'.storeOut last (j := t.work.codeIdx) (Nat.lt_of_lt_of_le hE.slot_lt hd))
      (Nat.le_trans (Nat.sub_le _ _) hd) rfl fun j hj => ?_
    refine Memory.write_ne_none _ ?_
    by_cases hj' : j = t.work.codeIdx
    · exact .inl hj'
    · exact .inr (hE.written j (Nat.lt_of_lt_of_le hj (Nat.sub_le _ _)) hj')
  · exact cobsFinalClose_inv h hb m' hE' hcap

theorem cobsrFinalClose_inv {s t : State} (h : Inv s) (hb : s.status.phase = .busy) (m : Midway s t)
    (hE : EncoderInv t) (hcap : s.cap = encCap s.nLatch) : (cobsrFinalClose t).All (fun _ => False) Inv := by
  unfold cobsrFinalClose
  split
  · exact cobsrCloseWith_inv h hb m hE hcap _
  · exact withInput_all fun b d => cobsrCloseWith_inv h hb (m.draws d) (hE.draws d) hcap _

theorem execCobsEnc_inv {s t : State} (h : Inv s) (hb : s.status.phase = .busy) (hcap : s.cap = encCap s.nLatch)
    (ht : execCobsEnc s = .next t) : Inv t :=
  (((encScan_midway h hcap).weaken fun _ => False.elim).andThen (Q := Inv) (P' := fun _ => False)
    (f := fun t => .ended (cobsFinalClose t))
    fun _ ⟨m, hE⟩ => cobsFinalClose_inv h hb m hE hcap).next ht |>.resolve_left id

theorem execCobsrEnc_inv {s t : State} (h : Inv s) (hb : s.status.phase = .busy) (hcap : s.cap = encCap s.nLatch)
    (ht : execCobsrEnc s = .next t) : Inv t :=
  (((encScan_midway h hcap).weaken fun _ => False.elim).andThen
    fun _ ⟨m, hE⟩ => cobsrFinalClose_inv h hb m hE hcap).next ht |>.resolve_left id

/-! The decoders. -/

/-- Between two spans of a decode: the cursors of `ReadCode` and every output byte below `dst` written. -/
structure BetweenSpans (s t : State) : Prop where
  mid : Midway s t
  dst_le : t.work.dst ≤ t.work.src
  src_le : t.work.src ≤ t.nLatch
  written : ∀ j < t.work.dst, Memory.read t.outBuf j ≠ none

/-- Inside a span with `m` payload bytes still to copy. -/
structure InSpan (s t : State) (m : Nat) : Prop where
  mid : Midway s t
  dst_lt : t.work.dst + 1 ≤ t.work.src
  src_le : t.work.src + m ≤ t.nLatch
  written : ∀ j < t.work.dst, Memory.read t.outBuf j ≠ none

/-- Storing at `dst` and stepping past it keeps every byte below `dst` written. -/
theorem written_storeOut {t : State} {v : Byte} (h : ∀ j < t.work.dst, Memory.read t.outBuf j ≠ none) :
    ∀ j < t.work.dst + 1, Memory.read (Memory.write t.outBuf t.work.dst v) j ≠ none := fun j hj => by
  refine Memory.write_ne_none _ ?_
  by_cases h' : j = t.work.dst
  · exact .inl h'
  · exact .inr (h j (by omega))

theorem InSpan.copyByte {s t : State} {m : Nat} (h : InSpan s t (m + 1)) (hcap : s.cap = decCap s.nLatch) (b : Byte) :
    InSpan s (copyByte b t) m := by
  have h1 := h.dst_lt
  have h2 := h.src_le
  have hd : t.work.dst < s.cap := by rw [hcap, decCap, ← h.mid.nLatch]; omega
  refine ⟨(h.mid.storeOut b hd).setWork _, ?_, ?_, written_storeOut h.written⟩
  · simp only [copyByte_work]; omega
  · simp only [copyByte_work, copyByte_nLatch]; omega

/-- What a decode needs of its state for a failure to meet the invariant. -/
structure Decoding (s : State) : Prop where
  inv : Inv s
  busy : s.status.phase = .busy
  size : sizeBit s.opLatch = false
  dir : dirBit s.opLatch = true

theorem Decoding.cap {s : State} (h : Decoding s) : s.cap = decCap s.nLatch := by
  rw [h.inv.cap_latched (by simp [h.busy]), capFor, if_pos h.dir]

theorem Decoding.zeroByte {s t : State} (h : Decoding s) (m : Midway s t) {i : Nat} (hi : i < t.nLatch) :
    Inv (failAt .zeroByte i t) :=
  h.inv.failed h.busy m (by simp) (m.nLatch ▸ hi) h.size h.dir (by simp)

theorem Decoding.copyBytes {s : State} (h : Decoding s) : ∀ (m : Nat) (t : State), InSpan s t m →
    (copyBytes m t).All
      (fun u => InSpan s u 0 ∧ u.work.src = t.work.src + m ∧ u.work.c = t.work.c ∧ u.work.short = t.work.short) Inv
  | 0, t, ht => ⟨ht, rfl, rfl, rfl⟩
  | m + 1, t, ht => withInput_all fun b d => by
    have ht' : InSpan s { t with draws := d } (m + 1) := ⟨ht.mid.draws d, ht.dst_lt, ht.src_le, ht.written⟩
    split
    · exact h.zeroByte ht'.mid (show t.work.src < t.nLatch by have := ht.src_le; omega)
    · have := h.copyBytes m _ (ht'.copyByte h.cap b)
      cases hc : Machine.copyBytes m (copyByte b { t with draws := d }) with
      | go u =>
        rw [hc] at this
        refine ⟨this.1, this.2.1.trans ?_, this.2.2.1, this.2.2.2⟩
        simp only [copyByte_work]; omega
      | ended u => rw [hc] at this; exact this
      | broke e => trivial

theorem InSpan.endSpan {s t : State} (h : InSpan s t 0) (hcap : s.cap = decCap s.nLatch) :
    BetweenSpans s (endSpan t) := by
  have h1 := h.dst_lt
  have h2 := h.src_le
  have hd : t.work.dst < s.cap := by rw [hcap, decCap, ← h.mid.nLatch]; omega
  unfold Machine.endSpan
  split
  · refine ⟨((h.mid.storeOut _ hd).setWork _).setWork _, ?_, ?_, written_storeOut h.written⟩
    · simp only [setFsm_work, emit_work]; omega
    · simp only [setFsm_work, emit_work, setFsm_nLatch, emit_nLatch]; omega
  · refine ⟨h.mid.setWork _, ?_, ?_, h.written⟩
    · simp only [setFsm_work]; omega
    · simp only [setFsm_work, setFsm_nLatch]; omega

theorem BetweenSpans.acceptCode {s t : State} (h : BetweenSpans s t) (hlt : t.work.src < t.nLatch) (code : Byte) :
    InSpan s (acceptCode code t) (acceptCode code t).work.k := by
  have h1 := h.dst_le
  refine ⟨h.mid.setWork _, ?_, ?_, h.written⟩
  · simp only [acceptCode_work]; omega
  · simp only [acceptCode_work, acceptCode_nLatch]; omega

theorem Decoding.cobsSpan {s t : State} (h : Decoding s) (hv : variantBit s.opLatch = false)
    (ht : BetweenSpans s t) (hlt : t.work.src < t.nLatch) : (cobsSpan t).All (BetweenSpans s) Inv :=
  withInput_all fun b d => by
    have ht' : BetweenSpans s { t with draws := d } := ⟨ht.mid.draws d, ht.dst_le, ht.src_le, ht.written⟩
    have hlt' : { t with draws := d }.work.src < { t with draws := d }.nLatch := hlt
    split
    · exact h.zeroByte ht'.mid hlt'
    · have hu := ht'.acceptCode hlt' b
      simp only
      split
      · refine h.inv.failed h.busy hu.mid (by simp) ?_ h.size h.dir fun _ => hv
        simp only [acceptCode_work]; rw [← ht.mid.nLatch]; simpa using hlt
      · exact (h.copyBytes _ _ hu).andThen fun v hv => hv.1.endSpan h.cap

theorem Decoding.cobsrSpan {s t : State} (h : Decoding s)
    (ht : BetweenSpans s t) (hlt : t.work.src < t.nLatch) : (cobsrSpan t).All (BetweenSpans s) Inv :=
  withInput_all fun b d => by
    have ht' : BetweenSpans s { t with draws := d } := ⟨ht.mid.draws d, ht.dst_le, ht.src_le, ht.written⟩
    have hlt' : { t with draws := d }.work.src < { t with draws := d }.nLatch := hlt
    split
    · exact h.zeroByte ht'.mid hlt'
    · have hu := ht'.acceptCode hlt' b
      refine (h.copyBytes _ _ hu).andThen fun v ⟨hv, hsrc, hc, hs⟩ => ?_
      split
      · next hsh =>
        have h1 := hv.dst_lt
        have h2 := hv.src_le
        have hd : v.work.dst < s.cap := by rw [h.cap, decCap, ← hv.mid.nLatch]; omega
        have hall : v.work.src = v.nLatch := by
          rw [hs] at hsh
          have hsh' : t.nLatch - (t.work.src + 1) < payloadLen b := of_decide_eq_true hsh
          rw [hsrc, hv.mid.nLatch, ← ht.mid.nLatch]
          simp only [acceptCode_work]; omega
        have hn : separatorDue (appendCode v) = false := by
          simp only [separatorDue, Bool.and_eq_false_iff]
          exact .inl (decide_eq_false (by simp only [appendCode_work, appendCode_nLatch]; omega))
        simp only [Machine.endSpan, hn]
        refine ⟨((hv.mid.storeOut _ hd).setWork _).setWork _, ?_, ?_, written_storeOut hv.written⟩
        · simp only [Bool.false_eq_true, if_false, setFsm_work, appendCode_work]; omega
        · simp only [Bool.false_eq_true, if_false, setFsm_work, appendCode_work, setFsm_nLatch, appendCode_nLatch]
          omega
      · exact hv.endSpan h.cap

theorem BetweenSpans.complete {s t : State} (h : BetweenSpans s t) (hs : Decoding s) : Inv (decComplete t) :=
  hs.inv.completed hs.busy h.mid
    (show t.work.dst ≤ s.cap by
      rw [hs.cap, decCap, ← h.mid.nLatch]; exact Nat.le_trans h.dst_le h.src_le) rfl h.written

theorem Decoding.start {s : State} (h : Decoding s) : BetweenSpans s (initDec s) :=
  ⟨(Midway.refl h.inv).setWork _, by simp, by simp, fun j hj => by simp at hj⟩

theorem execCobsDec_inv {s t : State} (h : Decoding s) (hv : variantBit s.opLatch = false)
    (ht : execCobsDec s = .next t) : Inv t :=
  ((whileInput_all (fun _ hu hlt => h.cobsSpan hv hu hlt) s.nLatch _ h.start).andThen (P' := fun _ => False)
    (f := fun t => .ended (decComplete t)) fun _ hu => hu.complete h).next ht |>.resolve_left id

theorem execCobsrDec_inv {s t : State} (h : Decoding s) (ht : execCobsrDec s = .next t) : Inv t :=
  ((whileInput_all (fun _ hu hlt => h.cobsrSpan hu hlt) s.nLatch _ h.start).andThen (P' := fun _ => False)
    (f := fun t => .ended (decComplete t)) fun _ hu => hu.complete h).next ht |>.resolve_left id

end Sys2Proof.Machine
end

