-- ==== Sys2Proof/Laws/PerInstr.lean ====
section
/-! SUPPORT. Statements about every instruction as syntax, one lemma per constructor. -/

namespace Sys2Proof.Laws.encodeInFormat

/-- The encoder sets no bit that the format of the instruction leaves out (30_encoding.md section 1, R73), and the
word lies in the table row of the instruction. -/
def Statement (i : Instr) : Prop :=
  encode i &&& formatMask (formatOf i) = encode i ∧
    ∃ r ∈ opcodeRows, r.name = mnemonic i ∧ r.format = formatOf i ∧ encode i &&& r.mask = r.pattern

theorem cobsEnc : Statement .cobsEnc := ⟨by decide, opcodeRows[0], by decide, rfl, rfl, by decide⟩
theorem cobsDec : Statement .cobsDec := ⟨by decide, opcodeRows[1], by decide, rfl, rfl, by decide⟩
theorem cobsrEnc : Statement .cobsrEnc := ⟨by decide, opcodeRows[2], by decide, rfl, rfl, by decide⟩
theorem cobsrDec : Statement .cobsrDec := ⟨by decide, opcodeRows[3], by decide, rfl, rfl, by decide⟩
theorem cobsEnccap : Statement .cobsEnccap := ⟨by decide, opcodeRows[4], by decide, rfl, rfl, by decide⟩
theorem cobsDeccap : Statement .cobsDeccap := ⟨by decide, opcodeRows[5], by decide, rfl, rfl, by decide⟩
theorem cobsrEnccap : Statement .cobsrEnccap := ⟨by decide, opcodeRows[6], by decide, rfl, rfl, by decide⟩
theorem cobsrDeccap : Statement .cobsrDeccap := ⟨by decide, opcodeRows[7], by decide, rfl, rfl, by decide⟩
theorem start : Statement .start := ⟨by decide, opcodeRows[8], by decide, rfl, rfl, by decide⟩
theorem lcZeroCobsDec : Statement .lcZeroCobsDec := ⟨by decide, opcodeRows[9], by decide, rfl, rfl, by decide⟩
theorem lcFullCobsDec : Statement .lcFullCobsDec := ⟨by decide, opcodeRows[10], by decide, rfl, rfl, by decide⟩
theorem lcSpanCobsDec (c : Byte) : Statement (.lcSpanCobsDec c) :=
  ⟨BitVec.and_allOnes, opcodeRows[11], by decide, rfl, rfl, BitVec.and_zero⟩
theorem lcZeroCobsrDec : Statement .lcZeroCobsrDec := ⟨by decide, opcodeRows[12], by decide, rfl, rfl, by decide⟩
theorem lcFullCobsrDec : Statement .lcFullCobsrDec := ⟨by decide, opcodeRows[13], by decide, rfl, rfl, by decide⟩
theorem lcSpanCobsrDec (c : Byte) : Statement (.lcSpanCobsrDec c) :=
  ⟨BitVec.and_allOnes, opcodeRows[14], by decide, rfl, rfl, BitVec.and_zero⟩
theorem pbZero : Statement .pbZero := ⟨by decide, opcodeRows[15], by decide, rfl, rfl, by decide⟩
theorem pbData (b : Byte) : Statement (.pbData b) :=
  ⟨BitVec.and_allOnes, opcodeRows[16], by decide, rfl, rfl, BitVec.and_zero⟩

end Sys2Proof.Laws.encodeInFormat
end

