-- ==== Sys2Proof/Laws/Sequences.lean ====
section
/-! SUPPORT. The scan over sequences and the closed forms of 40_cobs_encode.md R83. -/

namespace Sys2Proof

open Machine

/-- Put a pending payload before the first run. -/
def beforeFirstRun (P : List Byte) : List (List Byte) → List (List Byte)
  | [] => [P]
  | r :: rs => (P ++ r) :: rs

theorem splitZeros_ne_nil (xs : List Byte) : splitZeros xs ≠ [] := by
  cases xs with
  | nil => simp [splitZeros]
  | cons b bs =>
    unfold splitZeros
    split
    · simp
    · split <;> simp

@[simp] theorem splitZeros_zero (bs : List Byte) : splitZeros (0#8 :: bs) = [] :: splitZeros bs := by
  simp [splitZeros]

theorem splitZeros_data {b : Byte} (hb : b ≠ 0#8) (bs : List Byte) :
    splitZeros (b :: bs) = beforeFirstRun [b] (splitZeros bs) := by
  cases h : splitZeros bs with
  | nil => exact absurd h (splitZeros_ne_nil bs)
  | cons r rs => simp [splitZeros, hb, h, beforeFirstRun]

theorem beforeFirstRun_nil (xs : List Byte) : beforeFirstRun [] (splitZeros xs) = splitZeros xs := by
  cases h : splitZeros xs with
  | nil => exact absurd h (splitZeros_ne_nil xs)
  | cons r rs => rfl

theorem beforeFirstRun_append (P Q : List Byte) (rs : List (List Byte)) :
    beforeFirstRun P (beforeFirstRun Q rs) = beforeFirstRun (P ++ Q) rs := by
  cases rs <;> simp [beforeFirstRun]

/-- A run shorter than a full span is one span. -/
theorem closedRun_short {P : List Byte} (h : P.length ≤ 253) : closedRun P = BitVec.ofNat 8 (P.length + 1) :: P := by
  rw [closedRun, Nat.div_eq_of_lt (by omega), Nat.mod_eq_of_lt (by omega)]
  simp [fullBlocks]

/-- The last run of at most 254 bytes is one span. -/
theorem finalRun_short {P : List Byte} (h : P.length ≤ 254) : finalRun P = BitVec.ofNat 8 (P.length + 1) :: P := by
  unfold finalRun
  split
  · next hf =>
    have : P.length = 254 := by omega
    simp [this, fullBlocks, Config.codeFull, List.take_of_length_le (Nat.le_of_eq this)]
  · next hf => exact closedRun_short (by omega)

/-- A full span at the head of a run that is closed is written as `FF` and its bytes. -/
theorem closedRun_block {B : List Byte} (hB : B.length = 254) (r : List Byte) :
    closedRun (B ++ r) = Config.codeFull :: B ++ closedRun r := by
  have hd : (B ++ r).length / 254 = r.length / 254 + 1 := by rw [List.length_append, hB]; omega
  have hm : (B ++ r).length % 254 = r.length % 254 := by rw [List.length_append, hB]; omega
  have hdrop : (B ++ r).drop (254 * (r.length / 254 + 1)) = r.drop (254 * (r.length / 254)) := by
    rw [show 254 * (r.length / 254 + 1) = B.length + 254 * (r.length / 254) by omega, List.drop_append]
    simp
  have htake : (B ++ r).take 254 = B := by rw [← hB, List.take_left]
  have hrest : (B ++ r).drop 254 = r := by rw [← hB, List.drop_left]
  rw [closedRun, closedRun, hd, hm, fullBlocks, hdrop, htake, hrest]
  simp

/-- The same for the final run, when more of it follows. -/
theorem finalRun_block {B r : List Byte} (hB : B.length = 254) (hr : r ≠ []) :
    finalRun (B ++ r) = Config.codeFull :: B ++ finalRun r := by
  have hd : (B ++ r).length / 254 = r.length / 254 + 1 := by rw [List.length_append, hB]; omega
  have hm : (B ++ r).length % 254 = r.length % 254 := by rw [List.length_append, hB]; omega
  have hl : r.length ≠ 0 := fun h => hr (List.eq_nil_of_length_eq_zero h)
  unfold finalRun
  rw [hm]
  by_cases h : r.length % 254 = 0
  · rw [if_pos ⟨by simp [hl], h⟩, if_pos ⟨hl, h⟩, hd, fullBlocks, ← hB, List.take_left, List.drop_left]
  · rw [if_neg (fun h' => h h'.2), if_neg (fun h' => h h'.2), closedRun_block hB]

theorem encodeRuns_cons (r : List Byte) {rs : List (List Byte)} (h : rs ≠ []) :
    encodeRuns (r :: rs) = closedRun r ++ encodeRuns rs := by
  cases rs with
  | nil => exact absurd rfl h
  | cons r' rs => rfl

/-- A full span before a first run that is not the whole rest. -/
theorem encodeRuns_block {B : List Byte} (hB : B.length = 254) {xs : List Byte} (hx : xs ≠ []) :
    encodeRuns (beforeFirstRun B (splitZeros xs)) = Config.codeFull :: B ++ encodeRuns (splitZeros xs) := by
  cases h : splitZeros xs with
  | nil => exact absurd h (splitZeros_ne_nil xs)
  | cons r rs =>
    cases rs with
    | cons r' rs => simp only [beforeFirstRun, encodeRuns, closedRun_block hB]; simp
    | nil =>
      have hr : r ≠ [] := by
        rintro rfl
        cases xs with
        | nil => exact hx rfl
        | cons b bs =>
          by_cases hb : b = 0#8
          · subst hb
            rw [splitZeros_zero, List.cons.injEq] at h
            exact splitZeros_ne_nil bs h.2
          · rw [splitZeros_data hb] at h
            cases hs : splitZeros bs with
            | nil => exact splitZeros_ne_nil bs hs
            | cons r rs => rw [hs] at h; simp [beforeFirstRun] at h
      simp only [beforeFirstRun, encodeRuns, finalRun_block hB hr]

/-- The output a scan leads to: the closed output, the code of the pending span, and its payload. -/
def closeScan (CP : List Byte × List Byte) : List Byte := CP.1 ++ BitVec.ofNat 8 (CP.2.length + 1) :: CP.2

/-- The scan followed by the final close gives the closed form, from any point of the scan. -/
theorem scanList_closed : ∀ (bs C P : List Byte), P.length ≤ 254 → (bs ≠ [] → P.length ≤ 253) →
    closeScan (scanList false bs C P) = C ++ encodeRuns (beforeFirstRun P (splitZeros bs)) := by
  intro bs
  induction bs with
  | nil =>
    intro C P hP _
    simp [scanList, closeScan, splitZeros, beforeFirstRun, encodeRuns, finalRun_short hP]
  | cons b bs ih =>
    intro C P _ hne
    have hP : P.length ≤ 253 := hne (by simp)
    rw [scanList]
    by_cases hb : b = 0#8
    · subst hb
      rw [scanStep, if_pos rfl]
      simp only
      rw [ih _ _ (by simp) (by simp), beforeFirstRun_nil, splitZeros_zero]
      simp only [beforeFirstRun, List.append_nil]
      rw [encodeRuns_cons _ (splitZeros_ne_nil bs), closedRun_short hP]
      simp
    · rw [scanStep, if_neg hb, splitZeros_data hb, beforeFirstRun_append]
      by_cases hf : P.length + 1 = 254 ∧ (!bs.isEmpty || false) = true
      · rw [if_pos hf]
        simp only
        have hbs : bs ≠ [] := by rintro rfl; simp at hf
        rw [ih _ _ (by simp) (by simp), beforeFirstRun_nil, encodeRuns_block (by simpa using hf.1) hbs]
        simp
      · rw [if_neg hf]
        refine ih C (P ++ [b]) (by simp; omega) (fun hbs => ?_)
        have : (!bs.isEmpty || false) = true := by cases bs with | nil => exact absurd rfl hbs | cons => rfl
        have : ¬ P.length + 1 = 254 := fun h => hf ⟨h, this⟩
        simp; omega

/-- `ENC_SCAN` and the final close over a whole input (R80, R83). -/
theorem scanList_encoding (xs : List Byte) : closeScan (scanList false xs [] []) = cobsEncoding xs := by
  rw [scanList_closed xs [] [] (by simp) (by simp), beforeFirstRun_nil]; rfl

/-- With `FORCE_AT_END = true` every run is closed alike (92_eei_decisions.md D1). -/
theorem scanList_closed_forced : ∀ (bs C P : List Byte), P.length ≤ 253 →
    closeScan (scanList true bs C P) = C ++ (beforeFirstRun P (splitZeros bs)).flatMap closedRun := by
  intro bs
  induction bs with
  | nil =>
    intro C P hP
    simp [scanList, closeScan, splitZeros, beforeFirstRun, closedRun_short hP]
  | cons b bs ih =>
    intro C P hP
    rw [scanList]
    by_cases hb : b = 0#8
    · subst hb
      rw [scanStep, if_pos rfl]
      simp only
      rw [ih _ _ (by simp), beforeFirstRun_nil, splitZeros_zero]
      simp [beforeFirstRun, closedRun_short hP]
    · rw [scanStep, if_neg hb, splitZeros_data hb, beforeFirstRun_append]
      by_cases hf : P.length + 1 = 254 ∧ (!bs.isEmpty || true) = true
      · rw [if_pos hf]
        simp only
        rw [ih _ _ (by simp), beforeFirstRun_nil]
        cases hs : splitZeros bs with
        | nil => exact absurd hs (splitZeros_ne_nil bs)
        | cons r rs =>
          simp only [beforeFirstRun, List.flatMap_cons, closedRun_block (B := P ++ [b]) (by simpa using hf.1)]
          simp
      · rw [if_neg hf]
        refine ih C (P ++ [b]) ?_
        have : ¬ P.length + 1 = 254 := fun h => hf ⟨h, by simp⟩
        simp; omega

theorem scanList_encoding_forced (xs : List Byte) : closeScan (scanList true xs [] []) = cobsEncodingForced xs := by
  rw [scanList_closed_forced xs [] [] (by simp), beforeFirstRun_nil]; rfl

end Sys2Proof
end

