-- ==== Sys2Proof/Laws/RoundTrip.lean ====
section
/-! SUPPORT. What the decoders make of the streams a scan produces, over sequences. -/

namespace Sys2Proof

open Machine

/-- A decoding from some offset on, with enough fuel for the whole list. -/
def decodingFrom (d : Decoder) (i : Nat) (xs : List Byte) : Except (Err × Nat) (List Byte) :=
  decodeSpans d xs.length i xs

/-- Fuel beyond the length of the list changes nothing. -/
theorem decodeSpans_fuel (d : Decoder) : ∀ (fuel i : Nat) (xs : List Byte), xs.length ≤ fuel →
    decodeSpans d fuel i xs = decodingFrom d i xs := by
  have key : ∀ (n f f' i : Nat) (xs : List Byte), xs.length ≤ n → xs.length ≤ f → xs.length ≤ f' →
      decodeSpans d f i xs = decodeSpans d f' i xs := by
    intro n
    induction n with
    | zero =>
      intro f f' i xs hn _ _
      obtain rfl : xs = [] := List.eq_nil_of_length_eq_zero (by omega)
      cases f <;> cases f' <;> rfl
    | succ n ih =>
      intro f f' i xs hn hf hf'
      cases xs with
      | nil => cases f <;> cases f' <;> rfl
      | cons c rest =>
        obtain ⟨f, rfl⟩ : ∃ g, f = g + 1 := ⟨f - 1, by simp at hf; omega⟩
        obtain ⟨f', rfl⟩ : ∃ g, f' = g + 1 := ⟨f' - 1, by simp at hf'; omega⟩
        rw [decodeSpans, decodeSpans]
        simp only [List.length_cons] at hn hf hf'
        have hd : (rest.drop (c.toNat - 1)).length ≤ rest.length := by simp
        rw [ih f f' (i + c.toNat) (rest.drop (c.toNat - 1)) (by omega) (by omega) (by omega)]
  exact fun fuel i xs h => key xs.length fuel xs.length i xs (Nat.le_refl _) h (Nat.le_refl _)

theorem decoding_eq (d : Decoder) (xs : List Byte) : decoding d xs = decodingFrom d 0 xs := rfl

/-- A decoding goes on behind the data `D`. -/
def andDecoded (D : List Byte) (r : Except (Err × Nat) (List Byte)) : Except (Err × Nat) (List Byte) :=
  match r with
  | .ok ys => .ok (D ++ ys)
  | .error e => .error e

@[simp] theorem andDecoded_ok (D ys : List Byte) : andDecoded D (.ok ys) = .ok (D ++ ys) := rfl
@[simp] theorem andDecoded_error (D : List Byte) (e : Err × Nat) : andDecoded D (.error e) = .error e := rfl

theorem andDecoded_append (D D' : List Byte) (r : Except (Err × Nat) (List Byte)) :
    andDecoded D (andDecoded D' r) = andDecoded (D ++ D') r := by
  cases r <;> simp

/-- The separator a decoder puts back after a span of payload `P` when the stream goes on (R67). -/
def separatorAfter (P : List Byte) : List Byte := if P.length = 254 then [] else [0#8]

theorem code_toNat {P : List Byte} (h : P.length ≤ 254) : (BitVec.ofNat 8 (P.length + 1)).toNat = P.length + 1 := by
  rw [BitVec.toNat_ofNat]; omega

theorem code_ne_zero {P : List Byte} (h : P.length ≤ 254) : BitVec.ofNat 8 (P.length + 1) ≠ 0#8 := fun h0 => by
  have := congrArg BitVec.toNat h0
  rw [code_toNat h] at this
  simp at this

theorem findIdx?_none {P : List Byte} (h : 0#8 ∉ P) : P.findIdx? (fun b => b == 0#8) = none :=
  List.findIdx?_eq_none_iff.2 fun b hb => by
    have : b ≠ 0#8 := fun h' => h (h' ▸ hb)
    simpa using this

/-- A whole span in front of a stream: its payload, the separator if the stream goes on, and the rest. -/
theorem decodingFrom_span (d : Decoder) (i : Nat) {P : List Byte} (S : List Byte) (hP : P.length ≤ 254)
    (h0 : 0#8 ∉ P) :
    decodingFrom d i (BitVec.ofNat 8 (P.length + 1) :: (P ++ S)) =
      andDecoded (P ++ if S = [] then [] else separatorAfter P) (decodingFrom d (i + (P.length + 1)) S) := by
  rw [decodingFrom, List.length_cons, decodeSpans, if_neg (code_ne_zero hP), code_toNat hP, Nat.add_sub_cancel,
    List.take_left, List.drop_left]
  have hlen : ¬ (P ++ S).length < P.length := by simp
  rw [if_neg (fun h => hlen h.2), findIdx?_none h0, if_neg hlen]
  simp only
  rw [decodeSpans_fuel d _ _ S (by simp)]
  have hfull : BitVec.ofNat 8 (P.length + 1) = Config.codeFull ↔ P.length = 254 := by
    rw [Config.codeFull, ← BitVec.toNat_inj, code_toNat hP]
    simp
  have hsep : (if S ≠ [] ∧ BitVec.ofNat 8 (P.length + 1) ≠ Config.codeFull then [0#8] else []) =
      if S = [] then [] else separatorAfter P := by
    unfold separatorAfter
    by_cases hS : S = []
    · simp [hS]
    · by_cases hp : P.length = 254
      · rw [if_neg (fun h => h.2 (hfull.2 hp)), if_neg hS, if_pos hp]
      · simp [hS, hp, hfull]
  rw [hsep]
  cases decodingFrom d (i + (P.length + 1)) S <;> simp [andDecoded]

/-- The closed output `C` decodes to the data `D` in front of any stream that goes on. -/
def ClosedDecodes (d : Decoder) (C D : List Byte) : Prop :=
  ∀ (S : List Byte) (i : Nat), S ≠ [] → decodingFrom d i (C ++ S) = andDecoded D (decodingFrom d (i + C.length) S)

theorem closedDecodes_nil (d : Decoder) : ClosedDecodes d [] [] := by
  intro S i _
  simp only [List.nil_append, List.length_nil, Nat.add_zero]
  cases decodingFrom d i S <;> simp [andDecoded]

/-- Closing one more span. -/
theorem ClosedDecodes.close {d : Decoder} {C D P : List Byte} (h : ClosedDecodes d C D) (hP : P.length ≤ 254)
    (h0 : 0#8 ∉ P) : ClosedDecodes d (C ++ BitVec.ofNat 8 (P.length + 1) :: P) (D ++ (P ++ separatorAfter P)) := by
  intro S i hS
  rw [List.append_assoc, List.cons_append, h _ _ (by simp), decodingFrom_span d _ S hP h0, if_neg hS,
    andDecoded_append]
  simp [Nat.add_assoc]

/-- The stream of a finished scan decodes to the data before the pending span and its payload. -/
theorem ClosedDecodes.finish {d : Decoder} {C D P : List Byte} (h : ClosedDecodes d C D) (hP : P.length ≤ 254)
    (h0 : 0#8 ∉ P) (i : Nat) : decodingFrom d i (closeScan (C, P)) = .ok (D ++ P) := by
  have := decodingFrom_span d (i + C.length) [] hP h0
  rw [List.append_nil] at this
  rw [closeScan, h _ _ (by simp), this]
  simp [andDecoded, decodingFrom, decodeSpans]

/-- What the scan keeps: the closed output decodes to `D`, the payload has no zero,
and `D` with the payload is the input
read so far. -/
structure ScanDecodes (d : Decoder) (C P seen : List Byte) : Prop where
  noZero : 0#8 ∉ P
  short : P.length ≤ 254
  closed : ∃ D, ClosedDecodes d C D ∧ D ++ P = seen

theorem ScanDecodes.step {d : Decoder} {C P seen : List Byte} (h : ScanDecodes d C P seen) (hP : P.length ≤ 253)
    (more : Bool) (b : Byte) :
    ScanDecodes d (scanStep more b C P).1 (scanStep more b C P).2 (seen ++ [b]) := by
  obtain ⟨D, hD, rfl⟩ := h.closed
  unfold scanStep
  by_cases hb : b = 0#8
  · subst hb
    rw [if_pos rfl]
    refine ⟨by simp, by simp, _, hD.close h.short h.noZero, ?_⟩
    rw [separatorAfter, if_neg (by omega)]
    simp
  · rw [if_neg hb]
    have h0 : 0#8 ∉ P ++ [b] := by
      simp only [List.mem_append, List.mem_singleton, not_or]
      exact ⟨h.noZero, fun h => hb h.symm⟩
    split
    · next hf =>
      have hl : (P ++ [b]).length = 254 := by simpa using hf.1
      have := hD.close (P := P ++ [b]) (by omega) h0
      rw [hl, separatorAfter, if_pos hl] at this
      exact ⟨by simp, by simp, _, this, by simp⟩
    · exact ⟨h0, by simp; omega, D, hD, by simp⟩

/-- The scan over the rest of an input. -/
theorem scanList_decodes (d : Decoder) (force : Bool) : ∀ (bs C P seen : List Byte), ScanDecodes d C P seen →
    (bs ≠ [] → P.length ≤ 253) →
    ScanDecodes d (scanList force bs C P).1 (scanList force bs C P).2 (seen ++ bs) := by
  intro bs
  induction bs with
  | nil => intro C P seen h _; simpa [scanList] using h
  | cons b bs ih =>
    intro C P seen h hne
    have hP : P.length ≤ 253 := hne (by simp)
    rw [scanList, show seen ++ b :: bs = seen ++ [b] ++ bs by simp]
    refine ih _ _ _ (h.step hP _ b) fun hbs => ?_
    have : (!bs.isEmpty || force) = true := by cases bs with | nil => exact absurd rfl hbs | cons => rfl
    rw [this]; exact scanStep_length hP

/-- A whole scan (R84 (b), R102 (b), R113). -/
theorem scan_decodes (d : Decoder) (force : Bool) (xs : List Byte) :
    ScanDecodes d (scanList force xs [] []).1 (scanList force xs [] []).2 xs := by
  have := scanList_decodes d force xs [] [] [] ⟨by simp, by simp, [], closedDecodes_nil d, rfl⟩ (by simp)
  simpa using this

/-- The payload pending at the end of a scan, without the byte that COBS/R drops (R101), behind the substituted code:
`COBSR.DEC` restores the byte, `COBS.DEC` finds the span too short. -/
theorem decodingFrom_substituted (i : Nat) {P : List Byte} {last : Byte} (h0 : 0#8 ∉ P)
    (hlast : P.length + 2 ≤ last.toNat) :
    decodingFrom .cobsr i (last :: P) = .ok (P ++ [last]) ∧
      decodingFrom .cobs i (last :: P) = .error (.shortInput, i) := by
  have hl : last ≠ 0#8 := fun h => by rw [h] at hlast; simp at hlast
  have hshort : P.length < last.toNat - 1 := by omega
  constructor
  · rw [decodingFrom, List.length_cons, decodeSpans, if_neg hl, if_neg (fun h => nomatch h.1),
      List.take_of_length_le (by omega), List.drop_eq_nil_of_le (by omega), findIdx?_none h0, if_pos hshort]
    simp only [ne_eq, not_true_eq_false, false_and, if_false, List.append_nil]
    cases P <;> simp [decodeSpans]
  · rw [decodingFrom, List.length_cons, decodeSpans, if_neg hl, if_pos ⟨rfl, hshort⟩]

end Sys2Proof
end

