-- ==== Sys2Proof/Laws/Step.lean ====
section
/-! SUPPORT. What a step can do, said once, and what it keeps of the invariant. -/

namespace Sys2Proof.Machine

/-- `t` is a state inside the operation that runs in `s`, with no byte at or above `dst` changed. -/
structure Inside (s t : State) : Prop where
  frame : t = { s with work := t.work, outBuf := t.outBuf, draws := t.draws }
  above : ∀ a, t.work.dst ≤ a → Memory.read t.outBuf a = Memory.read s.outBuf a

/-- What a transform leaves when it ends; `tail` says whether the last byte stored may lie outside the result. -/
def Finished (tail : Bool) (s u : State) : Prop :=
  sameOutsideOperation s u ∧ u.status.phase = .done ∧ (u.status.err = .none → u.errOffset = s.errOffset ∧
    (∀ a, u.work.dst ≤ a → Memory.read u.outBuf a = Memory.read s.outBuf a) ∧
    (u.outLen = u.work.dst ∨ (tail = true ∧ u.outLen + 1 = u.work.dst)))

theorem Inside.draws {s t} (h : Inside s t) (d) : Inside s { t with draws := d } := ⟨by rw [h.frame], h.above⟩
theorem Inside.store {s t} (h : Inside s t) {j v w} (hj : j < w.dst) (hd : t.work.dst ≤ w.dst) :
    Inside s (setWork w (storeOut j v t)) := by
  refine ⟨by rw [h.frame]; rfl, fun a ha => ?_⟩
  have ha' : w.dst ≤ a := ha
  show Memory.read (Memory.write t.outBuf j v) a = _
  rw [Memory.read_write_other _ _ (by omega)]
  exact h.above a (by omega)
theorem Inside.work {s t} (h : Inside s t) {w : Work} (hd : t.work.dst ≤ w.dst) : Inside s (setWork w t) :=
  ⟨by rw [h.frame]; rfl, fun a ha => h.above a (Nat.le_trans hd ha)⟩
theorem Inside.fail {s t} (h : Inside s t) (k i b) (hk : k ≠ .none): Finished b s (failAt k i t) := by
  refine ⟨?_, rfl, fun e => absurd e hk⟩
  unfold sameOutsideOperation; rw [h.frame]; rfl

theorem scanByte_inside {s t b} (h : Inside s t) (hc : t.work.codeIdx < t.work.dst) :
    Inside s (scanByte b (advance t)) ∧ (scanByte b (advance t)).work.codeIdx < (scanByte b
    (advance t)).work.dst := by
  have h0 : Inside s (advance t) := h.work (Nat.le_refl _)
  unfold scanByte
  split
  · exact ⟨h0.store (by show t.work.codeIdx < t.work.dst + 1; omega) (by show t.work.dst ≤ t.work.dst+1; omega),
      by simp⟩
  · have h1 : Inside s (countPayload (emit b (advance t))) :=
      (h0.store (by show t.work.dst < t.work.dst + 1; omega) (by show t.work.dst ≤ t.work.dst+1; omega)).work
      (Nat.le_refl _)
    simp only
    split
    · exact ⟨h1.store (by show t.work.codeIdx < t.work.dst + 1+1; omega)
        (by show t.work.dst +1 ≤ t.work.dst+1+1; omega), by simp⟩
    · exact ⟨h1, by simp; omega⟩

theorem encScan_inside (s) : (encScan s).All (fun t => Inside s t ∧ t.work.codeIdx < t.work.dst) (fun _ => False) := by
  refine whileInput_all (fun t ⟨h, hc⟩ _ => withInput_all fun b d => scanByte_inside (h.draws d) hc) s.nLatch
      (initEnc s) ⟨⟨rfl, fun _ _ => rfl⟩, by simp⟩

theorem cobsFinalClose_finished {s t} (h : Inside s t) (hc : t.work.codeIdx < t.work.dst) (b) : Finished b s (cobsFinalClose t) := by
  refine ⟨?_, rfl, fun _ => ⟨?_, ?_, .inl rfl⟩⟩
  · unfold sameOutsideOperation; rw [h.frame]; rfl
  · show t.errOffset = _; rw [h.frame]
  · intro a ha
    have ha' : t.work.dst ≤ a := ha
    show Memory.read (Memory.write t.outBuf _ _) a = _
    rw [Memory.read_write_other _ _ (by omega)]
    exact h.above a (by omega)
theorem cobsrCloseWith_finished {s t} (h : Inside s t) (hc : t.work.codeIdx < t.work.dst) (l) :
    Finished true s (cobsrCloseWith l t) := by
  have h' := h.work (w := { t.work with lastByte := l }) (Nat.le_refl _)
  simp only [cobsrCloseWith]
  split
  · refine ⟨?_, rfl, fun _ => ⟨?_, ?_, .inr ⟨rfl, ?_⟩⟩⟩
    · unfold sameOutsideOperation; rw [h.frame]; rfl
    · show t.errOffset = _; rw [h.frame]
    · intro a ha
      have ha' : t.work.dst ≤ a := ha
      show Memory.read (Memory.write t.outBuf t.work.codeIdx _) a = _
      rw [Memory.read_write_other _ _ (by omega)]
      exact h.above a (by omega)
    · show t.work.dst - 1 + 1 = t.work.dst; omega
  · exact cobsFinalClose_finished h' hc true

theorem copyBytes_inside {s} : ∀ m t, Inside s t → (copyBytes m t).All (Inside s) (Finished false s)
  | 0, t, h => h
  | m+1, t, h => withInput_all fun b d => by
    split
    · exact (h.draws d).fail _ _ _ (by simp)
    · exact copyBytes_inside m _ ((h.draws d).store (by show t.work.dst < t.work.dst+1; omega)
        (by show t.work.dst ≤ t.work.dst+1; omega))
theorem endSpan_inside {s t} (h : Inside s t) : Inside s (endSpan t) := by
  unfold endSpan; split
  · exact (h.store (by show t.work.dst < t.work.dst+1; omega) (by show t.work.dst ≤ t.work.dst+1; omega)).work
      (Nat.le_refl _)
  · exact h.work (Nat.le_refl _)
theorem decComplete_finished {s t} (h : Inside s t) : Finished false s (decComplete t) := by
  refine ⟨?_, rfl, fun _ => ⟨?_, ?_, .inl rfl⟩⟩
  · unfold sameOutsideOperation; rw [h.frame]; rfl
  · show t.errOffset = _; rw [h.frame]
  · exact h.above

theorem cobsSpan_inside {s t} (h : Inside s t) : (cobsSpan t).All (Inside s) (Finished false s) :=
    withInput_all fun b d => by
  split
  · exact (h.draws d).fail _ _ _ (by simp)
  · have h1 : Inside s (acceptCode b { t with draws := d }) := (h.draws d).work (Nat.le_refl _)
    simp only
    split
    · exact h1.fail _ _ _ (by simp)
    · exact (copyBytes_inside _ _ h1).andThen fun u hu => endSpan_inside hu
theorem cobsrSpan_inside {s t} (h : Inside s t) : (cobsrSpan t).All (Inside s) (Finished false s) :=
    withInput_all fun b d => by
  split
  · exact (h.draws d).fail _ _ _ (by simp)
  · have h1 : Inside s (acceptCode b { t with draws := d }) := (h.draws d).work (Nat.le_refl _)
    refine (copyBytes_inside _ _ h1).andThen fun u hu => endSpan_inside ?_
    split
    · exact hu.store (by show u.work.dst < u.work.dst+1; omega) (by show u.work.dst ≤ u.work.dst+1; omega)
    · exact hu

theorem decoders_finished {s t} : (execCobsDec s = .next t ∨ execCobsrDec s = .next t) → Finished false s t := by
  have h0 : Inside s (initDec s) := ⟨rfl, fun a _ => rfl⟩
  rintro (h | h)
  · exact ((whileInput_all (fun _ hu hlt => cobsSpan_inside hu) s.nLatch _ h0).andThen (P' := fun _ => False)
      (f := fun t => .ended (decComplete t)) fun _ hu => decComplete_finished hu).next h |>.resolve_left id
  · exact ((whileInput_all (fun _ hu hlt => cobsrSpan_inside hu) s.nLatch _ h0).andThen (P' := fun _ => False)
      (f := fun t => .ended (decComplete t)) fun _ hu => decComplete_finished hu).next h |>.resolve_left id
theorem cobsrFinal_inside {s t} (h : Inside s t) (hc : t.work.codeIdx < t.work.dst) :
    (cobsrFinalClose t).All (fun _ => False) (Finished true s) := by
  unfold cobsrFinalClose
  split
  · exact cobsrCloseWith_finished h hc _
  · exact withInput_all fun b d => cobsrCloseWith_finished (h.draws d) hc _
theorem encoders_finished {s t} : (execCobsEnc s = .next t → Finished false s t) ∧ (execCobsrEnc s = .next t →
    Finished true s t) := by
  constructor <;> intro h
  · exact (((encScan_inside s).weaken fun _ => False.elim).andThen (Q := Finished false s) (P' := fun _ => False)
      (f := fun t => .ended (cobsFinalClose t)) fun _ hu => cobsFinalClose_finished hu.1 hu.2 false).next h |>.resolve_left id
  · exact (((encScan_inside s).weaken fun _ => False.elim).andThen fun _ hu => cobsrFinal_inside hu.1 hu.2).next h |>.resolve_left id
/-- A selected operation that ends is in `DONE` and changed nothing outside itself. -/
theorem run_done {s t : State} (ht : exec (selected s) s = .next t) : sameOutsideOperation s t ∧
    t.status.phase = .done := by
  unfold selected decodeOp3 at ht
  split at ht
  · exact ⟨(encoders_finished.1 ht).1, (encoders_finished.1 ht).2.1⟩
  · exact ⟨(decoders_finished (.inl ht)).1, (decoders_finished (.inl ht)).2.1⟩
  · exact ⟨(encoders_finished.2 ht).1, (encoders_finished.2 ht).2.1⟩
  · exact ⟨(decoders_finished (.inr ht)).1, (decoders_finished (.inr ht)).2.1⟩
  all_goals
    cases ht; exact ⟨rfl, rfl⟩

/-- One transition or pass changes nothing outside the operation, and `STATUS` only by ending it. -/
theorem tick_outside {s t : State} (hb : s.status.phase = .busy) (ht : engineTick s = .next t) :
    sameOutsideOperation s t ∧ (t.status = s.status ∨ t.status.phase = .done) := by
  unfold engineTick at ht
  rw [hb] at ht
  simp only at ht
  split at ht
  · have := run_done ht; exact ⟨this.1, .inr this.2⟩
  · split at ht
    · unfold decTick at ht
      have hf : ∀ dec, (∀ b, (dec b = .lcZeroCobsDec ∨ dec b = .lcZeroCobsrDec ∨ dec b = .lcFullCobsDec ∨
          dec b = .lcFullCobsrDec ∨ (∃ c, dec b = .lcSpanCobsDec c ) ∨ (∃ c, dec b = .lcSpanCobsrDec c ) ∨
          dec b = .pbZero ∨ ∃ c, dec b = .pbData c)) → fetchExec dec s = .next t → sameOutsideOperation s t ∧
          (t.status = s.status ∨ t.status.phase = .done) := by
        intro dec hd h
        unfold fetchExec at h
        split at h
        swap; · cases h
        next b u hl =>
        have hu := loadIn_state hl
        rw [hu] at h
        rcases hd b with e | e | e | e | ⟨c, e⟩ | ⟨c, e⟩ | e | ⟨c, e⟩ <;> rw [e] at h <;> cases h
        · exact ⟨rfl, .inr rfl⟩
        · exact ⟨rfl, .inr rfl⟩
        · simp only [cobsCode]; split; exacts [⟨rfl, .inr rfl⟩, ⟨rfl, .inl rfl⟩]
        · exact ⟨rfl, .inl rfl⟩
        · simp only [cobsCode]; split; exacts [⟨rfl, .inr rfl⟩, ⟨rfl, .inl rfl⟩]
        · exact ⟨rfl, .inl rfl⟩
        · exact ⟨rfl, .inr rfl⟩
        · exact ⟨rfl, .inl rfl⟩
      split at ht
      · split at ht
        · refine hf _ ?_ ht; intro b; unfold decodeLc8; split <;> split <;> (try split) <;> simp_all
        · cases ht; exact ⟨rfl, .inr rfl⟩
      · split at ht
        · refine hf _ ?_ ht; intro b; unfold decodePb8; split <;> simp
        · split at ht
          · cases ht; exact ⟨rfl, .inl rfl⟩
          · split at ht
            · split at ht <;> cases ht <;> exact ⟨rfl, .inl rfl⟩
            · cases ht; exact ⟨rfl, .inr rfl⟩
      all_goals (cases ht; exact ⟨rfl, .inl rfl⟩)
    · unfold encTick at ht
      split at ht
      · unfold encPass at ht
        rcases withInput_cases s.work.src s (fun b t => .go (scanByte b (advance t))) with ⟨b, d, h⟩ | h
        · rw [h] at ht; cases ht
          have := (scanByte_frame b (advance { s with draws := d })).1
          refine ⟨?_, .inl ?_⟩
          · unfold sameOutsideOperation; rw [this]; rfl
          · rw [this]; rfl
        · rw [h] at ht; cases ht
      · split at ht
        · have : (cobsrFinalClose s).All (fun _ => False) (fun t => sameOutsideOperation s t ∧
            t.status.phase = .done) := by
            have hh : ∀ l d, sameOutsideOperation s (cobsrCloseWith l {s with draws := d}) ∧
                (cobsrCloseWith l {s with draws := d}).status.phase = .done := by
              intro l d; simp only [cobsrCloseWith]; split <;> exact ⟨rfl, rfl⟩
            unfold cobsrFinalClose
            split
            · exact hh _ s.draws
            · exact withInput_all fun b d => hh _ _
          have := (this.next ht).resolve_left id
          exact ⟨this.1, .inr this.2⟩
        · cases ht; exact ⟨rfl, .inr rfl⟩

/-- Everything one ENGINE transition can do to the state outside the operation. -/
theorem tick_cases {s t} (ht : engineTick s = .next t) : (s.status.phase ≠ .busy ∧ t = s) ∨
    (s.status.phase = .busy ∧ sameOutsideOperation s t ∧ (t.status = s.status ∨ t.status.phase = .done)) := by
  by_cases hb : s.status.phase = .busy
  · exact .inr ⟨hb, tick_outside hb ht⟩
  · refine .inl ⟨hb, ?_⟩
    unfold engineTick at ht; cases hp : s.status.phase <;> simp_all
/-- Everything a whole operation can do to the state outside itself. -/
theorem run_cases {s t} (ht : engineRun s = .next t) : (s.status.phase ≠ .busy ∧ t = s) ∨ (s.status.phase = .busy ∧
    sameOutsideOperation s t ∧ t.status.phase = .done) := by
  by_cases hb : s.status.phase = .busy
  · refine .inr ⟨hb, ?_⟩
    unfold engineRun at ht; rw [hb] at ht; exact run_done ht
  · refine .inl ⟨hb, ?_⟩
    unfold engineRun at ht; cases hp : s.status.phase <;> simp_all

/-- Everything a step can do: nothing but a turn gone or a poll read, a piece of the running operation,
or a HOST move. -/
theorem step_cases {s t} (ht : step s = .next t) :
   (∃ a, s.status.phase ≠ .busy ∧ (t = { s with agenda := a } ∨ t = { s with agenda := a, lastRead := t.lastRead })) ∨
   (∃ a, s.status.phase = .busy ∧ sameOutsideOperation { s with agenda := a } t ∧ (t.status = s.status ∨
       t.status.phase = .done)) ∨
   (∃ m rest, nextTurn s = some (.host m) ∧ hostMove m { s with agenda := rest } = .next t) := by
  unfold step at ht
  split at ht
  · rcases run_cases ht with ⟨h, rfl⟩ | ⟨h, h1, h2⟩
    · exact .inl ⟨t.agenda, h, .inl rfl⟩
    · exact .inr (.inl ⟨s.agenda, h, h1, .inr h2⟩)
  · next m rest hm => exact .inr (.inr ⟨m, rest, by simp [nextTurn, hm], ht⟩)
  · next rest _ =>
    rcases tick_cases ht with ⟨h, rfl⟩ | ⟨h, h1, h2⟩
    · exact .inl ⟨rest, h, .inl rfl⟩
    · exact .inr (.inl ⟨rest, h, h1, h2⟩)
  · next rest _ =>
    rcases run_cases ht with ⟨h, rfl⟩ | ⟨h, h1, h2⟩
    · exact .inl ⟨rest, h, .inl rfl⟩
    · exact .inr (.inl ⟨rest, h, h1, .inr h2⟩)
  · next rest _ =>
    split at ht
    · rcases run_cases ht with ⟨h, rfl⟩ | ⟨h, h1, h2⟩
      · exact .inl ⟨t.agenda, h, .inl rfl⟩
      · exact .inr (.inl ⟨s.agenda, h, h1, .inr h2⟩)
    · cases ht; exact .inl ⟨s.agenda, by simp_all, .inr rfl⟩
    · cases ht; exact .inl ⟨rest, by simp_all, .inr rfl⟩

/-- Everything a HOST move can do. -/
theorem host_cases {m s t} (ht : hostMove m s = .next t) :
   (t = { s with lastRead := t.lastRead, draws := t.draws }) ∨
   (∃ i b, m = .writeIn i b ∧ t = { s with inBuf := t.inBuf, overwritten := t.overwritten }) ∨
   (∃ v, m = .writeReg 1 v ∧ t = { s with opReg := t.opReg }) ∨
   (∃ v, m = .writeReg 2 v ∧ t = { s with inLen := t.inLen }) ∨
   (∃ v, m = .writeReg 0 v ∧ v % 2 = 1 ∧ s.status.phase ≠ .busy ∧ t = launch s) ∨
   (m = .reset ∧ t = resetMove s) := by
  cases m with
  | writeIn i b =>
    simp only [hostMove] at ht; split at ht <;> cases ht
    exact .inr (.inl ⟨i, b, rfl, rfl⟩)
  | readIn i =>
    simp only [hostMove] at ht; split at ht <;> cases ht
    refine .inl ?_; unfold fetchIn; split <;> rfl
  | writeReg r v =>
    simp only [hostMove, writeRegister] at ht
    split at ht
    · unfold writeCtrl decodeCtrl1 at ht
      split at ht
      · next i hi =>
        split at hi <;> cases hi
        next hb =>
        simp only [exec, execStart] at ht
        have hv : v % 2 = 1 := by
          rw [BitVec.getLsbD_ofNat] at hb
          simp [Nat.testBit_zero] at hb; exact hb
        split at ht <;> cases ht
        · exact .inl rfl
        · exact .inr (.inr (.inr (.inr (.inl ⟨v, rfl, hv, by simp_all, rfl⟩))))
        · exact .inr (.inr (.inr (.inr (.inl ⟨v, rfl, hv, by simp_all, rfl⟩))))
      · cases ht; exact .inl rfl
    · cases ht; exact .inr (.inr (.inl ⟨v, rfl, rfl⟩))
    · cases ht; exact .inr (.inr (.inr (.inl ⟨v, rfl, rfl⟩)))
    · cases ht; exact .inl rfl
  | readReg r => cases ht; exact .inl rfl
  | readOut j =>
    simp only [hostMove] at ht; split at ht <;> cases ht
    refine .inl ?_; unfold fetchOut; split
    · split <;> rfl
    · rfl
  | writeOut j b =>
    simp only [hostMove] at ht; split at ht <;> cases ht
    exact .inl rfl
  | reset => cases ht; exact .inr (.inr (.inr (.inr (.inr ⟨rfl, rfl⟩))))

/-- What an accepted START sets. -/
theorem launch_frame (s : State) : launch s = { s with
    opLatch := s.opReg, nLatch := s.inLen, cap := capFor s.opReg s.inLen, outLen := 0, errOffset := 0,
    status := ⟨.busy, .none⟩, outBuf := [], overwritten := [], work := (launch s).work } := by
  unfold launch initWork; split
  · rfl
  · split <;> rfl
/-! The invariant. -/

theorem selected_inv {s t : State} (h : Inv s) (hb : s.status.phase = .busy) (ht : exec (selected s) s = .next t) :
    Inv t := by
  have hc := h.cap_latched (by simp [hb])
  unfold selected decodeOp3 at ht
  have hsz : ∀ u, exec (selected s) s = .next u → True := fun _ _ => trivial
  split at ht
  all_goals rename_i e2 e1 e0
  · exact execCobsEnc_inv h hb (by rw [hc, capFor, dirBit, e0]; rfl) ht
  · exact execCobsDec_inv ⟨h, hb, e2, e0⟩ e1 ht
  · exact execCobsrEnc_inv h hb (by rw [hc, capFor, dirBit, e0]; rfl) ht
  · exact execCobsrDec_inv ⟨h, hb, e2, e0⟩ ht
  all_goals
    injection ht with ht
    rw [← ht]
    exact h.completed hb (Midway.refl h) (Nat.zero_le _) rfl (fun j hj => absurd hj (Nat.not_lt_zero _))

theorem engineRun_inv {s t : State} (h : Inv s) (ht : engineRun s = .next t) : Inv t := by
  unfold engineRun at ht
  split at ht
  · cases ht; exact h
  · cases ht; exact h
  · exact selected_inv h ‹_› ht

/-- What the two ends of a piece have in common holds of its next state. -/
theorem Flow.All.outcome {P Q : State → Prop} {R : State → Prop} {r : Flow} {t} (hr : r.All P Q) (h :
    r.outcome = .next t) (h1 : ∀ s, P s → R s) (h2 : ∀ s, Q s → R s) : R t := by
  rcases hr.next h with h | h; exacts [h1 _ h, h2 _ h]

theorem encTick_inv {s t : State} (h : Inv s) (hb : s.status.phase = .busy) (hz : sizeBit s.opLatch = false) (hd :
    dirBit s.opLatch = false)
  (ht : encTick s = .next t) : Inv t := by
  have hc := h.cap_latched (by simp [hb])
  have hcap : s.cap = encCap s.nLatch := by rw [hc, capFor, hd]; rfl
  have hE : EncoderInv s := by have := h.running hb; simpa [runningInv, hz, hd] using this
  unfold encTick at ht
  split at ht
  · next hlt =>
    refine Flow.All.outcome (encPass_midway (Midway.refl h) hE hcap hlt) ht (fun u hu => ?_) (fun _ => False.elim)
    refine h.midway hb hu.1.1 ?_
    unfold runningInv; rw [hu.1.1.opLatch, hz, hd]; exact hu.1.2
  · split at ht
    · exact Flow.All.outcome (cobsrFinalClose_inv h hb (Midway.refl h) hE hcap) ht (fun _ => False.elim) (fun _ => id)
    · cases ht; exact cobsFinalClose_inv h hb (Midway.refl h) hE hcap

theorem Decoding.running {s t : State} (hs : Decoding s) (m : Midway s t) (h : DecoderInv t) : Inv t := by
  refine hs.inv.midway hs.busy m ?_
  unfold runningInv; rw [m.opLatch, hs.size, hs.dir]; exact h

theorem decTick_inv {s t : State} (h : Inv s) (hb : s.status.phase = .busy) (hz : sizeBit s.opLatch = false) (hd :
    dirBit s.opLatch = true)
  (ht : decTick s = .next t) : Inv t := by
  have hs : Decoding s := ⟨h, hb, hz, hd⟩
  have hD : DecoderInv s := by have := h.running hb; simpa [runningInv, hz, hd] using this
  have hcap := hs.cap
  obtain ⟨hcur, hw⟩ := hD
  unfold decoderCursors at hcur
  unfold decTick at ht
  split at ht
  · next hf =>
    rw [hf] at hcur
    split at ht
    · next hlt =>
      unfold fetchExec at ht
      split at ht
      swap; · cases ht
      next b u hl =>
      have hu := loadIn_state hl
      have ht' : BetweenSpans s u := by rw [hu]; exact ⟨(Midway.refl h).draws _, hcur.1, hcur.2, hw⟩
      have hlt' : u.work.src < u.nLatch := by rw [hu]; exact hlt
      have hop : u.opLatch = s.opLatch := ht'.mid.opLatch
      have hn : u.nLatch = s.nLatch := ht'.mid.nLatch
      have hz' := h.nLatch_le
      have acc : b ≠ 0#8 → (variantBit s.opLatch = false → payloadLen b ≤ u.nLatch - (u.work.src + 1)) →
          Inv (acceptCode b u) := by
        intro hb0 hv
        have ha := ht'.acceptCode hlt' b
        refine Decoding.running hs ha.mid ⟨?_, ha.written⟩
        have hk : b.toNat ≤ 255 := by have := b.isLt; omega
        simp only [decoderCursors, acceptCode_work, acceptCode_nLatch, payloadLen] at *
        have := ha.dst_lt
        have := ha.src_le
        refine ⟨by omega, by omega, hb0, by omega, ?_, .inl (by simpa using ha.dst_lt)⟩
        intro hsh
        have hsh := of_decide_eq_true hsh
        refine ⟨by omega, ?_⟩
        rw [acceptCode_opLatch, hop]
        cases hvv : variantBit s.opLatch
        · have := hv hvv; omega
        · rfl
      have zb : Inv (failAt .zeroByte u.work.src u) := hs.zeroByte ht'.mid hlt'
      have cc : ∀ c, c = b → b ≠ 0#8 → variantBit s.opLatch = false → Inv (cobsCode c u) := by
        intro c hc hb0 hv; subst hc
        unfold cobsCode
        split
        · exact h.failed hb ht'.mid (by simp) (by omega) hz hd (fun _ => hv)
        · exact acc hb0 (fun _ => by omega)
      unfold decodeLc8 decoderOf at ht
      cases hv : variantBit s.opLatch <;> simp only [hv] at ht
      · simp at ht
        split at ht
        · cases ht; exact zb
        · split at ht
          · cases ht; exact cc _ (by subst b; rfl) ‹_› hv
          · cases ht; exact cc _ rfl ‹_› hv
      · simp at ht
        split at ht
        · cases ht; exact zb
        · split at ht
          · cases ht; subst b; exact acc ‹_› (by simp [hv])
          · cases ht; exact acc ‹_› (by simp [hv])
    · cases ht
      exact (⟨Midway.refl h, hcur.1, hcur.2, hw⟩ : BetweenSpans s s).complete hs
  · next hf =>
    rw [hf] at hcur
    obtain ⟨c1, c2, c3, c4, c5, c6⟩ := hcur
    split at ht
    · next hk =>
      unfold fetchExec at ht
      split at ht
      swap; · cases ht
      next b u hl =>
      have hu := loadIn_state hl
      have hsp : InSpan s u (s.work.k - 1 + 1) := by
        rw [hu]; exact ⟨(Midway.refl h).draws _, by show s.work.dst + 1 ≤ s.work.src; omega,
            by show s.work.src + (s.work.k - 1 + 1) ≤ s.nLatch; omega, hw⟩
      unfold decodePb8 at ht
      split at ht
      · cases ht; exact hs.zeroByte hsp.mid (by rw [hu]; show s.work.src < s.nLatch; omega)
      · cases ht
        have hc := hsp.copyByte hcap b
        refine Decoding.running hs hc.mid ⟨?_, hc.written⟩
        have h1 := hc.dst_lt
        have h2 := hc.src_le
        rw [hu] at h1 h2 ⊢
        simp only [decoderCursors, copyByte_work, hf, copyByte_nLatch, copyByte_opLatch] at *
        refine ⟨by omega, by omega, c3, c4, ?_, .inl (by omega)⟩
        intro hsh; have := c5 hsh; exact ⟨by omega, this.2⟩
    · next hk =>
      split at ht
      · next hsh =>
        cases ht
        obtain ⟨hsn, hv⟩ := c5 hsh
        have hdlt : s.work.dst + 1 ≤ s.work.src := by
          rcases c6 with h | h; exact h; simp [hsh] at h
        have hd' : s.work.dst < s.cap := by rw [hcap, decCap]; omega
        refine Decoding.running hs (((Midway.refl h).storeOut _ hd').setWork _) ⟨?_, written_storeOut hw⟩
        simp only [decoderCursors, appendCode_work, hf, appendCode_nLatch]
        exact ⟨c1, c2, c3, c4, by simp, .inr ⟨hdlt, by omega, trivial, by omega⟩⟩
      · next hsh =>
        have hsh' : s.work.short = false := by simpa using hsh
        split at ht
        · next hlt =>
          have hdlt : s.work.dst + 1 ≤ s.work.src := by
            rcases c6 with h | h; exact h; omega
          split at ht
          · cases ht
            refine Decoding.running hs ((Midway.refl h).setWork _) ⟨?_, hw⟩
            show s.work.dst ≤ s.work.src ∧ s.work.src ≤ s.nLatch
            omega
          · cases ht
            refine Decoding.running hs ((Midway.refl h).setWork _) ⟨?_, hw⟩
            exact ⟨hdlt, hlt⟩
        · cases ht
          exact (⟨Midway.refl h, by omega, by omega, hw⟩ : BetweenSpans s s).complete hs
  · next hf =>
    rw [hf] at hcur
    cases ht
    have hd' : s.work.dst < s.cap := by rw [hcap, decCap]; omega
    refine Decoding.running hs ((((Midway.refl h).storeOut _ hd').setWork _).setWork _) ⟨?_, written_storeOut hw⟩
    show s.work.dst + 1 ≤ s.work.src ∧ s.work.src ≤ s.nLatch
    omega
  · next hf => rw [hf] at hcur; exact hcur.elim
  · next hf => rw [hf] at hcur; exact hcur.elim

theorem engineTick_inv {s t : State} (h : Inv s) (ht : engineTick s = .next t) : Inv t := by
  unfold engineTick at ht
  split at ht
  · cases ht; exact h
  · cases ht; exact h
  · next hb =>
    cases hz : sizeBit s.opLatch <;> simp [hz] at ht
    · cases hd : dirBit s.opLatch <;> simp [hd] at ht
      · exact encTick_inv h hb hz hd ht
      · exact decTick_inv h hb hz hd ht
    · exact selected_inv h hb ht

/-- What the invariant says of a running operation depends on the working registers, the latches and `OUT_BUF` only. -/
theorem runningInv.congr {s t : State} (h : runningInv s) (hw : t.work = s.work) (ho : t.opLatch = s.opLatch)
    (hn : t.nLatch = s.nLatch) (hb : t.outBuf = s.outBuf) : runningInv t := by
  unfold runningInv at *
  rw [ho]
  split
  · trivial
  · next hz =>
    rw [if_neg hz] at h
    split
    · next hd =>
      rw [if_pos hd] at h
      exact ⟨by unfold decoderCursors; rw [hw, hn, ho]; exact h.cursors, by rw [hw, hb]; exact h.written⟩
    · next hd =>
      rw [if_neg hd] at h
      obtain ⟨h1, h2, h3, h4, h5, h6, h7⟩ := h
      constructor <;> rw [hw] <;> (try rw [hn]) <;> (try rw [hb]) <;> assumption

/-- The invariant does not look at `OP`, the agenda, the draws, the resets, what the HOST has read,
or the record of overwritten input. -/
theorem Inv.congr {s t : State} (h : Inv s) (e : t = { s with
    opReg := t.opReg, overwritten := t.overwritten, agenda := t.agenda, draws := t.draws, resets := t.resets,
    lastRead := t.lastRead }) : Inv t := by
  obtain ⟨⟩ := s
  obtain ⟨⟩ := t
  simp at e
  obtain ⟨rfl, rfl, rfl, rfl, rfl, rfl, rfl, rfl, rfl, rfl, rfl⟩ := e
  constructor
  case running => exact fun hb => (h.running hb).congr rfl rfl rfl rfl
  exacts [h.lenW_pos, h.in_wf, h.out_wf, h.in_depth, h.out_cap, h.cap_depth, h.inLen_le, h.nLatch_le, h.outLen_le,
      h.errOffset_le, h.not_done, h.cap_latched, h.no_error, h.error, h.short_input, h.results]

theorem launch_inv {s : State} (h : Inv s) : Inv (launch s) := by
  have hcap : capFor s.opReg s.inLen ≤ outDepth s.cfg := by
    unfold capFor outDepth
    split
    · have : decCap s.inLen ≤ encCap s.inLen := by
        have := Nat.zero_le (s.inLen / Config.sizeDiv)
        unfold decCap encCap; omega
      exact Nat.le_trans this (encCap_mono h.inLen_le)
    · exact encCap_mono h.inLen_le
  have e : launch s = { { s with
      opLatch := s.opReg, nLatch := s.inLen, cap := capFor s.opReg s.inLen, outLen := 0, errOffset := 0,
      status := ⟨.busy, .none⟩, outBuf := [], overwritten := [] } with work := (launch s).work } := by
    unfold launch initWork; split; rfl; split <;> rfl
  rw [e]
  constructor
  case running =>
    intro _
    unfold runningInv
    split
    · trivial
    · next hz =>
      split
      · next hd =>
        refine ⟨?_, ?_⟩
        · unfold launch initWork
          simp only [hz, hd]
          simp [decoderCursors, initDec, setWork]
        · unfold launch initWork; simp only [hz, hd]; simp [initDec, setWork]
      · next hd =>
        unfold launch initWork; simp only [hz, hd]
        simp only [Bool.false_eq_true, if_false]
        have := initEnc_encoderInv { s with
          opLatch := s.opReg, nLatch := s.inLen, cap := capFor s.opReg s.inLen, outLen := 0, errOffset := 0,
          status := ⟨.busy, .none⟩, outBuf := [], overwritten := [] }
        exact this
  exacts [h.lenW_pos, h.in_wf, List.Pairwise.nil, h.in_depth, by simp, hcap, h.inLen_le, h.inLen_le, Nat.zero_le _,
      Nat.zero_le _, by simp, fun _ => rfl, fun _ => rfl, by simp, by simp, by simp]

theorem hostMove_inv {s t : State} {m : HostMove} (h : Inv s) (ht : hostMove m s = .next t) : Inv t := by
  have hret : ∀ v, Inv (returned v s) := fun v => h.congr rfl
  have hfree : Inv (returnedFree s) := h.congr rfl
  cases m with
  | writeIn i b =>
    simp only [hostMove] at ht
    split at ht <;> cases ht
    next hi =>
    have e : Inv { s with inBuf := Memory.write s.inBuf i b } := by
      constructor
      case running => exact fun hb => (h.running hb).congr rfl rfl rfl rfl
      exacts [h.lenW_pos, Memory.write_wf _ _ h.in_wf, h.out_wf, Memory.write_bound _ h.in_depth hi, h.out_cap,
          h.cap_depth, h.inLen_le, h.nLatch_le, h.outLen_le, h.errOffset_le, h.not_done, h.cap_latched, h.no_error,
          h.error, h.short_input, h.results]
    exact e.congr rfl
  | readIn i =>
    simp only [hostMove] at ht
    split at ht <;> cases ht
    unfold fetchIn; split <;> exact hret _
  | writeReg r v =>
    simp only [hostMove, writeRegister] at ht
    split at ht
    · unfold writeCtrl decodeCtrl1 at ht
      split at ht
      · next i hi =>
        split at hi <;> cases hi
        simp only [exec, execStart] at ht
        split at ht <;> cases ht
        exacts [h, launch_inv h, launch_inv h]
      · cases ht; exact h
    · cases ht; exact h.congr rfl
    · cases ht
      have hlt : v % 2 ^ s.cfg.lenW ≤ s.cfg.inMax := by
        have := Nat.mod_lt v (Nat.two_pow_pos s.cfg.lenW)
        unfold Config.inMax; omega
      constructor
      case running => exact fun hb => (h.running hb).congr rfl rfl rfl rfl
      exacts [h.lenW_pos, h.in_wf, h.out_wf, h.in_depth, h.out_cap, h.cap_depth, hlt, h.nLatch_le, h.outLen_le,
          h.errOffset_le, h.not_done, h.cap_latched, h.no_error, h.error, h.short_input, h.results]
    · cases ht; exact h
  | readReg r => cases ht; exact hret _
  | readOut j =>
    simp only [hostMove] at ht
    split at ht <;> cases ht
    unfold fetchOut; split
    · split; exacts [hret _, hfree]
    · exact hfree
  | writeOut j b =>
    simp only [hostMove] at ht
    split at ht <;> cases ht
    exact h
  | reset =>
    cases ht
    have : Inv (State.resetFor s.cfg) := by
      constructor <;> simp [State.resetFor, Memory.wf]
      exact h.lenW_pos
    exact this.congr rfl

end Sys2Proof.Machine
end

