-- ==== Sys2Proof/Machine/Script.lean ====
section
/-! DEFINITION. The host script of 30_encoding.md R71 and R72 as lists of turns. `EXPECT` is a check, no move. -/

namespace Sys2Proof.Machine

/-- R71: `RESET`. -/
def scriptReset : List Turn := [.host .reset]

/-- R71: `WRIN <bytes>`, the bytes stored from index `i` on. -/
def scriptWrinFrom : Nat → List Byte → List Turn
  | _, [] => []
  | i, b :: bs => .host (.writeIn i b) :: scriptWrinFrom (i + 1) bs

/-- R71: `WRIN <bytes>`. -/
def scriptWrin (bs : List Byte) : List Turn := scriptWrinFrom 0 bs

/-- R71: `WRREG <name>, <value>`, by the register's number (10_state.md R11). -/
def scriptWrreg (r v : Nat) : List Turn := [.host (.writeReg r v)]

/-- R71: `START`, the same as `WRREG CTRL, 1`. -/
def scriptStart : List Turn := scriptWrreg 0 1

/-- R71: `WAIT`. -/
def scriptWait : List Turn := [.await]

/-- R71: `RDREG <name>`, by the register's number. -/
def scriptRdreg (r : Nat) : List Turn := [.host (.readReg r)]

/-- R71: `RDOUT <count>`. -/
def scriptRdout : Nat → List Turn
  | 0 => []
  | m + 1 => scriptRdout m ++ [.host (.readOut m)]

/-- R72: `CALLN <mnemonic> <n>`. -/
def scriptCalln (i : Instr) (n : Nat) : List Turn :=
  scriptWrreg 2 n ++ scriptWrreg 1 (encode i).toNat ++ scriptStart ++ scriptWait

/-- R72: `CALL <mnemonic> <bytes>`. -/
def scriptCall (i : Instr) (bs : List Byte) : List Turn := scriptWrin bs ++ scriptCalln i bs.length

/-- The bytes at indices below `m` that hold a value, in rising order. -/
def resultBytes (mem : Memory) : Nat → List Byte
  | 0 => []
  | m + 1 => resultBytes mem m ++ (Memory.read mem m).toList

/-- R72: `CHAIN <mnemonic>` after a finished operation in state `s`: the output read, then `CALL` with it. -/
def scriptChain (i : Instr) (s : State) : List Turn :=
  scriptRdreg 4 ++ scriptRdout s.outLen ++ scriptCall i (resultBytes s.outBuf s.outLen)

end Sys2Proof.Machine
end

