-- ==== Sys2Proof/Tests/Slice0.lean ====
section
/-! SUPPORT. Small tests of the model against the spec's own tables and worked examples, and a witness for the
hypotheses of every statement that has some. -/

namespace Sys2Proof.Tests

open Sys2Proof Sys2Proof.Machine

/-! Well-formedness: 30_encoding.md R63 and R66 give the operand ranges. -/

theorem test_span_zero_cobs_refused : (Instr.lcSpanCobsDec 0x00#8).wellFormed = false := by decide
theorem test_span_full_cobs_refused : (Instr.lcSpanCobsDec 0xFF#8).wellFormed = false := by decide
theorem test_span_zero_cobsr_refused : (Instr.lcSpanCobsrDec 0x00#8).wellFormed = false := by decide
theorem test_span_full_cobsr_refused : (Instr.lcSpanCobsrDec 0xFF#8).wellFormed = false := by decide
theorem test_data_zero_refused : (Instr.pbData 0x00#8).wellFormed = false := by decide
theorem test_span_bounds_accepted :
    (Instr.lcSpanCobsDec 0x01#8).wellFormed = true ∧ (Instr.lcSpanCobsrDec 0xFE#8).wellFormed = true := by decide

/-! Decoding: words written out from the tables of R60, R61, R63 and R66. -/

theorem test_decode_selectors :
    decode .op3 0b00000000#8 = .ok .cobsEnc ∧ decode .op3 0b00000001#8 = .ok .cobsDec ∧
    decode .op3 0b00000010#8 = .ok .cobsrEnc ∧ decode .op3 0b00000011#8 = .ok .cobsrDec := by
  refine ⟨?_, ?_, ?_, ?_⟩ <;> rfl
theorem test_decode_sizing_selectors :
    decode .op3 0b00000100#8 = .ok .cobsEnccap ∧ decode .op3 0b00000101#8 = .ok .cobsDeccap ∧
    decode .op3 0b00000110#8 = .ok .cobsrEnccap ∧ decode .op3 0b00000111#8 = .ok .cobsrDeccap := by
  refine ⟨?_, ?_, ?_, ?_⟩ <;> rfl
theorem test_decode_command :
    decode .ctrl1 0b00000001#8 = .ok .start ∧ decode .ctrl1 0b00000000#8 = .error .noCommand ∧
    decode .ctrl1 0b10000001#8 = .ok .start ∧ decode .ctrl1 0b11111110#8 = .error .noCommand := by
  refine ⟨?_, ?_, ?_, ?_⟩ <;> rfl
theorem test_decode_codes_cobs :
    decode (.lc8 .cobs) 0b00000000#8 = .ok .lcZeroCobsDec ∧
    decode (.lc8 .cobs) 0b11111111#8 = .ok .lcFullCobsDec ∧
    decode (.lc8 .cobs) 0b00000001#8 = .ok (.lcSpanCobsDec 1#8) ∧
    decode (.lc8 .cobs) 0b11111110#8 = .ok (.lcSpanCobsDec 254#8) := by
  refine ⟨?_, ?_, ?_, ?_⟩ <;> rfl
theorem test_decode_codes_cobsr :
    decode (.lc8 .cobsr) 0b00000000#8 = .ok .lcZeroCobsrDec ∧
    decode (.lc8 .cobsr) 0b11111111#8 = .ok .lcFullCobsrDec ∧
    decode (.lc8 .cobsr) 0b00000001#8 = .ok (.lcSpanCobsrDec 1#8) ∧
    decode (.lc8 .cobsr) 0b11111110#8 = .ok (.lcSpanCobsrDec 254#8) := by
  refine ⟨?_, ?_, ?_, ?_⟩ <;> rfl
theorem test_decode_payload :
    decode .pb8 0b00000000#8 = .ok .pbZero ∧ decode .pb8 0b00000001#8 = .ok (.pbData 1#8) ∧
    decode .pb8 0b11111111#8 = .ok (.pbData 255#8) := by
  refine ⟨?_, ?_, ?_⟩ <;> rfl

/-! Small states. -/

/-- Bytes at rising indices. -/
def cells : Nat → List Byte → Memory
  | _, [] => []
  | i, b :: bs => (i, b) :: cells (i + 1) bs

/-- A block whose HOST has written an input, its length and a selector; `LEN_W = 10`. -/
def ready (op : BitVec 3) (xs : List Byte) : State :=
  { State.resetFor (Config.block 10) with opReg := op, inLen := xs.length, inBuf := cells 0 xs }

/-- The same block after `START`. -/
def running (op : BitVec 3) (xs : List Byte) : State := launch (ready op xs)

/-- The next state, if there is one. -/
def after (r : Host.Outcome State Fault Refusal) : Option State :=
  match r with
  | .next s => some s
  | .fault _ => none
  | .refused _ => none

/-- What an operation leaves for the HOST (70_reset_and_hazards.md R189). -/
def seen (r : Host.Outcome State Fault Refusal) : Option (Status × Nat × Nat × List Byte) :=
  (after r).map fun t => (t.status, t.errOffset, t.outLen, resultBytes t.outBuf t.outLen)

/-- The cursors of a decoder. -/
def cursors (r : Host.Outcome State Fault Refusal) : Option (Nat × Nat × Nat × Nat × Bool × Fsm) :=
  (after r).map fun t => (t.work.src, t.work.dst, t.work.rem, t.work.k, t.work.short, t.work.fsm)

/-! The worked examples and corner cases of the operations' rules. -/

/-- 40_cobs_encode.md R80, worked example. -/
theorem test_cobs_enc : seen (exec .cobsEnc (running 0#3 [0x11#8, 0x22#8, 0x00#8, 0x33#8])) =
    some (⟨.done, .none⟩, 0, 5, [0x03#8, 0x11#8, 0x22#8, 0x02#8, 0x33#8]) := by decide
/-- R80, corner cases: `00` gives `01 01`. -/
theorem test_cobs_enc_trailing_zero : seen (exec .cobsEnc (running 0#3 [0x00#8])) =
    some (⟨.done, .none⟩, 0, 2, [0x01#8, 0x01#8]) := by decide
/-- 41_cobs_decode.md R90, worked example. -/
theorem test_cobs_dec : seen (exec .cobsDec (running 1#3 [0x03#8, 0x11#8, 0x22#8, 0x02#8, 0x33#8])) =
    some (⟨.done, .none⟩, 0, 4, [0x11#8, 0x22#8, 0x00#8, 0x33#8]) := by decide
/-- 60_exceptions.md R148: `03 00` fails with `SHORT_INPUT` at 0. -/
theorem test_cobs_dec_short : seen (exec .cobsDec (running 1#3 [0x03#8, 0x00#8])) =
    some (⟨.done, .shortInput⟩, 0, 0, []) := by decide
/-- 42_cobsr_encode.md R100, worked example. -/
theorem test_cobsr_enc : seen (exec .cobsrEnc (running 2#3 [0x11#8, 0x22#8, 0x00#8, 0x33#8])) =
    some (⟨.done, .none⟩, 0, 4, [0x03#8, 0x11#8, 0x22#8, 0x33#8]) := by decide
/-- R100, corner cases: `01` gives `02 01`, below the equality of the substitution. -/
theorem test_cobsr_enc_small : seen (exec .cobsrEnc (running 2#3 [0x01#8])) =
    some (⟨.done, .none⟩, 0, 2, [0x02#8, 0x01#8]) := by decide
/-- 43_cobsr_decode.md R110, worked example. -/
theorem test_cobsr_dec : seen (exec .cobsrDec (running 3#3 [0x03#8, 0x11#8, 0x22#8, 0x33#8])) =
    some (⟨.done, .none⟩, 0, 4, [0x11#8, 0x22#8, 0x00#8, 0x33#8]) := by decide
/-- R148: `03 00` fails with `ZERO_BYTE` at 1. -/
theorem test_cobsr_dec_zero : seen (exec .cobsrDec (running 3#3 [0x03#8, 0x00#8])) =
    some (⟨.done, .zeroByte⟩, 1, 0, []) := by decide
/-- 44_sizing.md R122, corner case `n = 254`, and worked example `n = 255`. -/
theorem test_enccap :
    ((after (exec .cobsEnccap (launch { ready 4#3 [] with inLen := 254 }))).map (·.cap)) = some 256 ∧
    ((after (exec .cobsrEnccap (launch { ready 6#3 [] with inLen := 255 }))).map (·.cap)) = some 257 := by decide
/-- R123, worked example. -/
theorem test_deccap :
    ((after (exec .cobsDeccap (launch { ready 5#3 [] with inLen := 5 }))).map (·.cap)) = some 5 ∧
    ((after (exec .cobsrDeccap (launch { ready 7#3 [] with inLen := 5 }))).map (·.cap)) = some 5 := by decide
/-- 45_control.md R130, worked example: `CAP = 2` and `BUSY`. -/
theorem test_start : ((after (exec .start (ready 0#3 [0x2F#8]))).map fun t => (t.cap, t.status.phase)) =
    some (2, .busy) := by decide
/-- R130: `START` while `BUSY` is ignored. -/
theorem test_start_busy : after (exec .start (running 1#3 [0x05#8])) = some (running 1#3 [0x05#8]) := by decide

/-- 95_test_vectors.md K4 and K5: `STATUS` reads 10 after `03 00` under `COBS.DEC` and 6 under `COBSR.DEC`. -/
theorem test_status_numbers :
    ((after (exec .cobsDec (running 1#3 [0x03#8, 0x00#8]))).map (regValue · 3)) = some 10 ∧
    ((after (exec .cobsrDec (running 3#3 [0x03#8, 0x00#8]))).map (regValue · 3)) = some 6 := by decide

/-! The length codes and payload bytes, by the transitions of 41_cobs_decode.md R92. -/

theorem test_code_zero : seen (exec .lcZeroCobsDec (running 1#3 [0x00#8, 0x00#8])) =
    some (⟨.done, .zeroByte⟩, 0, 0, []) := by decide
theorem test_code_zero_cobsr : seen (exec .lcZeroCobsrDec (running 3#3 [0x00#8])) =
    some (⟨.done, .zeroByte⟩, 0, 0, []) := by decide
/-- T3: 254 bytes stated, none present. -/
theorem test_code_full_short : seen (exec .lcFullCobsDec (running 1#3 [0xFF#8])) =
    some (⟨.done, .shortInput⟩, 0, 0, []) := by decide
/-- T4 with `V = 1`: `k` is what remains. -/
theorem test_code_full_cobsr : cursors (exec .lcFullCobsrDec (running 3#3 [0xFF#8, 0x01#8])) =
    some (1, 0, 1, 1, true, .copyPayload) := by decide
/-- T4 where exactly `c - 1` bytes remain. -/
theorem test_code_span : cursors (exec (.lcSpanCobsDec 3#8) (running 1#3 [0x03#8, 0x11#8, 0x22#8])) =
    some (1, 0, 2, 2, false, .copyPayload) := by decide
/-- R90: `05` alone is `SHORT_INPUT` at offset 0. -/
theorem test_code_span_short : seen (exec (.lcSpanCobsDec 5#8) (running 1#3 [0x05#8])) =
    some (⟨.done, .shortInput⟩, 0, 0, []) := by decide
/-- The same code is accepted by `COBSR.DEC` (R110). -/
theorem test_code_span_cobsr : cursors (exec (.lcSpanCobsrDec 5#8) (running 3#3 [0x05#8])) =
    some (1, 0, 0, 0, true, .copyPayload) := by decide

/-- A decoder that has taken the code of its first span. -/
def inSpan (op : BitVec 3) (xs : List Byte) : State := acceptCode (xs.headD 0#8) (running op xs)

theorem test_payload_zero : seen (exec .pbZero (inSpan 1#3 [0x03#8, 0x00#8, 0x22#8])) =
    some (⟨.done, .zeroByte⟩, 1, 0, []) := by decide
theorem test_payload_data :
    cursors (exec (.pbData 0x11#8) (inSpan 1#3 [0x03#8, 0x11#8, 0x22#8])) =
      some (2, 1, 2, 1, false, .copyPayload) ∧
    ((after (exec (.pbData 0x11#8) (inSpan 1#3 [0x03#8, 0x11#8, 0x22#8]))).map (·.outBuf)) =
      some [(0, 0x11#8)] := by decide

/-! Witnesses: for each statement with hypotheses, data that meet them. -/

theorem witness_DecodeEncodeRoundTrip :
    (Instr.lcSpanCobsDec 254#8).wellFormed = true ∧ decode .op3 0b11111011#8 = .ok .cobsrDec :=
  ⟨by decide, rfl⟩

theorem witness_ControlWriteIsStartOrNothing : 255 % 2 = 1 ∧ 254 % 2 = 0 := by decide

/-- A block with one turn before it. -/
def atTurn (t : Turn) (s : State) : State := { s with agenda := [t] }

theorem witness_StepRunsDecodedInstruction :
    ((atTurn .run (running 0#3 [])).agenda = .run :: [] ∧ (atTurn .run (running 0#3 [])).status.phase = .busy) ∧
    ((running 0#3 []).agenda = [] ∧ (running 0#3 []).status.phase = .busy) ∧
    ((atTurn .tick (running 7#3 [])).status.phase = .busy ∧
      sizeBit (atTurn .tick (running 7#3 [])).opLatch = true) := by decide

theorem witness_StepRunsDecodedInstruction_bytes :
    (let s := atTurn .tick (running 1#3 [0xFF#8])
     s.status.phase = .busy ∧ sizeBit s.opLatch = false ∧ dirBit s.opLatch = true ∧
      s.work.fsm = .readCode ∧ s.work.src < s.nLatch ∧ Memory.read s.inBuf s.work.src = some 0xFF#8 ∧
      earlierBytes s s.work.src = []) ∧
    (let s := atTurn .tick (inSpan 3#3 [0x02#8, 0x00#8])
     s.status.phase = .busy ∧ sizeBit s.opLatch = false ∧ dirBit s.opLatch = true ∧
      s.work.fsm = .copyPayload ∧ 0 < s.work.k ∧ Memory.read s.inBuf s.work.src = some 0x00#8 ∧
      earlierBytes s s.work.src = []) ∧
    (atTurn (.host (.writeReg 0 1)) (ready 0#3 [])).agenda = .host (.writeReg 0 1) :: [] := by decide

theorem witness_StepRunsDecodedInstruction_command : decodeCtrl1 (BitVec.ofNat 8 255) = .ok .start := rfl

theorem witness_PlacedWordIsExecutedNext :
    decodeTableWord 8 0 = some .cobsEnc ∧ decodeTableWord 8 7 = some .cobsrDeccap ∧
    decodeTableWord 8 8 = some (.lcSpanCobsDec 8#8) ∧ decodeTableWord 8 255 = some .lcFullCobsDec ∧
    decodeTableWord 1 1 = some .start := by
  refine ⟨?_, ?_, ?_, ?_, ?_⟩ <;> rfl

theorem witness_EngineHasNoMoveUnlessBusy :
    (ready 0#3 []).status.phase ≠ .busy ∧ (ready 0#3 []).agenda = [] := by decide

theorem witness_InvHoldsAtReset : 1 ≤ (Config.block 1).lenW := by decide

/-- 45_control.md R130: a running encoder meets the invariant, and its first pass is a step. -/
theorem witness_StepKeepsInv :
    Inv (atTurn .tick (running 0#3 [0x2F#8])) ∧ (after (step (atTurn .tick (running 0#3 [0x2F#8])))).isSome := by
  refine ⟨?_, by decide⟩
  constructor
  case running =>
    intro _
    exact ⟨by decide, by decide, by decide, by decide, by decide, by decide, by decide⟩
  all_goals decide

theorem witness_StartLaunchesOrIsIgnored :
    (running 5#3 []).status.phase = .busy ∧ (ready 0#3 []).status.phase ≠ .busy ∧
    (ready 0#3 [0x2F#8]).status.phase ≠ .busy ∧ (ready 0#3 [0x2F#8]).inLen = 1 ∧
    (ready 0#3 [0x2F#8]).opReg = 0b000#3 ∧ Memory.read (ready 0#3 [0x2F#8]).inBuf 0 = some 0x2F#8 ∧
    (ready 0#3 []).opReg.getLsbD 0 = false ∧ (ready 7#3 []).opReg.getLsbD 0 = true := by decide

theorem witness_StartInitialisesWorkingRegisters :
    (ready 2#3 []).status.phase ≠ .busy ∧ sizeBit (ready 2#3 []).opReg = false ∧
    dirBit (ready 2#3 []).opReg = false ∧ (ready 3#3 []).status.phase ≠ .busy ∧
    sizeBit (ready 3#3 []).opReg = false ∧ dirBit (ready 3#3 []).opReg = true := by decide

theorem witness_HostWritesSetOnlyTheirRegister : 1023 ≤ (ready 0#3 []).cfg.inMax := by decide

theorem witness_ReadOnlyAndUnknownRegisters :
    (3 : Nat) ≤ 3 ∧ (7 : Nat) ≤ 7 ∧ (0 : Nat) = 0 ∧ 1027 < outDepth (ready 0#3 []).cfg := by decide

theorem witness_HostReadsHaveNoSideEffect :
    (after (hostMove (.readIn 0) (ready 0#3 [0x2F#8]))).isSome ∧
    (after (hostMove (.readReg 7) (ready 0#3 []))).isSome ∧
    (after (hostMove (.readOut 1027) (ready 0#3 []))).isSome := ⟨rfl, rfl, rfl⟩

theorem witness_HostWriteReadsBackFromInputBuffer :
    1022 < (ready 0#3 []).cfg.inDepth ∧ (running 0#3 [0x2F#8]).nLatch ≤ 1 ∧
    Memory.read (ready 0#3 [0x2F#8]).inBuf 0 = some 0x2F#8 ∧ Memory.read (ready 0#3 [0x2F#8]).inBuf 1 = none := by
  decide

theorem witness_RegisterReadsReturnTheRegister :
    (ready 0#3 []).status = ⟨.idle, .none⟩ ∧ (running 0#3 []).status = ⟨.busy, .none⟩ ∧
    (failAt .zeroByte 0 (running 1#3 [])).status = ⟨.done, .zeroByte⟩ ∧
    (failAt .shortInput 0 (running 1#3 [])).status = ⟨.done, .shortInput⟩ := by decide

theorem witness_OverwrittenInputLoadsOldOrNew :
    (running 0#3 [0x2F#8]).status.phase = .busy ∧ 0 < (running 0#3 [0x2F#8]).nLatch ∧
    0 < (running 0#3 [0x2F#8]).cfg.inDepth ∧ Memory.read (running 0#3 [0x2F#8]).inBuf 0 = some 0x2F#8 ∧
    earlierBytes (running 0#3 [0x2F#8]) 0 = [] ∧
    hostMove (.writeIn 0 0x30#8) (running 0#3 [0x2F#8]) = .next (storeIn 0 0x30#8 (running 0#3 [0x2F#8])) :=
  ⟨rfl, by decide, by decide, rfl, rfl, rfl⟩

/-- Whatever the free choice is, the load of the byte just overwritten gives a byte. -/
theorem witness_OverwrittenInputLoadsOldOrNew_load :
    ∃ b u, loadIn 0 (storeIn 0 0x30#8 (running 0#3 [0x2F#8])) = .byte b u := by
  have e : earlierBytes (storeIn 0 0x30#8 (running 0#3 [0x2F#8])) 0 = [some 0x2F#8] := rfl
  have m : Memory.read (storeIn 0 0x30#8 (running 0#3 [0x2F#8])).inBuf 0 = some 0x30#8 := rfl
  unfold loadIn
  rw [e, m]
  rcases Nat.mod_two_eq_zero_or_one
    (Config.freeIndex (storeIn 0 0x30#8 (running 0#3 [0x2F#8])).draws) with h | h
  · exact ⟨0x30#8, _, by simp [pickByte, h, loadedAs]; rfl⟩
  · exact ⟨0x2F#8, _, by simp [pickByte, h, loadedAs]; rfl⟩

/-- A finished encode of one byte: the result is `02 2F`. -/
def finished : State := cobsFinalClose (scanByte 0x2F#8 (advance (running 0#3 [0x2F#8])))

theorem witness_OutputReadsReturnResultOrFreeValue :
    1 < outDepth finished.cfg ∧ finished.status = ⟨.done, .none⟩ ∧ 1 < finished.outLen ∧
    Memory.read finished.outBuf 1 = some 0x2F#8 ∧ 2 < outDepth finished.cfg ∧ finished.outLen ≤ 2 ∧
    0 < outDepth (running 0#3 []).cfg ∧ (running 0#3 []).status ≠ ⟨.done, .none⟩ := by decide

theorem witness_AccessPastABufferStops :
    (ready 0#3 []).cfg.inDepth ≤ 1023 ∧ outDepth (ready 0#3 []).cfg ≤ 1028 := by decide

theorem witness_CapacitiesFitTheirRegister : 1023 ≤ (Config.block 10).inMax ∧ (0 : Nat) < 1 := by decide

theorem witness_EncodeCapacityOperations :
    (ready 4#3 []).status.phase ≠ .busy ∧ (ready 4#3 []).opReg = 0b100#3 ∧ (ready 6#3 []).opReg = 0b110#3 := by
  decide

theorem witness_DecodeCapacityOperations :
    (ready 5#3 []).status.phase ≠ .busy ∧ (ready 5#3 []).opReg = 0b101#3 ∧ (ready 7#3 []).opReg = 0b111#3 := by
  decide

theorem holdsInput_running (op : BitVec 3) (xs : List Byte)
    (h : ∀ i < xs.length, Memory.read (cells 0 xs) i = xs[i]?) (ho : (running op xs).inBuf = cells 0 xs)
    (hn : (running op xs).nLatch = xs.length) (hv : (running op xs).overwritten = []) :
    holdsInput (running op xs) xs :=
  ⟨hn, fun i hi => ⟨by rw [ho]; exact h i hi, by simp [earlierBytes, hv]⟩⟩

/-- Ordinary data with a zero inside. -/
def data : List Byte := [0x11#8, 0x22#8, 0x00#8, 0x33#8]

theorem witness_CobsEncodeMatchesClosedForm :
    (running 0#3 data).cfg.forceAtEnd = false ∧ holdsInput (running 0#3 data) data :=
  ⟨rfl, holdsInput_running _ _ (by decide) rfl rfl rfl⟩

theorem witness_CobsrEncodeMatchesReducedForm :
    (running 2#3 data).cfg.forceAtEnd = false ∧ holdsInput (running 2#3 data) data ∧ substitutesOn data = true :=
  ⟨rfl, holdsInput_running _ _ (by decide) rfl rfl rfl, by decide⟩

/-- A state of the other reading of the forced close. -/
def forced (xs : List Byte) : State := { running 0#3 xs with cfg := { lenW := 10, forceAtEnd := true } }

theorem witness_ForcedCloseAtEndChangesOnlyFullLastRuns :
    (forced (List.replicate 254 1#8)).cfg.forceAtEnd = true ∧
    holdsInput (forced (List.replicate 254 1#8)) (List.replicate 254 1#8) ∧
    (forced data).cfg.forceAtEnd = true ∧ holdsInput (forced data) data :=
  ⟨rfl, holdsInput_running 0#3 _ (by decide +kernel) rfl rfl rfl, rfl,
      holdsInput_running 0#3 data (by decide) rfl rfl rfl⟩

theorem witness_ForcedCloseAtEndChangesOnlyFullLastRuns_runs :
    (lastRun (List.replicate 254 1#8) ≠ [] ∧ (lastRun (List.replicate 254 1#8)).length % 254 = 0) ∧
    (lastRun data).length % 254 ≠ 0 ∧ lastRun [0x00#8] = [] := by decide +kernel

theorem witness_EncodingNeverFails :
    holdsInput (running 0#3 []) [] ∧ (after (exec .cobsEnc (running 0#3 []))).isSome ∧
    (after (exec .cobsrEnc (running 2#3 data))).isSome :=
  ⟨holdsInput_running _ _ (by decide) rfl rfl rfl, by decide, by decide⟩

theorem witness_EncodedStreamsHoldNoZero : holdsInput (running 2#3 data) data :=
  holdsInput_running _ _ (by decide) rfl rfl rfl

theorem witness_CobsEncodeLengthBounds :
    holdsInput (running 0#3 data) data ∧ (running 0#3 data).cfg.forceAtEnd = false ∧ data ≠ [] ∧
    holdsInput (running 0#3 []) [] :=
  ⟨holdsInput_running _ _ (by decide) rfl rfl rfl, rfl, by decide, holdsInput_running _ _ (by decide) rfl rfl rfl⟩

theorem witness_CobsrNeverLongerThanCobs :
    (running 2#3 data).cfg.forceAtEnd = false ∧ holdsInput (running 2#3 data) data ∧ substitutesOn data = true ∧
    holdsInput (running 2#3 [0x01#8]) [0x01#8] ∧ substitutesOn [0x01#8] = false :=
  ⟨rfl, holdsInput_running _ _ (by decide) rfl rfl rfl, by decide,
    holdsInput_running _ _ (by decide) rfl rfl rfl, by decide⟩

theorem witness_UnwrittenInputStopsTheTransforms :
    (let s := launch { ready 0#3 [0x11#8] with inLen := 2 }
     1 < s.nLatch ∧ (∀ a < 2, earlierBytes s a = []) ∧ (∀ a < 1, Memory.read s.inBuf a ≠ none) ∧
      Memory.read s.inBuf 1 = none) ∧
    (let s := launch { ready 3#3 [0x11#8] with inLen := 2 }
     1 < s.nLatch ∧ (∀ a < 2, earlierBytes s a = []) ∧ Memory.read s.inBuf 0 = some 0x11#8 ∧
      Memory.read s.inBuf 1 = none) := by decide

/-- The tick of an encoder, of a decoder in `ReadCode` and of one in `CopyPayload` at a byte never written. -/
theorem witness_UnwrittenInputStopsTheTransforms_tick :
    (let s := launch { ready 0#3 [] with inLen := 1 }
     s.status.phase = .busy ∧ sizeBit s.opLatch = false ∧ dirBit s.opLatch = false ∧ s.work.src < s.nLatch ∧
      Memory.read s.inBuf s.work.src = none ∧ earlierBytes s s.work.src = []) ∧
    (let s := launch { ready 1#3 [] with inLen := 1 }
     s.status.phase = .busy ∧ sizeBit s.opLatch = false ∧ dirBit s.opLatch = true ∧ s.work.fsm = .readCode ∧
      s.work.src < s.nLatch ∧ Memory.read s.inBuf s.work.src = none ∧ earlierBytes s s.work.src = []) ∧
    (let s := acceptCode 0x02#8 (launch { ready 1#3 [0x02#8] with inLen := 2 })
     s.status.phase = .busy ∧ sizeBit s.opLatch = false ∧ dirBit s.opLatch = true ∧ s.work.fsm = .copyPayload ∧
      0 < s.work.k ∧ Memory.read s.inBuf s.work.src = none ∧ earlierBytes s s.work.src = []) := by decide

/-- A decode that ends although its input holds a byte never written: it fails before it comes to that byte. -/
theorem witness_UnwrittenInputStopsTheTransforms_decode :
    (let s := launch { ready 1#3 [0x00#8] with inLen := 2 }
     1 < s.nLatch ∧ (∀ a < 2, earlierBytes s a = []) ∧ Memory.read s.inBuf 1 = none ∧
      (after (exec .cobsDec s)).isSome ∧ (after (exec .cobsrDec s)).isSome) := by decide

/-- An encoder whose pending span holds 253 bytes. -/
def nearlyFull (n : Nat) : State :=
  { running 0#3 [0x2F#8] with
    nLatch := n, work := { Work.reset with dst := 254, searchLen := 254#8 } }

theorem witness_ScanPassClosesOrCopies :
    (let s := nearlyFull 2
     s.status.phase = .busy ∧ sizeBit s.opLatch = false ∧ dirBit s.opLatch = false ∧ s.cfg.forceAtEnd = false ∧
      s.work.codeIdx < s.work.dst ∧ Memory.read s.inBuf s.work.src = some 0x2F#8 ∧
      earlierBytes s s.work.src = [] ∧ s.work.searchLen + 1#8 = 255#8 ∧ s.work.src + 1 < s.nLatch) ∧
    (let s := nearlyFull 1
     s.work.src < s.nLatch ∧ s.work.searchLen + 1#8 = 255#8 ∧ s.work.src + 1 = s.nLatch ∧
      Memory.read s.inBuf s.work.src = some 0x2F#8 ∧ earlierBytes s s.work.src = []) ∧
    (let s := running 0#3 [0x00#8, 0x01#8]
     s.status.phase = .busy ∧ s.work.src < s.nLatch ∧ s.work.codeIdx < s.work.dst ∧
      Memory.read s.inBuf s.work.src = some 0x00#8 ∧ s.work.searchLen + 1#8 ≠ 255#8 ∧
      earlierBytes s s.work.src = []) := by decide

theorem witness_DecodersReadSpans :
    holdsInput (running 1#3 [0x02#8, 0x33#8]) [0x02#8, 0x33#8] ∧
    holdsInput (running 3#3 [0x33#8]) [0x33#8] ∧
    holdsInput (running 1#3 [0x33#8]) [0x33#8] :=
  ⟨holdsInput_running _ _ (by decide) rfl rfl rfl, holdsInput_running _ _ (by decide) rfl rfl rfl,
    holdsInput_running _ _ (by decide) rfl rfl rfl⟩

theorem witness_EmptyInputDecodesToEmpty : (running 1#3 []).nLatch = 0 ∧ (running 3#3 []).nLatch = 0 := by decide

theorem witness_TruncationIsReportedBeforeZero :
    holdsInput (running 1#3 [0x03#8, 0x00#8]) [0x03#8, 0x00#8] ∧
    holdsInput (running 1#3 [0x00#8, 0x00#8]) [0x00#8, 0x00#8] :=
  ⟨holdsInput_running _ _ (by decide) rfl rfl rfl, holdsInput_running _ _ (by decide) rfl rfl rfl⟩

theorem witness_FailureRecordsKindAndOffset :
    holdsInput (running 1#3 [0x03#8, 0x00#8]) [0x03#8, 0x00#8] ∧
    ((after (exec .cobsDec (running 1#3 [0x03#8, 0x00#8]))).map (·.status.err)) = some .shortInput ∧
    ((after (exec .cobsrDec (running 1#3 [0x03#8, 0x00#8]))).map (·.status.err)) = some .zeroByte :=
  ⟨holdsInput_running _ _ (by decide) rfl rfl rfl, by decide, by decide⟩

theorem witness_DecodersRejectZeroBytes : holdsInput (running 3#3 [0x02#8, 0x00#8]) [0x02#8, 0x00#8] :=
  holdsInput_running _ _ (by decide) rfl rfl rfl

theorem witness_CobsrDecodeExtendsCobsDecode :
    holdsInput (running 1#3 [0x02#8, 0x33#8]) [0x02#8, 0x33#8] ∧
    seen (exec .cobsDec (running 1#3 [0x02#8, 0x33#8])) = some (⟨.done, .none⟩, 0, 1, [0x33#8]) :=
  ⟨holdsInput_running _ _ (by decide) rfl rfl rfl, by decide⟩

theorem witness_DecodedLengthBounds : holdsInput (running 3#3 [0x05#8]) [0x05#8] :=
  holdsInput_running _ _ (by decide) rfl rfl rfl

theorem witness_CobsRoundTrip :
    holdsInput (running 0#3 data) data ∧ holdsInput (running 1#3 (cobsEncoding data)) (cobsEncoding data) :=
  ⟨holdsInput_running _ _ (by decide) rfl rfl rfl, holdsInput_running _ _ (by decide) rfl rfl rfl⟩

theorem witness_CobsrRoundTrip :
    holdsInput (running 2#3 data) data ∧ holdsInput (running 3#3 (cobsrEncoding data)) (cobsrEncoding data) :=
  ⟨holdsInput_running _ _ (by decide) rfl rfl rfl, holdsInput_running _ _ (by decide) rfl rfl rfl⟩

theorem witness_WrongDecoderNeverReturnsWrongData :
    (running 2#3 data).cfg.forceAtEnd = false ∧ holdsInput (running 2#3 data) data ∧ substitutesOn data = true ∧
    holdsInput (running 1#3 (cobsrEncoding data)) (cobsrEncoding data) ∧
    holdsInput (running 2#3 [0x01#8]) [0x01#8] ∧ substitutesOn [0x01#8] = false :=
  ⟨rfl, holdsInput_running _ _ (by decide) rfl rfl rfl, by decide, holdsInput_running _ _ (by decide) rfl rfl rfl,
    holdsInput_running _ _ (by decide) rfl rfl rfl, by decide⟩

/-- Two blocks of different history: a fresh one, and one whose last decode failed and whose input buffer is longer. -/
theorem witness_ResultDependsOnlyOnOperationAndInput :
    (let s := ready 0#3 data
     let s' := { failAt .zeroByte 3 (running 1#3 [0x09#8]) with opReg := 0#3, inLen := 4, inBuf := cells 0 (data ++ data) }
     s.status.phase ≠ .busy ∧ s'.status.phase ≠ .busy ∧ s.cfg.forceAtEnd = s'.cfg.forceAtEnd ∧
      s.opReg = s'.opReg ∧ s.inLen = data.length ∧ s'.inLen = data.length ∧
      ∀ i < data.length, Memory.read s.inBuf i = data[i]? ∧ Memory.read s'.inBuf i = data[i]?) := by decide

theorem witness_TransformFrame :
    (after (exec .cobsrEnc (running 2#3 data))).isSome ∧ (after (exec .cobsDec (running 1#3 data))).isSome := by
  decide

theorem witness_CobsLengthCodeAccepted :
    (3#8).toNat - 1 ≤ (running 1#3 [0x03#8, 0x11#8, 0x22#8]).nLatch -
      ((running 1#3 [0x03#8, 0x11#8, 0x22#8]).work.src + 1) ∧
    (255#8).toNat - 1 ≤ (nearlyFull 255).nLatch - ((nearlyFull 255).work.src + 1) := by decide

theorem witness_CobsShortSpanFails :
    (running 1#3 [0x03#8, 0x11#8]).nLatch - ((running 1#3 [0x03#8, 0x11#8]).work.src + 1) < (3#8).toNat - 1 ∧
    (nearlyFull 254).nLatch - ((nearlyFull 254).work.src + 1) < (255#8).toNat - 1 := by decide

theorem witness_CobsrLengthCodeAccepted :
    (∃ i c, (i = Instr.lcFullCobsrDec ∧ c = 255#8) ∨ (i = .lcSpanCobsrDec c ∧ c ≠ 0#8 ∧ c ≠ 255#8)) ∧
    (254#8 ≠ 0#8 ∧ 254#8 ≠ 255#8) := ⟨⟨.lcFullCobsrDec, 255#8, .inl ⟨rfl, rfl⟩⟩, by decide⟩

theorem witness_PayloadByteIsCopied : (1#8 : Byte) ≠ 0#8 := by decide

/-- A running decoder at a point of its machine. -/
def decoderAt (f : Fsm) (src k n : Nat) (short : Bool) (c : Byte) : State :=
  { running 3#3 [] with nLatch := n, work := { Work.reset with src := src, k := k, short := short, c := c, fsm := f } }

/-- T1, T8, T7, T10, T9 and T11 in this order. -/
theorem witness_DecodeMachineInternalTransitions :
    (let s := decoderAt .readCode 0 0 0 false 0#8
     s.status.phase = .busy ∧ sizeBit s.opLatch = false ∧ dirBit s.opLatch = true ∧
      s.work.fsm = .readCode ∧ s.work.src = s.nLatch) ∧
    (let s := decoderAt .copyPayload 2 0 2 false 2#8
     s.work.fsm = .copyPayload ∧ s.work.k = 0 ∧ s.work.short = false ∧ s.work.src = s.nLatch) ∧
    (let s := decoderAt .copyPayload 1 0 1 true 5#8
     s.work.fsm = .copyPayload ∧ s.work.k = 0 ∧ s.work.short = true) ∧
    (let s := decoderAt .copyPayload 1 0 2 false 1#8
     s.work.fsm = .copyPayload ∧ s.work.k = 0 ∧ s.work.short = false ∧ s.work.src < s.nLatch ∧
      s.work.c ≠ 255#8) ∧
    (let s := decoderAt .copyPayload 255 0 256 false 255#8
     s.work.fsm = .copyPayload ∧ s.work.k = 0 ∧ s.work.short = false ∧ s.work.src < s.nLatch ∧
      s.work.c = 255#8) ∧
    (decoderAt .emitSeparator 1 0 2 false 1#8).work.fsm = .emitSeparator := by decide

theorem witness_StepwiseDecodeEqualsAtomic :
    (running 3#3 data).status.phase = .busy ∧ (running 3#3 data).opLatch = 0b011#3 ∧
    (running 3#3 data).work.src = 0 ∧ (running 3#3 data).work.dst = 0 ∧
    (running 3#3 data).work.fsm = .readCode ∧ holdsInput (running 3#3 data) data :=
  ⟨rfl, rfl, rfl, rfl, rfl, holdsInput_running _ _ (by decide) rfl rfl rfl⟩

theorem witness_StepwiseEncodeEqualsAtomic :
    (running 2#3 data).status.phase = .busy ∧ (running 2#3 data).opLatch = 0b010#3 ∧
    (running 2#3 data).work.src = 0 ∧ (running 2#3 data).work.codeIdx = 0 ∧ (running 2#3 data).work.dst = 1 ∧
    (running 2#3 data).work.searchLen = 1#8 ∧ holdsInput (running 2#3 data) data :=
  ⟨rfl, rfl, rfl, rfl, rfl, rfl, holdsInput_running _ _ (by decide) rfl rfl rfl⟩

theorem witness_RunningOperationFinishes :
    (running 0#3 [0x2F#8]).status.phase = .busy ∧ holdsInput (running 0#3 [0x2F#8]) [0x2F#8] ∧
    (running 0#3 [0x2F#8]).agenda = [] ∧ Inv (running 0#3 [0x2F#8]) := by
  refine ⟨rfl, holdsInput_running _ _ (by decide) rfl rfl rfl, rfl, ?_⟩
  constructor
  case running =>
    intro _
    exact ⟨by decide, by decide, by decide, by decide, by decide, by decide, by decide⟩
  all_goals decide

/-- From each phase a step into the phase that the statement speaks of. -/
theorem witness_PhaseChanges :
    ((after (step (atTurn (.host .reset) (running 0#3 [])))).map (·.status.phase)) = some .idle ∧
    ((after (step (atTurn (.host (.writeReg 0 1)) (ready 0#3 [])))).map (·.status.phase)) = some .busy ∧
    ((after (step (running 0#3 []))).map (·.status.phase)) = some .done := by decide

theorem witness_ResultsPersistUntilStartOrReset :
    finished.status.phase = .done ∧ nextTurn (atTurn (.host (.writeReg 1 5)) finished) = some (.host (.writeReg 1 5)) ∧
    (after (step (atTurn (.host (.writeReg 1 5)) finished))).isSome := by decide

theorem witness_OnlyTheHostChangesItsRegistersAndInput :
    (after (step (running 0#3 data))).isSome ∧ nextTurn (running 0#3 data) = none := by decide

theorem witness_BusyReadsShowNoResult :
    Inv (running 4#3 [0x2F#8]) ∧ (running 4#3 [0x2F#8]).status.phase = .busy := by
  refine ⟨?_, rfl⟩
  constructor
  case running => intro _; exact trivial
  all_goals decide

/-! A whole `CALL` as a script (30_encoding.md R72): the turns that 95_test_vectors.md's programs are made of. -/

theorem test_call_script :
    ((after (exec .start (ready 0#3 [0x2F#8]))).map fun t => t.opLatch) = some 0#3 ∧
    scriptCall .cobsEnc [0x2F#8] =
      [.host (.writeIn 0 0x2F#8), .host (.writeReg 2 1), .host (.writeReg 1 0), .host (.writeReg 0 1), .await] := by
  decide

end Sys2Proof.Tests
end

section
/-! SUPPORT. The family of 10_state.md: what START and reset leave, what the HOST's register moves do, and that the
results of an operation are a function of `OP`, `IN_LEN` and the input bytes (R27). -/

namespace Sys2Proof.Machine

/-! START. -/

/-- 45_control.md R130: in `IDLE` and `DONE` the command is accepted. -/
theorem execStart_not_busy {s : State} (h : s.status.phase ≠ .busy) : exec .start s = .next (launch s) := by
  change execStart s = _
  unfold execStart
  split
  · next hb => exact absurd hb h
  · rfl
  · rfl

@[simp] theorem launch_cfg (s : State) : (launch s).cfg = s.cfg := by rw [launch_frame]
@[simp] theorem launch_opLatch (s : State) : (launch s).opLatch = s.opReg := congrArg State.opLatch (launch_frame s)
@[simp] theorem launch_nLatch (s : State) : (launch s).nLatch = s.inLen := congrArg State.nLatch (launch_frame s)
@[simp] theorem launch_status (s : State) : (launch s).status = ⟨.busy, .none⟩ :=
  congrArg State.status (launch_frame s)
@[simp] theorem launch_errOffset (s : State) : (launch s).errOffset = 0 := congrArg State.errOffset (launch_frame s)
@[simp] theorem launch_cap (s : State) : (launch s).cap = capFor s.opReg s.inLen :=
  congrArg State.cap (launch_frame s)
@[simp] theorem launch_inBuf (s : State) : (launch s).inBuf = s.inBuf := by rw [launch_frame]
@[simp] theorem launch_outBuf (s : State) : (launch s).outBuf = [] := congrArg State.outBuf (launch_frame s)
@[simp] theorem launch_overwritten (s : State) : (launch s).overwritten = [] :=
  congrArg State.overwritten (launch_frame s)

/-- 40_cobs_encode.md R81: the first lines of an encoder. -/
theorem launch_work_encoder {s : State} (hz : sizeBit s.opReg = false) (hd : dirBit s.opReg = false) :
    (launch s).work = { s.work with src := 0, codeIdx := 0, dst := 1, searchLen := 1#8 } := by
  simp [launch, initWork, hz, hd]

/-- 41_cobs_decode.md R90: the first line of a decoder, and `ReadCode` of R92. -/
theorem launch_work_decoder {s : State} (hz : sizeBit s.opReg = false) (hd : dirBit s.opReg = true) :
    (launch s).work = { s.work with src := 0, dst := 0, fsm := .readCode } := by
  simp [launch, initWork, hz, hd]

@[simp] theorem earlierBytes_launch (s : State) (i : Nat) : earlierBytes (launch s) i = [] := by
  simp [earlierBytes]

/-- The input buffer of a launched operation holds its input, none of it overwritten (R181). -/
theorem holdsInput_launch {s : State} {xs : List Byte} (hn : s.inLen = xs.length)
    (hx : ∀ i < xs.length, Memory.read s.inBuf i = xs[i]?) : holdsInput (launch s) xs :=
  ⟨by simpa using hn, fun i hi => ⟨by simpa using hx i hi, earlierBytes_launch s i⟩⟩

/-! The ENGINE outside `BUSY`. -/

theorem engineTick_not_busy {s : State} (h : s.status.phase ≠ .busy) : engineTick s = .next s := by
  unfold engineTick
  split
  · rfl
  · rfl
  · next hb => exact absurd hb h

theorem engineRun_not_busy {s : State} (h : s.status.phase ≠ .busy) : engineRun s = .next s := by
  unfold engineRun
  split
  · rfl
  · rfl
  · next hb => exact absurd hb h

theorem engineRun_busy {s : State} (h : s.status.phase = .busy) : engineRun s = exec (selected s) s := by
  unfold engineRun
  rw [h]

/-! What a whole operation makes of a written input. -/

/-- What a finished operation shows of an outcome of the closed forms: the data, or the error and its offset. -/
def showsResult (s : State) : Except (Err × Nat) (List Byte) → Prop
  | .ok ys => succeedsWith s ys
  | .error e => failsWith s e.1 e.2

/-- 42_cobsr_encode.md R100: the final close of `COBSR.ENC` over sequences: with the substitution the last byte takes
the place of the last code and is itself dropped. -/
def closeScanReduced (last : Byte) (CP : List Byte × List Byte) : List Byte :=
  if BitVec.ofNat 8 (CP.2.length + 1) ≤ last then (CP.1 ++ last :: CP.2).dropLast else closeScan CP

/-- The result of each operation as a function of its input; a sizing operation has no output. -/
def resultOf (force : Bool) (xs : List Byte) : Instr → Except (Err × Nat) (List Byte)
  | .cobsEnc => .ok (closeScan (scanList force xs [] []))
  | .cobsDec => decoding .cobs xs
  | .cobsrEnc => .ok (closeScanReduced (lastByteOf xs) (scanList force xs [] []))
  | .cobsrDec => decoding .cobsr xs
  | _ => .ok []

/-- `COBS.ENC` on a written input. -/
theorem execCobsEnc_succeeds {s : State} {xs : List Byte} (h : holdsInput s xs) :
    ∃ t, execCobsEnc s = .next t ∧ succeedsWith t (closeScan (scanList s.cfg.forceAtEnd xs [] [])) := by
  obtain ⟨t, hscan, hrep, -⟩ := encScan_spec h
  exact ⟨cobsFinalClose t, by rw [execCobsEnc, hscan]; rfl, cobsFinalClose_spec hrep⟩

/-- The final close of `COBSR.ENC` once `last_byte` is known (R100). -/
theorem cobsrCloseWith_spec {s : State} {C P : List Byte} (h : ScanRep s C P) (last : Byte) :
    succeedsWith (cobsrCloseWith last s) (closeScanReduced last (C, P)) := by
  have hsub : substitutes (setWork { s.work with lastByte := last } s) =
      decide (BitVec.ofNat 8 (P.length + 1) ≤ last) := by
    simp [substitutes, h.count]
  unfold cobsrCloseWith closeScanReduced
  simp only [hsub, decide_eq_true_eq]
  split
  · refine ⟨rfl, by simp [h.dst], fun j hj => ?_⟩
    have hlen : j < (C ++ last :: P).length - 1 := by simpa using hj
    rw [List.getElem?_dropLast, if_pos hlen, ← (h.close last).closed j (by omega)]
    simp
  · exact cobsFinalClose_spec (s := setWork { s.work with lastByte := last } s)
      ⟨h.slot, h.dst, h.count, h.closed, h.pending⟩

/-- `last_byte` of a written input (R100): 0 for the empty one, else the byte loaded from `IN[n - 1]`. -/
theorem cobsrFinalClose_eq {s : State} {xs : List Byte} (h : holdsInput s xs) :
    cobsrFinalClose s = .ended (cobsrCloseWith (lastByteOf xs) s) := by
  unfold cobsrFinalClose
  rw [h.1]
  split
  · next h0 =>
    obtain rfl := List.eq_nil_of_length_eq_zero h0
    rfl
  · next h0 =>
    obtain ⟨hread, hold⟩ := h.2 (xs.length - 1) (by omega)
    have hlast : xs[xs.length - 1]? = some (lastByteOf xs) := by
      rw [← List.getLast?_eq_getElem?, lastByteOf, List.getLastD_eq_getLast?,
        List.getLast?_eq_some_getLast (by rintro rfl; exact h0 rfl), Option.getD_some]
    exact withInput_held _ (hread.trans hlast) hold

/-- `COBSR.ENC` on a written input. -/
theorem execCobsrEnc_succeeds {s : State} {xs : List Byte} (h : holdsInput s xs) :
    ∃ t, execCobsrEnc s = .next t ∧
      succeedsWith t (closeScanReduced (lastByteOf xs) (scanList s.cfg.forceAtEnd xs [] [])) := by
  obtain ⟨t, hscan, hrep, -, hframe, -⟩ := encScan_spec h
  have ht : holdsInput t xs := by rw [hframe]; exact h
  refine ⟨cobsrCloseWith (lastByteOf xs) t, ?_, cobsrCloseWith_spec hrep _⟩
  rw [execCobsrEnc, hscan, Flow.andThen_go, cobsrFinalClose_eq ht]
  rfl

/-- Either decoder on a written input: the input loop and the completion. -/
theorem decoder_showsResult (d : Decoder) {s : State} {xs : List Byte} (h : holdsInput s xs) :
    ∃ t, ((whileInput (spanOf d) s.nLatch (initDec s)).andThen fun t => .ended (decComplete t)).outcome = .next t ∧
      showsResult t (decoding d xs) := by
  have hloop := decLoop_spec d xs.length (s := initDec s) (h.restIs rfl rfl rfl rfl) (initDec_rep s) (Nat.le_refl _)
  rw [initDec_work] at hloop
  rw [h.1, decoding]
  cases hdec : decodeSpans d xs.length 0 xs with
  | ok ys =>
    rw [hdec] at hloop
    obtain ⟨t, hrun, hrep, -⟩ := hloop
    exact ⟨decComplete t, by rw [hrun]; rfl, rfl, hrep.dst, hrep.data⟩
  | error e =>
    rw [hdec] at hloop
    obtain ⟨t, hrun, hfail, -⟩ := hloop
    exact ⟨t, by rw [hrun]; rfl, hfail⟩

/-- The selected operation completes on a written input with the result that its closed form gives. -/
theorem exec_selected_showsResult {s : State} {xs : List Byte} (h : holdsInput s xs) :
    ∃ t, exec (selected s) s = .next t ∧ showsResult t (resultOf s.cfg.forceAtEnd xs (selected s)) := by
  unfold selected decodeOp3
  split
  · exact execCobsEnc_succeeds h
  · exact decoder_showsResult .cobs h
  · exact execCobsrEnc_succeeds h
  · exact decoder_showsResult .cobsr h
  all_goals exact ⟨completeSizing s, rfl, rfl, rfl, fun j hj => absurd hj (Nat.not_lt_zero j)⟩

/-- A success leaves `ERR_OFFSET` as START set it. -/
theorem exec_selected_errOffset {s t : State} (ht : exec (selected s) s = .next t) (he : t.status.err = .none) :
    t.errOffset = s.errOffset := by
  unfold selected decodeOp3 at ht
  split at ht
  · exact ((encoders_finished.1 ht).2.2 he).1
  · exact ((decoders_finished (.inl ht)).2.2 he).1
  · exact ((encoders_finished.2 ht).2.2 he).1
  · exact ((decoders_finished (.inr ht)).2.2 he).1
  all_goals cases ht; rfl

/-- 10_state.md R27: an operation launched on a written input completes, and all it shows is given by the selector,
`FORCE_AT_END` and the input. -/
theorem engineRun_launch {s : State} {xs : List Byte} (hn : s.inLen = xs.length)
    (hx : ∀ i < xs.length, Memory.read s.inBuf i = xs[i]?) :
    ∃ u, engineRun (launch s) = .next u ∧ u.cap = capFor s.opReg xs.length ∧
      showsResult u (resultOf s.cfg.forceAtEnd xs (decodeOp3 s.opReg)) ∧ (u.status.err = .none → u.errOffset = 0) := by
  obtain ⟨u, hrun, hres⟩ := exec_selected_showsResult (holdsInput_launch hn hx)
  rw [selected, launch_opLatch, launch_cfg] at hres
  have hcap : u.cap = (launch s).cap := by rw [(run_done hrun).1]
  refine ⟨u, by rw [engineRun_busy (by simp), hrun], by rw [hcap, launch_cap, hn], hres, fun he => ?_⟩
  rw [exec_selected_errOffset hrun he, launch_errOffset]

/-- Two finished operations that show one result look alike to the HOST (70_reset_and_hazards.md R189). -/
theorem sameObservation_of_showsResult {u u' : State} {r : Except (Err × Nat) (List Byte)} (h : showsResult u r)
    (h' : showsResult u' r) (hcap : u.cap = u'.cap) (he : u.status.err = .none → u.errOffset = 0)
    (he' : u'.status.err = .none → u'.errOffset = 0) : sameObservation u u' := by
  cases r with
  | ok ys =>
    obtain ⟨hst, hlen, hout⟩ := h
    obtain ⟨hst', hlen', hout'⟩ := h'
    refine ⟨hst.trans hst'.symm, ?_, hcap, hlen.trans hlen'.symm, fun j hj => ?_⟩
    · rw [he (by rw [hst]), he' (by rw [hst'])]
    · rw [hlen] at hj
      rw [hout j hj, hout' j hj]
  | error e =>
    obtain ⟨hst, hoff, hlen, -⟩ := h
    obtain ⟨hst', hoff', hlen', -⟩ := h'
    refine ⟨hst.trans hst'.symm, hoff.trans hoff'.symm, hcap, hlen.trans hlen'.symm, fun j hj => ?_⟩
    rw [hlen] at hj
    exact absurd hj (Nat.not_lt_zero j)

/-- Settles O45: both runs show the result that `resultOf` gives for the one selector and input. -/
theorem resultDependsOnlyOnOperationAndInput : Obligations.ResultDependsOnlyOnOperationAndInput := by
  intro s s' xs hb hb' hforce hop hn hn' hx
  obtain ⟨u, hrun, hcap, hres, he⟩ := engineRun_launch hn fun i hi => (hx i hi).1
  obtain ⟨u', hrun', hcap', hres', he'⟩ := engineRun_launch hn' fun i hi => (hx i hi).2
  rw [← hforce, ← hop] at hres'
  exact ⟨launch s, launch s', u, u', execStart_not_busy hb, execStart_not_busy hb', hrun, hrun',
    sameObservation_of_showsResult hres hres' (by rw [hcap, hcap', hop]) he he'⟩

/-! What a step leaves unchanged. -/

/-- Settles O58, by the cases of a step: in `DONE` it is a turn gone, a poll, or a HOST move, and of the HOST's moves
only START and reset touch the results. -/
theorem resultsPersistUntilStartOrReset : Obligations.ResultsPersistUntilStartOrReset := by
  intro s t hdone hstart hreset ht
  rcases step_cases ht with ⟨a, -, h | h⟩ | ⟨a, hb, -⟩ | ⟨m, rest, hm, hmove⟩
  · rw [h]; exact ⟨rfl, rfl, rfl, rfl, rfl⟩
  · rw [h]; exact ⟨rfl, rfl, rfl, rfl, rfl⟩
  · rw [hdone] at hb; cases hb
  · rcases host_cases hmove with h | ⟨i, b, -, h⟩ | ⟨v, -, h⟩ | ⟨v, -, h⟩ | ⟨v, rfl, hv, -⟩ | ⟨rfl, -⟩
    · rw [h]; exact ⟨rfl, rfl, rfl, rfl, rfl⟩
    · rw [h]; exact ⟨rfl, rfl, rfl, rfl, rfl⟩
    · rw [h]; exact ⟨rfl, rfl, rfl, rfl, rfl⟩
    · rw [h]; exact ⟨rfl, rfl, rfl, rfl, rfl⟩
    · exact absurd ⟨v, hm, hv⟩ hstart
    · exact absurd hm hreset

/-- What the HOST alone decides: the parameters, `IN_BUF`, `OP` and `IN_LEN`. -/
def hostSide (s : State) : Config × Memory × BitVec 3 × Nat := (s.cfg, s.inBuf, s.opReg, s.inLen)

/-- Settles O59, by the cases of a step: a piece of an operation, a poll and START leave the HOST's side as it is, and
each of the HOST's writes changes its own part of it. -/
theorem onlyTheHostChangesItsRegistersAndInput : Obligations.OnlyTheHostChangesItsRegistersAndInput := by
  intro s t ht
  have kept (h : hostSide t = hostSide s) : t.cfg = s.cfg ∧ (¬ isResetTurn s →
      ((∀ i b, nextTurn s ≠ some (.host (.writeIn i b))) → t.inBuf = s.inBuf) ∧
      ((∀ v, nextTurn s ≠ some (.host (.writeReg 1 v))) → t.opReg = s.opReg) ∧
      ((∀ v, nextTurn s ≠ some (.host (.writeReg 2 v))) → t.inLen = s.inLen)) := by
    simp only [hostSide, Prod.mk.injEq] at h
    obtain ⟨hcfg, hin, hop, hlen⟩ := h
    exact ⟨hcfg, fun _ => ⟨fun _ => hin, fun _ => hop, fun _ => hlen⟩⟩
  rcases step_cases ht with ⟨a, -, h | h⟩ | ⟨a, -, h, -⟩ | ⟨m, rest, hm, hmove⟩
  · exact kept (by rw [h]; rfl)
  · exact kept (by rw [h]; rfl)
  · exact kept (by rw [h]; rfl)
  · rcases host_cases hmove with h | ⟨i, b, rfl, h⟩ | ⟨v, rfl, h⟩ | ⟨v, rfl, h⟩ | ⟨v, -, -, -, h⟩ | ⟨rfl, h⟩
    · exact kept (by rw [h]; rfl)
    · rw [h]; exact ⟨rfl, fun _ => ⟨fun hi => absurd hm (hi i b), fun _ => rfl, fun _ => rfl⟩⟩
    · rw [h]; exact ⟨rfl, fun _ => ⟨fun _ => rfl, fun hv => absurd hm (hv v), fun _ => rfl⟩⟩
    · rw [h]; exact ⟨rfl, fun _ => ⟨fun _ => rfl, fun _ => rfl, fun hv => absurd hm (hv v)⟩⟩
    · exact kept (by rw [h, launch_frame]; rfl)
    · rw [h]; exact ⟨rfl, fun hr => absurd hm hr⟩

/-- Settles O8: the phase is `IDLE` or `DONE`, where neither engine turn has a move. -/
theorem engineHasNoMoveUnlessBusy : Obligations.EngineHasNoMoveUnlessBusy := fun s h =>
  ⟨engineTick_not_busy h, engineRun_not_busy h, fun ha => by
    unfold step
    rw [ha]
    exact engineRun_not_busy h⟩

/-! Reset. -/

/-- 10_state.md R28: after reset every register number reads 0. -/
@[simp] theorem regValue_resetFor (c : Config) (r : Nat) : regValue (State.resetFor c) r = 0 := by
  unfold regValue
  split <;> rfl

/-- Settles O9: the registers by number, and both buffers empty. -/
theorem resetLeavesSpecValues : Obligations.ResetLeavesSpecValues :=
  ⟨rfl, fun c => ⟨rfl, rfl, regValue_resetFor c, fun _ => ⟨rfl, rfl⟩⟩⟩

/-- A register read of a block just reset does not see the fields that a reset move keeps. -/
theorem regValue_resetMove (s : State) (r : Nat) : regValue (resetMove s) r = 0 :=
  regValue_resetFor s.cfg r

/-- Settles O10: the reset move gives the values of R28, and the operation launched next is `COBS.ENC` on the empty
input. -/
theorem resetAbandonsAndStartEncodesEmpty : Obligations.ResetAbandonsAndStartEncodesEmpty := by
  intro s
  obtain ⟨v, hrun, hcap, hres, he⟩ := engineRun_launch (s := resetMove s) (xs := []) rfl
    fun i hi => absurd hi (Nat.not_lt_zero i)
  have hop : decodeOp3 (resetMove s).opReg = .cobsEnc := show decodeOp3 0#3 = .cobsEnc by decide
  have hidle : (resetMove s).status = ⟨.idle, .none⟩ := rfl
  have hone : capFor (resetMove s).opReg 0 = 1 := show capFor 0#3 0 = 1 by decide
  rw [hop] at hres
  have hsucc : succeedsWith v [1#8] := hres
  exact ⟨resetMove s, launch (resetMove s), v, rfl, hidle, rfl, regValue_resetMove s, fun _ => rfl,
    outputUnspecified_of_status (by simp [hidle]), execStart_not_busy (by simp [hidle]),
    (launch_cap _).trans hone, hrun, hsucc, hcap.trans hone, he (by rw [hsucc.1])⟩

/-- Settles O11: nothing runs, nothing is stored, and every register is 0. -/
theorem invHoldsAtReset : Obligations.InvHoldsAtReset := by
  intro c hc
  constructor
  case lenW_pos => exact hc
  all_goals simp [State.resetFor]

/-- Settles O14: outside `BUSY` START is `launch`, which empties `OUT_BUF` and the record of overwritten input. -/
theorem startInitialisesWorkingRegisters : Obligations.StartInitialisesWorkingRegisters := fun s h =>
  ⟨launch s, execStart_not_busy h, launch_work_encoder, launch_work_decoder, earlierBytes_launch s, fun j => by simp⟩

/-! The HOST's register moves. -/

/-- Settles O15: `OP` keeps three bits, and `IN_LEN` keeps `LEN_W` bits, which is the whole of a value up to
`IN_MAX`. -/
theorem hostWritesSetOnlyTheirRegister : Obligations.HostWritesSetOnlyTheirRegister := by
  intro s v
  have hop : (BitVec.ofNat 3 v).toNat = v % 8 := BitVec.toNat_ofNat v 3
  have hfits (hv : v ≤ s.cfg.inMax) : v % 2 ^ s.cfg.lenW = v := by
    have := Nat.two_pow_pos s.cfg.lenW
    exact Nat.mod_eq_of_lt (by unfold Config.inMax at hv; omega)
  exact ⟨⟨{ s with opReg := BitVec.ofNat 3 v }, rfl, rfl, hop, hop⟩,
    { s with inLen := v % 2 ^ s.cfg.lenW }, rfl, rfl, rfl, hfits⟩

/-- R11: a write of register 3 or above keeps nothing. -/
theorem writeRegister_readOnly {r : Nat} (h : 3 ≤ r) (v : Nat) (s : State) : writeRegister r v s = .next s := by
  obtain ⟨k, rfl⟩ := Nat.exists_eq_add_of_le' h
  rfl

/-- R11: `CTRL` and the numbers above 6 read 0. -/
theorem regValue_unknown (s : State) {r : Nat} (h : 7 ≤ r ∨ r = 0) : regValue s r = 0 := by
  rcases h with h | rfl
  · obtain ⟨k, rfl⟩ := Nat.exists_eq_add_of_le' h
    rfl
  · rfl

/-- Settles O16: the catch-all cases of the register numbers, and the write port that `OUT_BUF` does not have. -/
theorem readOnlyAndUnknownRegisters : Obligations.ReadOnlyAndUnknownRegisters := fun s r v =>
  ⟨fun h => writeRegister_readOnly h v s, fun h => ⟨returned (regValue s r) s, rfl, regValue_unknown s h⟩,
    fun _ hv => if_pos hv⟩

/-- R19: the number of a `STATUS` word. -/
theorem statusWord_toNat (t : Status) : (statusWord t).toNat = phaseCode t.phase + 4 * errCode t.err := by
  obtain ⟨p, e⟩ := t
  cases p <;> cases e <;> rfl

/-- The fields of the `STATUS` word, as numbers. -/
theorem statusWord_fields (t : Status) : (statusWord t).toNat < 16 ∧ (statusWord t).toNat % 4 = phaseCode t.phase ∧
    (statusWord t).toNat / 4 = errCode t.err := by
  have hp : phaseCode t.phase ≤ 2 := by cases t.phase <;> decide
  have he : errCode t.err ≤ 2 := by cases t.err <;> decide
  rw [statusWord_toNat]
  omega

/-- Settles O18: each register by its number, and `STATUS` by its two fields. -/
theorem registerReadsReturnTheRegister : Obligations.RegisterReadsReturnTheRegister := by
  intro s r
  refine ⟨returned (regValue s r) s, rfl, ?_, ?_, ?_, ?_, ?_, ?_⟩
  case refine_6 =>
    rintro rfl
    obtain ⟨hlt, hphase, herr⟩ := statusWord_fields s.status
    have hstate {p : Phase} (h : s.status.phase = p) : (statusWord s.status).toNat % 4 = phaseCode p := h ▸ hphase
    have hkind {e : Err} (h : s.status.err = e) : (statusWord s.status).toNat / 4 = errCode e := h ▸ herr
    exact ⟨hlt, hstate, hstate, hstate, hkind, hkind, hkind⟩
  all_goals rintro rfl; rfl

end Sys2Proof.Machine
end

section
/-! SUPPORT. The family of 20_memory.md: every step keeps the invariant, what a transform leaves unchanged, and what the
HOST's reads and writes of the two buffers can see and change. -/

namespace Sys2Proof.Machine

/-! The invariant along a step. -/

/-- The turns still to come are no part of the invariant. -/
theorem Inv.with_agenda {s : State} (h : Inv s) (a : List Turn) : Inv { s with agenda := a } := h.congr rfl

/-- What the HOST has read is no part of the invariant. -/
theorem Inv.returned {s : State} (h : Inv s) (v : Nat) : Inv (returned v s) := h.congr rfl

/-- Settles O12, by the turn that the step takes: each kind of turn keeps the invariant, and taking the turn off the
agenda does. -/
theorem stepKeepsInv : Obligations.StepKeepsInv := by
  intro s t h ht
  unfold step at ht
  split at ht
  · exact engineRun_inv h ht
  · next m rest _ => exact hostMove_inv (h.with_agenda rest) ht
  · next rest _ => exact engineTick_inv (h.with_agenda rest) ht
  · next rest _ => exact engineRun_inv (h.with_agenda rest) ht
  · next rest _ =>
    split at ht
    · exact engineRun_inv h ht
    · cases ht; exact h.returned _
    · cases ht; exact (h.with_agenda rest).returned _

/-- R19 to R22: while `BUSY` there is no error and no result yet, and `CAP` is that of the latched operation. -/
theorem Inv.busy {s : State} (h : Inv s) (hb : s.status.phase = .busy) : s.status = ⟨.busy, .none⟩ ∧ s.outLen = 0 ∧
    s.errOffset = 0 ∧ s.cap = capFor s.opLatch s.nLatch := by
  obtain ⟨herr, hlen⟩ := h.not_done (by simp [hb])
  exact ⟨congrArg₂ Status.mk hb herr, hlen, h.no_error herr, h.cap_latched (by simp [hb])⟩

/-- Settles O60: the registers of a `BUSY` block by their numbers. -/
theorem busyReadsShowNoResult : Obligations.BusyReadsShowNoResult := by
  intro s h hb
  obtain ⟨hstatus, hlen, hoff, hcap⟩ := h.busy hb
  exact ⟨show (statusWord s.status).toNat = 1 by rw [hstatus, statusWord_toNat]; rfl, hlen, hoff, hcap⟩

/-! What a transform leaves unchanged. -/

/-- Settles O46: each transform is `Finished` in the state it gives, and only `COBSR.ENC` may leave the last byte it
stored outside the result. -/
theorem transformFrame : Obligations.TransformFrame := by
  intro i hi s t ht
  have hfinished : Finished (decide (i = .cobsrEnc)) s t := by
    rcases hi with rfl | rfl | rfl | rfl
    · exact encoders_finished.1 ht
    · exact decoders_finished (.inl ht)
    · exact encoders_finished.2 ht
    · exact decoders_finished (.inr ht)
  simpa only [Finished, decide_eq_true_eq] using hfinished

/-! The HOST's access to the buffers. -/

/-- R134: a write of a byte of `IN_BUF` that exists. -/
theorem hostMove_writeIn {i : Nat} {s : State} (b : Byte) (hi : i < s.cfg.inDepth) :
    hostMove (.writeIn i b) s = .next (storeIn i b s) := if_pos hi

/-- R134: a read of a byte of `IN_BUF` that exists. -/
theorem hostMove_readIn {i : Nat} {s : State} (hi : i < s.cfg.inDepth) :
    hostMove (.readIn i) s = .next (fetchIn i s) := if_pos hi

/-- Settles O22: the failing side of each access's bound. -/
theorem accessPastABufferStops : Obligations.AccessPastABufferStops := fun _ _ _ =>
  ⟨fun h => ⟨if_neg (Nat.not_lt.2 h), if_neg (Nat.not_lt.2 h)⟩,
    fun h => ⟨if_neg (Nat.not_lt.2 h), if_neg (Nat.not_lt.2 h)⟩⟩

/-- 20_memory.md R44: a read of `IN_BUF` sets what the HOST has read, also where the byte was never written. -/
theorem fetchIn_frame (i : Nat) (s : State) : fetchIn i s = returned (fetchIn i s).lastRead s := by
  unfold fetchIn
  split <;> rfl

@[simp] theorem fetchIn_cfg (i : Nat) (s : State) : (fetchIn i s).cfg = s.cfg := by rw [fetchIn_frame]; rfl
@[simp] theorem fetchIn_draws (i : Nat) (s : State) : (fetchIn i s).draws = s.draws := by rw [fetchIn_frame]; rfl

/-- A read of `IN_BUF` does not see what the HOST has read before. -/
theorem fetchIn_returned (i v : Nat) (s : State) : fetchIn i (returned v s) = fetchIn i s := rfl

/-- R44: a read of `IN_BUF` made again gives the same state. -/
theorem fetchIn_fetchIn (i : Nat) (s : State) : fetchIn i (fetchIn i s) = fetchIn i s :=
  calc fetchIn i (fetchIn i s)
    _ = fetchIn i (returned (fetchIn i s).lastRead s) := congrArg (fetchIn i) (fetchIn_frame i s)
    _ = fetchIn i s := fetchIn_returned i _ s

/-- A read of `OUT_BUF` sets what the HOST has read and draws a free value at most. -/
theorem fetchOut_frame (j : Nat) (s : State) :
    fetchOut j s = { s with lastRead := (fetchOut j s).lastRead, draws := (fetchOut j s).draws } := by
  unfold fetchOut
  split
  · split <;> rfl
  · rfl

/-- Settles O17, by the kind of read: a read of a register or of `IN_BUF` only sets `lastRead`, which no read looks
at. -/
theorem hostReadsHaveNoSideEffect : Obligations.HostReadsHaveNoSideEffect := by
  rintro s t m (⟨i, rfl⟩ | ⟨r, rfl⟩ | ⟨j, rfl⟩) ht
  · simp only [hostMove] at ht
    split at ht <;> cases ht
    next hi =>
    have hagain : hostMove (.readIn i) (fetchIn i s) = .next (fetchIn i s) := by
      rw [hostMove_readIn (by simpa using hi), fetchIn_fetchIn]
    exact ⟨by rw [fetchIn_draws]; exact fetchIn_frame i s, fun _ => ⟨fetchIn_draws i s, hagain⟩⟩
  · cases ht
    exact ⟨rfl, fun _ => ⟨rfl, rfl⟩⟩
  · simp only [hostMove] at ht
    split at ht <;> cases ht
    exact ⟨fetchOut_frame j s, fun h => absurd rfl (h j)⟩

/-! An input byte overwritten during the operation. -/

/-- The free choice falls on the present value of the byte or on an earlier one. -/
theorem pickByte_cases (now : Option Byte) (earlier : List (Option Byte)) (k : Nat) :
    pickByte now earlier k = now ∨ pickByte now earlier k ∈ earlier := by
  have hk : k % (earlier.length + 1) < (now :: earlier).length := Nat.mod_lt k (Nat.succ_pos _)
  rw [← List.mem_cons, pickByte, List.getD_eq_getElem _ _ hk]
  exact List.getElem_mem hk

/-- A load that gives a byte was of a byte that holds that value. -/
theorem loadedAs_byte {i : Nat} {v : Option Byte} {s u : State} {b : Byte} (h : loadedAs i v s = .byte b u) :
    v = some b := by
  cases v with
  | none => cases h
  | some c => cases h; rfl

/-- 93_implementation_defined.md U4: a load gives the present value of the byte or one it held earlier in the
operation. -/
theorem loadIn_cases {i : Nat} {s u : State} {b : Byte} (h : loadIn i s = .byte b u) :
    Memory.read s.inBuf i = some b ∨ some b ∈ earlierBytes s i := by
  unfold loadIn at h
  split at h
  · exact .inl (loadedAs_byte h)
  · next c cs he =>
    rw [he, ← loadedAs_byte h]
    exact (pickByte_cases _ _ _).imp_left Eq.symm

@[simp] theorem storeIn_inBuf (i : Nat) (v : Byte) (s : State) : (storeIn i v s).inBuf = Memory.write s.inBuf i v := rfl

/-- A HOST write of a byte of the running operation's input adds the value replaced to the earlier values of that
byte. -/
theorem earlierBytes_storeIn_same {i : Nat} {s : State} (v : Byte) (hb : s.status.phase = .busy) (hi : i < s.nLatch) :
    earlierBytes (storeIn i v s) i = earlierBytes s i ++ [Memory.read s.inBuf i] := by
  simp [earlierBytes, storeIn, hb, hi]

/-- Settles O20: after one overwrite the present value is the new byte and the only earlier one is the old byte. -/
theorem overwrittenInputLoadsOldOrNew : Obligations.OverwrittenInputLoadsOldOrNew := by
  intro s t u i old new b hb hn hi hold hearlier hwrite hload
  rw [hostMove_writeIn new hi] at hwrite
  cases hwrite
  rcases loadIn_cases hload with hnow | hthen
  · right
    simpa using hnow.symm
  · left
    simpa [earlierBytes_storeIn_same new hb hn, hearlier, hold] using hthen

end Sys2Proof.Machine
end

section
/-! SUPPORT. The family of 30_encoding.md: decoding and encoding are inverse to each other, the decoder reads the opcode
table in its order, and what the selectors and a write of `CTRL` stand for. -/

namespace Sys2Proof

/-! An instruction and its word. -/

@[simp] theorem lcSpanCobsDec_wellFormed (c : Byte) :
    (Instr.lcSpanCobsDec c).wellFormed = true ↔ c ≠ 0#8 ∧ c ≠ 255#8 := by simp [Instr.wellFormed]
@[simp] theorem lcSpanCobsrDec_wellFormed (c : Byte) :
    (Instr.lcSpanCobsrDec c).wellFormed = true ↔ c ≠ 0#8 ∧ c ≠ 255#8 := by simp [Instr.wellFormed]
@[simp] theorem pbData_wellFormed (b : Byte) : (Instr.pbData b).wellFormed = true ↔ b ≠ 0#8 := by
  simp [Instr.wellFormed]

/-- The mask of a whole byte. -/
theorem and_wholeByte (w : Byte) : w &&& 255#8 = w := BitVec.and_allOnes

/-- R63: a code between `LC.ZERO` and `LC.FULL`, as each decoder reads it. -/
theorem decodeLc8_span {c : Byte} (hzero : c ≠ 0#8) (hfull : c ≠ 255#8) :
    decodeLc8 .cobs c = .lcSpanCobsDec c ∧ decodeLc8 .cobsr c = .lcSpanCobsrDec c :=
  ⟨by simp [decodeLc8, hzero, hfull], by simp [decodeLc8, hzero, hfull]⟩

/-- R66 (b): a payload byte other than zero is data. -/
theorem decodePb8_data {b : Byte} (hzero : b ≠ 0#8) : decodePb8 b = .pbData b := if_neg hzero

/-- Decoding gives a well-formed instruction back from its own word. -/
theorem decode_formatOf_encode {i : Instr} (h : i.wellFormed = true) : decode (formatOf i) (encode i) = .ok i := by
  cases i
  case lcSpanCobsDec c =>
    obtain ⟨hzero, hfull⟩ := (lcSpanCobsDec_wellFormed c).1 h
    exact congrArg _ (decodeLc8_span hzero hfull).1
  case lcSpanCobsrDec c =>
    obtain ⟨hzero, hfull⟩ := (lcSpanCobsrDec_wellFormed c).1 h
    exact congrArg _ (decodeLc8_span hzero hfull).2
  case pbData b => exact congrArg _ (decodePb8_data ((pbData_wellFormed b).1 h))
  all_goals rfl

/-- The instruction is well formed and of the format, and its word is the given one on the bits of the format. -/
def StandsFor (f : Format) (w : Byte) (i : Instr) : Prop :=
  i.wellFormed = true ∧ formatOf i = f ∧ encode i = w &&& formatMask f

/-- R60: each of the eight selectors is the word of the operation it selects. -/
theorem decodeOp3_wellFormed_format_word : ∀ o : BitVec 3,
    (decodeOp3 o).wellFormed = true ∧ formatOf (decodeOp3 o) = .op3 ∧ encode (decodeOp3 o) = o.setWidth 8 := by
  decide

/-- 10_state.md R17: the bits of a written selector that `OP` keeps. -/
theorem setWidth_three_eight_eq_and (w : Byte) : (w.setWidth 3).setWidth 8 = w &&& formatMask .op3 := by
  apply BitVec.eq_of_toNat_eq
  have hlow : w.toNat &&& 7 = w.toNat % 8 := Nat.and_two_pow_sub_one_eq_mod w.toNat 3
  calc ((w.setWidth 3).setWidth 8).toNat
    _ = w.toNat % 8 := by rw [BitVec.toNat_setWidth, BitVec.toNat_setWidth]; omega
    _ = (w &&& 7#8).toNat := hlow.symm

/-- R60: a selector of any word. -/
theorem decodeOp3_standsFor (w : Byte) : StandsFor .op3 w (decodeOp3 (w.setWidth 3)) := by
  obtain ⟨hwf, hformat, hword⟩ := decodeOp3_wellFormed_format_word (w.setWidth 3)
  exact ⟨hwf, hformat, hword.trans (setWidth_three_eight_eq_and w)⟩

/-- R63: the three classes of a length code, for either decoder. -/
theorem decodeLc8_standsFor (d : Decoder) (c : Byte) : StandsFor (.lc8 d) c (decodeLc8 d c) := by
  have hmask : c = c &&& 255#8 := (and_wholeByte _).symm
  by_cases hzero : c = 0#8
  · subst hzero; cases d <;> exact ⟨rfl, rfl, rfl⟩
  by_cases hfull : c = 255#8
  · subst hfull; cases d <;> exact ⟨rfl, rfl, rfl⟩
  obtain ⟨hcobs, hcobsr⟩ := decodeLc8_span hzero hfull
  cases d
  · rw [hcobs]; exact ⟨(lcSpanCobsDec_wellFormed c).2 ⟨hzero, hfull⟩, rfl, hmask⟩
  · rw [hcobsr]; exact ⟨(lcSpanCobsrDec_wellFormed c).2 ⟨hzero, hfull⟩, rfl, hmask⟩

/-- R66 (b): the two classes of a payload byte. -/
theorem decodePb8_standsFor (b : Byte) : StandsFor .pb8 b (decodePb8 b) := by
  by_cases hzero : b = 0#8
  · subst hzero; exact ⟨rfl, rfl, rfl⟩
  · rw [decodePb8_data hzero]
    exact ⟨(pbData_wellFormed b).2 hzero, rfl, (and_wholeByte _).symm⟩

/-- R61: the bit of a `CTRL` word that the format looks at. -/
theorem and_formatMask_ctrl1 (w : Byte) : w &&& formatMask .ctrl1 = if w.getLsbD 0 then 1#8 else 0#8 := by
  rw [formatMask, BitVec.and_one_eq_setWidth_ofBool_getLsbD]
  cases w.getLsbD 0 <;> rfl

/-- R61: a `CTRL` word that is a command is `START`. -/
theorem decodeCtrl1_standsFor {w : Byte} {i : Instr} (h : decodeCtrl1 w = .ok i) : StandsFor .ctrl1 w i := by
  unfold decodeCtrl1 at h
  split at h
  next hbit => cases h; exact ⟨rfl, rfl, by rw [and_formatMask_ctrl1, if_pos hbit]; rfl⟩
  next => cases h

/-- Whatever decodes, in any format, stands for its word. -/
theorem decode_standsFor {f : Format} {w : Byte} {i : Instr} (h : decode f w = .ok i) : StandsFor f w i := by
  cases f
  case op3 => cases h; exact decodeOp3_standsFor w
  case ctrl1 => exact decodeCtrl1_standsFor h
  case lc8 d => cases h; exact decodeLc8_standsFor d w
  case pb8 => cases h; exact decodePb8_standsFor w

/-- R61, R70: only a `CTRL` word can be rejected, and then the bit the format looks at is clear. -/
theorem decode_error {f : Format} {w : Byte} {r : Reject} (h : decode f w = .error r) :
    f = .ctrl1 ∧ w &&& formatMask .ctrl1 = 0#8 := by
  cases f
  case ctrl1 =>
    change decodeCtrl1 w = _ at h
    unfold decodeCtrl1 at h
    split at h
    next => cases h
    next hbit => exact ⟨rfl, by rw [and_formatMask_ctrl1, if_neg hbit]⟩
  all_goals cases h

/-- Settles O3: from the instruction to its word by the constructors, and from a word to the instruction by its
format. -/
theorem decodeEncodeRoundTrip : Obligations.DecodeEncodeRoundTrip :=
  ⟨fun _ h => decode_formatOf_encode h, fun _ _ _ h => decode_standsFor h⟩

/-! The opcode table. -/

/-- No row of the table looks at a bit outside its format. -/
theorem opcodeRows_mask_in_format : ∀ r ∈ opcodeRows, formatMask r.format &&& r.mask = r.mask := by decide

/-- The first matching row depends only on the bits of the format. -/
theorem firstMatch_and_formatMask (f : Format) (w : Byte) : firstMatch f (w &&& formatMask f) = firstMatch f w := by
  refine congrArg (Option.map Row.name) (List.find?_congr fun r hr => ?_)
  by_cases hf : r.format = f
  · subst hf
    rw [BitVec.and_assoc, opcodeRows_mask_in_format r hr]
  · rw [beq_eq_false_iff_ne.2 hf, Bool.false_and, Bool.false_and]

/-- R73: the word of a well-formed instruction meets the row of that instruction first. -/
theorem firstMatch_encode {i : Instr} (h : i.wellFormed = true) :
    firstMatch (formatOf i) (encode i) = some (mnemonic i) := by
  cases i
  case lcSpanCobsDec c =>
    obtain ⟨hzero, hfull⟩ := (lcSpanCobsDec_wellFormed c).1 h
    simp [firstMatch, opcodeRows, formatOf, encode, mnemonic, and_wholeByte, hzero, hfull]
  case lcSpanCobsrDec c =>
    obtain ⟨hzero, hfull⟩ := (lcSpanCobsrDec_wellFormed c).1 h
    simp [firstMatch, opcodeRows, formatOf, encode, mnemonic, and_wholeByte, hzero, hfull]
  case pbData b =>
    have hzero := (pbData_wellFormed b).1 h
    simp [firstMatch, opcodeRows, formatOf, encode, mnemonic, and_wholeByte, hzero]
  all_goals rfl

/-- Settles O4: a word that decodes meets the rows as the word of its instruction does, and a rejected word as 0
does. -/
theorem decodeIsFirstMatchOfOpcodeTable : Obligations.DecodeIsFirstMatchOfOpcodeTable := by
  intro f w
  split
  next i h =>
    obtain ⟨hwf, rfl, hword⟩ := decode_standsFor h
    rw [← firstMatch_and_formatMask, ← hword, firstMatch_encode hwf]
  next r h =>
    obtain ⟨rfl, hword⟩ := decode_error h
    rw [← firstMatch_and_formatMask, hword]
    rfl

/-! Selectors and commands. -/

/-- 10_state.md R17: the number of a selector from its fields. -/
theorem selector_toNat : ∀ o : BitVec 3,
    o.toNat = 4 * (Machine.sizeBit o).toNat + 2 * (Machine.variantBit o).toNat + (Machine.dirBit o).toNat := by
  decide

/-- R17: a selector written as a byte decodes as itself. -/
theorem decode_op3_setWidth (o : BitVec 3) : decode .op3 (o.setWidth 8) = .ok (decodeOp3 o) := by
  rw [decode, BitVec.setWidth_setWidth_of_le _ (by decide), BitVec.setWidth_eq]

/-- Settles O1: the table row by row, and the two sizing operations of each direction, which are one meaning. -/
theorem everySelectorValueIsAnOperation : Obligations.EverySelectorValueIsAnOperation :=
  ⟨rfl, rfl, rfl, rfl, rfl, rfl, rfl, rfl,
    fun o => ⟨decode_op3_setWidth o, selector_toNat o⟩, fun _ => ⟨rfl, rfl⟩⟩

/-- R61: a number written to `CTRL` is a command exactly when it is odd. -/
theorem decodeCtrl1_ofNat (v : Nat) :
    decodeCtrl1 (BitVec.ofNat 8 v) = if v % 2 = 1 then .ok .start else .error .noCommand := by
  rw [decodeCtrl1, BitVec.getLsbD_ofNat, Nat.testBit_zero]
  simp

/-- Settles O2: a write of register 0 does what its word decodes to. -/
theorem controlWriteIsStartOrNothing : Obligations.ControlWriteIsStartOrNothing := by
  intro v s
  have hwrite : Machine.hostMove (.writeReg 0 v) s = Machine.writeCtrl v s := rfl
  rw [hwrite, Machine.writeCtrl, decodeCtrl1_ofNat]
  exact ⟨fun hodd => by rw [if_pos hodd], fun heven => by rw [if_neg (by omega)]⟩

/-- Settles O5, each word by the decoder's evaluation. -/
theorem sampleWordsDecode : Obligations.SampleWordsDecode := ⟨rfl, rfl, rfl, rfl, rfl, rfl, rfl⟩

end Sys2Proof
end

section
/-! SUPPORT. The family of 40_cobs_encode.md: what the encoders give on a written input, under either reading of the
forced close, and one pass of the scan. -/

namespace Sys2Proof

open Machine

/-! The scan over sequences, from its last byte. -/

/-- More input follows every byte but the last, so a scan is one step after a scan that closes every full span. -/
theorem scanList_append_singleton (force : Bool) (b : Byte) : ∀ ys C P : List Byte,
    scanList force (ys ++ [b]) C P = scanStep force b (scanList true ys C P).1 (scanList true ys C P).2
  | [], _, _ => rfl
  | y :: ys, C, P => by
    have hmore : (!(ys ++ [b]).isEmpty || force) = true := by simp
    have htrue : (!ys.isEmpty || true) = true := Bool.or_true _
    rw [List.cons_append, scanList, scanList, hmore, htrue, scanList_append_singleton force b ys]

/-- A scan that closes every full span leaves fewer than 254 bytes pending. -/
theorem scanList_true_pending_le (xs : List Byte) : (scanList true xs [] []).2.length ≤ 253 := by
  induction xs using List.reverseRecOn with
  | nil => exact Nat.zero_le _
  | append_singleton ys b ih => rw [scanList_append_singleton]; exact scanStep_length ih

/-- What holds of the empty scan and is kept by a step holds of every scan: `I` of the closed output, the pending
payload and the input read. -/
theorem scanList_invariant {I : List Byte → List Byte → List Byte → Prop} (start : I [] [] [])
    (step : ∀ more b C P ys, P.length ≤ 253 → I C P ys →
      I (scanStep more b C P).1 (scanStep more b C P).2 (ys ++ [b])) (force : Bool) (xs : List Byte) :
    I (scanList force xs [] []).1 (scanList force xs [] []).2 xs := by
  induction xs using List.reverseRecOn generalizing force with
  | nil => exact start
  | append_singleton ys b ih =>
    rw [scanList_append_singleton]
    exact step force b _ _ ys (scanList_true_pending_le ys) (ih true)

/-! The three steps of a scan. -/

theorem scanStep_zero (more : Bool) (C P : List Byte) :
    scanStep more 0#8 C P = (C ++ BitVec.ofNat 8 (P.length + 1) :: P, []) := if_pos rfl

theorem scanStep_forced {b : Byte} {P : List Byte} (hb : b ≠ 0#8) (hP : P.length + 1 = 254) (C : List Byte) :
    scanStep true b C P = (C ++ Config.codeFull :: (P ++ [b]), []) := by
  rw [scanStep, if_neg hb, if_pos ⟨hP, rfl⟩]

theorem scanStep_data {more : Bool} {b : Byte} {P : List Byte} (hb : b ≠ 0#8)
    (h : ¬ (P.length + 1 = 254 ∧ more = true)) (C : List Byte) : scanStep more b C P = (C, P ++ [b]) := by
  rw [scanStep, if_neg hb, if_neg h]

/-- 40_cobs_encode.md R84 (a): the scan writes no zero. -/
theorem scanList_noZero (force : Bool) (xs : List Byte) :
    0#8 ∉ (scanList force xs [] []).1 ∧ 0#8 ∉ (scanList force xs [] []).2 := by
  refine scanList_invariant (I := fun C P _ => 0#8 ∉ C ∧ 0#8 ∉ P) (by simp) ?_ force xs
  intro more b C P _ hP ⟨hC, h0⟩
  have hcode := (code_ne_zero (P := P) (by omega)).symm
  by_cases hb : b = 0#8
  · subst hb
    rw [scanStep_zero]
    simp [hC, h0, hcode]
  by_cases hf : P.length + 1 = 254 ∧ more = true
  · obtain ⟨hP, rfl⟩ := hf
    rw [scanStep_forced hb hP]
    simp [hC, h0, Ne.symm hb, Config.codeFull]
  · rw [scanStep_data hb hf]
    simp [hC, h0, Ne.symm hb]

/-- R84 (c), R85: the lengths of a scan of `n` bytes: each byte gives one in the output, and each further byte, which a
forced close reserved, stands for 254 bytes read that are no longer pending. -/
structure ScanLengths (C P : List Byte) (n : Nat) : Prop where
  grows : n ≤ C.length + P.length
  forced : 254 * (C.length + P.length - n) + P.length ≤ n

/-- A step keeps the lengths. -/
theorem ScanLengths.step {C P : List Byte} {n : Nat} (h : ScanLengths C P n) (more : Bool) (b : Byte) :
    ScanLengths (scanStep more b C P).1 (scanStep more b C P).2 (n + 1) := by
  obtain ⟨hgrows, hforced⟩ := h
  unfold scanStep
  split
  case isFalse => split <;> exact ⟨by simp; omega, by simp; omega⟩
  case isTrue => exact ⟨by simp; omega, by simp; omega⟩

/-- A step that does not close by force leaves a byte that no forced close accounts for. -/
theorem ScanLengths.step_unforced {C P : List Byte} {n : Nat} (h : ScanLengths C P n) (b : Byte) :
    254 * ((scanStep false b C P).1.length + (scanStep false b C P).2.length - (n + 1)) ≤ n := by
  obtain ⟨hgrows, hforced⟩ := h
  by_cases hb : b = 0#8
  · subst hb
    rw [scanStep_zero]
    simp; omega
  · rw [scanStep_data hb (by simp)]
    simp; omega

theorem scanList_lengths (force : Bool) (xs : List Byte) :
    ScanLengths (scanList force xs [] []).1 (scanList force xs [] []).2 xs.length :=
  scanList_invariant (I := fun C P ys => ScanLengths C P ys.length) ⟨Nat.zero_le _, Nat.le_refl _⟩
    (fun more b C P ys _ h => by simpa using h.step more b) force xs

@[simp] theorem length_closeScan (CP : List Byte × List Byte) :
    (closeScan CP).length = CP.1.length + CP.2.length + 1 := by
  simp [closeScan]; omega

/-- R84 (c), 44_sizing.md R125: the bounds on the length of an encoding, for either reading of the forced close. -/
theorem closeScan_length_bounds (force : Bool) (xs : List Byte) :
    xs.length + 1 ≤ (closeScan (scanList force xs [] [])).length ∧
      (closeScan (scanList force xs [] [])).length ≤ encCap xs.length := by
  obtain ⟨hgrows, hforced⟩ := scanList_lengths force xs
  rw [length_closeScan, encCap, Config.sizeDiv]
  omega

/-- R84 (c): the sharper bound for a non-empty input, whose last byte does not close by force. -/
theorem closeScan_length_le_of_ne_nil {xs : List Byte} (h : xs ≠ []) :
    (closeScan (scanList false xs [] [])).length ≤ xs.length + ceilDiv254 xs.length := by
  obtain ⟨ys, b, rfl⟩ := List.eq_nil_or_concat' xs |>.resolve_left h
  have hlast := (scanList_lengths true ys).step_unforced b
  obtain ⟨hgrows, -⟩ := scanList_lengths false (ys ++ [b])
  rw [← scanList_append_singleton] at hlast
  rw [length_closeScan, ceilDiv254]
  simp only [List.length_append, List.length_singleton] at *
  omega

/-! The length of the closed form. -/

theorem length_fullBlocks : ∀ (q : Nat) (r : List Byte), 254 * q ≤ r.length → (fullBlocks q r).length = 255 * q
  | 0, _, _ => rfl
  | q + 1, r, h => by
    rw [fullBlocks, List.length_append, List.length_cons, List.length_take, length_fullBlocks q _ (by simp; omega)]
    omega

theorem length_closedRun (r : List Byte) : (closedRun r).length = r.length + r.length / 254 + 1 := by
  rw [closedRun, List.length_append, List.length_cons, List.length_drop, length_fullBlocks _ _ (by omega)]
  omega

/-- What the last run adds to its own length (40_cobs_encode.md R83). -/
def lastRunCodes (r : List Byte) : Nat := if r = [] then 1 else ceilDiv254 r.length

theorem length_finalRun (r : List Byte) : (finalRun r).length = r.length + lastRunCodes r := by
  unfold finalRun lastRunCodes ceilDiv254
  by_cases hr : r = []
  · subst hr; rfl
  have hpos : r.length ≠ 0 := mt List.eq_nil_of_length_eq_zero hr
  rw [if_neg hr]
  split
  · rw [length_fullBlocks _ _ (by omega)]; omega
  · rw [length_closedRun]; omega

/-- R83: each run but the last has a code for each full block of it and a closing one, in which its zero is counted. -/
theorem length_encodeRuns : ∀ rs : List (List Byte), rs ≠ [] →
    (encodeRuns rs).length + 1 = (rs.map fun r => r.length + 1).sum +
      (rs.dropLast.map fun r => r.length / 254).sum + lastRunCodes (rs.getLastD [])
  | [], h => absurd rfl h
  | [r], _ => by simp [encodeRuns, length_finalRun]; omega
  | r :: r' :: rs, _ => by
    have ih := length_encodeRuns (r' :: rs) (by simp)
    simp only [encodeRuns, List.length_append, length_closedRun, List.map_cons, List.sum_cons,
      List.dropLast_cons_cons, List.getLastD_cons] at ih ⊢
    omega

/-- Every byte of the input is in a run or the zero that ends one. -/
theorem sum_length_splitZeros : ∀ xs : List Byte, ((splitZeros xs).map fun r => r.length + 1).sum = xs.length + 1
  | [] => rfl
  | b :: bs => by
    have ih := sum_length_splitZeros bs
    by_cases hb : b = 0#8
    · subst hb
      simp [ih]; omega
    · rw [splitZeros_data hb]
      cases hs : splitZeros bs with
      | nil => exact absurd hs (splitZeros_ne_nil bs)
      | cons r rs =>
        rw [hs] at ih
        simp [beforeFirstRun] at ih ⊢
        omega

/-- R83: the length of the closed form. -/
theorem length_cobsEncoding (xs : List Byte) : (cobsEncoding xs).length =
    xs.length + ((splitZeros xs).dropLast.map fun r => r.length / 254).sum +
      (if lastRun xs = [] then 1 else ceilDiv254 (lastRun xs).length) := by
  have hruns := length_encodeRuns (splitZeros xs) (splitZeros_ne_nil xs)
  rw [sum_length_splitZeros] at hruns
  change (encodeRuns (splitZeros xs)).length = xs.length + _ + lastRunCodes ((splitZeros xs).getLastD [])
  omega

/-! The last run and the pending span. -/

/-- A zero at the end of the input opens an empty run. -/
theorem splitZeros_append_zero : ∀ ys : List Byte, splitZeros (ys ++ [0#8]) = splitZeros ys ++ [[]]
  | [] => rfl
  | c :: ys => by
    have ih := splitZeros_append_zero ys
    by_cases hc : c = 0#8
    · subst hc; simp [ih]
    · rw [List.cons_append, splitZeros_data hc, splitZeros_data hc, ih]
      cases hs : splitZeros ys with
      | nil => exact absurd hs (splitZeros_ne_nil ys)
      | cons r rs => rfl

/-- Any other byte at the end of the input joins the last run. -/
theorem splitZeros_append_data {b : Byte} (hb : b ≠ 0#8) : ∀ ys : List Byte,
    splitZeros (ys ++ [b]) = (splitZeros ys).dropLast ++ [lastRun ys ++ [b]]
  | [] => by simp [splitZeros, hb, lastRun]
  | c :: ys => by
    have ih := splitZeros_append_data hb ys
    unfold lastRun at ih ⊢
    cases hs : splitZeros ys with
    | nil => exact absurd hs (splitZeros_ne_nil ys)
    | cons r rs =>
      rw [hs] at ih
      by_cases hc : c = 0#8
      · subst hc; simp [ih, hs]
      · rw [List.cons_append, splitZeros_data hc, splitZeros_data hc, ih, hs]
        cases rs <;> simp [beforeFirstRun]

@[simp] theorem lastRun_nil : lastRun [] = [] := rfl

@[simp] theorem lastRun_append_zero (ys : List Byte) : lastRun (ys ++ [0#8]) = [] := by
  simp [lastRun, splitZeros_append_zero]

theorem lastRun_append_data {b : Byte} (hb : b ≠ 0#8) (ys : List Byte) : lastRun (ys ++ [b]) = lastRun ys ++ [b] := by
  rw [lastRun, splitZeros_append_data hb]
  simp

/-- With every full span closed by force the pending span holds what the full blocks of the last run leave. -/
theorem scanList_true_pending_length (xs : List Byte) :
    (scanList true xs [] []).2.length = (lastRun xs).length % 254 := by
  induction xs using List.reverseRecOn with
  | nil => rfl
  | append_singleton ys b ih =>
    rw [scanList_append_singleton]
    by_cases hb : b = 0#8
    · subst hb; rw [scanStep_zero]; simp
    rw [lastRun_append_data hb]
    by_cases hf : (scanList true ys [] []).2.length + 1 = 254
    · rw [scanStep_forced hb hf]; simp; omega
    · have := scanList_true_pending_le ys
      rw [scanStep_data hb (fun h => hf h.1)]; simp; omega

/-- R82: at the end of the input this block leaves a full span pending. -/
theorem scanList_false_pending_length (xs : List Byte) : (scanList false xs [] []).2.length = pendingLen xs := by
  induction xs using List.reverseRecOn with
  | nil => rfl
  | append_singleton ys b _ =>
    rw [scanList_append_singleton, pendingLen]
    by_cases hb : b = 0#8
    · subst hb; simp [scanStep_zero]
    · rw [scanStep_data hb (by simp), lastRun_append_data hb]
      simp [scanList_true_pending_length]

/-- 92_eei_decisions.md D1: where the last run does not fill its last block, both readings scan alike. -/
theorem scanList_true_eq_false {xs : List Byte} (h : lastRun xs = [] ∨ (lastRun xs).length % 254 ≠ 0) :
    scanList true xs [] [] = scanList false xs [] [] := by
  induction xs using List.reverseRecOn with
  | nil => rfl
  | append_singleton ys b _ =>
    rw [scanList_append_singleton, scanList_append_singleton]
    by_cases hb : b = 0#8
    · subst hb; rw [scanStep_zero, scanStep_zero]
    have hopen : (scanList true ys [] []).2.length + 1 ≠ 254 := by
      rw [scanList_true_pending_length]
      simp [lastRun_append_data hb] at h
      omega
    rw [scanStep_data hb (fun hf => hopen hf.1), scanStep_data hb (fun hf => hopen hf.1)]

/-- D1: where the last run fills its last block, the other reading has closed the whole encoding of this block. -/
theorem scanList_true_eq_encoding {xs : List Byte} (hne : lastRun xs ≠ []) (hfull : (lastRun xs).length % 254 = 0) :
    scanList true xs [] [] = (cobsEncoding xs, []) ∧ lastByteOf xs ≠ 0#8 := by
  induction xs using List.reverseRecOn with
  | nil => exact absurd rfl hne
  | append_singleton ys b _ =>
    have hb : b ≠ 0#8 := by rintro rfl; simp at hne
    have hP : (scanList true ys [] []).2.length + 1 = 254 := by
      rw [scanList_true_pending_length]
      simp [lastRun_append_data hb] at hfull
      omega
    refine ⟨?_, by simpa [lastByteOf] using hb⟩
    rw [← scanList_encoding, scanList_append_singleton, scanList_append_singleton, scanStep_forced hb hP,
      scanStep_data hb (by simp)]
    simp [closeScan, hP, Config.codeFull]

/-- 42_cobsr_encode.md R100: the final close of `COBSR.ENC` after a scan of this block gives the closed form. -/
theorem closeScanReduced_encoding (xs : List Byte) :
    closeScanReduced (lastByteOf xs) (scanList false xs [] []) = cobsrEncoding xs := by
  have hP := scanList_false_pending_length xs
  have hshort := (scan_decodes .cobs false xs).short
  have hcode : BitVec.ofNat 8 ((scanList false xs [] []).2.length + 1) ≤ lastByteOf xs ↔ substitutesOn xs = true := by
    rw [BitVec.le_def, code_toNat hshort, hP, substitutesOn, decide_eq_true_eq]
  have hslot : lastCodeIndex xs = (scanList false xs [] []).1.length := by
    rw [lastCodeIndex, ← scanList_encoding, length_closeScan, ← hP]
    omega
  unfold closeScanReduced cobsrEncoding
  simp only [hcode, hslot, ← scanList_encoding]
  split
  · simp [closeScan]
  · rfl

/-- 40_cobs_encode.md R84 (a): the final code is no zero either. -/
theorem closeScan_noZero (force : Bool) (xs : List Byte) : 0#8 ∉ closeScan (scanList force xs [] []) := by
  obtain ⟨hC, hP⟩ := scanList_noZero force xs
  simp [closeScan, hC, hP, (code_ne_zero (scan_decodes .cobs force xs).short).symm]

/-- 42_cobsr_encode.md R102 (a): nor is the substituted code, being at least the code it replaces. -/
theorem closeScanReduced_noZero (force : Bool) (xs : List Byte) (last : Byte) :
    0#8 ∉ closeScanReduced last (scanList force xs [] []) := by
  obtain ⟨hC, hP⟩ := scanList_noZero force xs
  have hcode := code_ne_zero (scan_decodes .cobs force xs).short
  unfold closeScanReduced
  split
  · next hle =>
    have hlast : last ≠ 0#8 := by rintro rfl; exact hcode (BitVec.le_zero_iff.1 hle)
    exact fun h => by simpa [hC, hP, hlast.symm] using List.mem_of_mem_dropLast h
  · simp [closeScan, hC, hP, hcode.symm]

end Sys2Proof

namespace Sys2Proof.Machine

/-! The encoders on a written input. -/

/-- Settles O26: the scan over sequences ends in the closed form, whose length is R83's; the frame is that of every
encoder. -/
theorem cobsEncodeMatchesClosedForm : Obligations.CobsEncodeMatchesClosedForm := by
  intro s xs hforce h
  obtain ⟨t, ht, hsucc⟩ := execCobsEnc_succeeds h
  rw [hforce, scanList_encoding] at hsucc
  obtain ⟨hframe, -, hdone⟩ := encoders_finished.1 ht
  obtain ⟨hoff, -⟩ := hdone (by rw [hsucc.1])
  exact ⟨t, ht, hsucc, hoff, hframe, hsucc.2.1.trans (length_cobsEncoding xs)⟩

/-- Settles O28, by the scan of the other reading: on a full last run it closes the whole encoding and leaves an empty
span, on every other input it is the scan of this block. -/
theorem forcedCloseAtEndChangesOnlyFullLastRuns : Obligations.ForcedCloseAtEndChangesOnlyFullLastRuns := by
  intro s xs hforce h
  obtain ⟨t, ht, hcobs⟩ := execCobsEnc_succeeds h
  obtain ⟨u, hu, hcobsr⟩ := execCobsrEnc_succeeds h
  rw [hforce] at hcobs hcobsr
  refine ⟨t, u, ht, hu, fun ⟨hne, hfull⟩ => ?_, fun hopen => ?_⟩
  · obtain ⟨hscan, hlast⟩ := scanList_true_eq_encoding hne hfull
    rw [hscan] at hcobs hcobsr
    rw [closeScanReduced, if_pos] at hcobsr
    · exact ⟨hcobs, by simpa using hcobsr⟩
    · have := byte_pos hlast
      rw [BitVec.le_def]; exact this
  · rw [scanList_true_eq_false hopen] at hcobs hcobsr
    rw [scanList_encoding] at hcobs
    rw [closeScanReduced_encoding] at hcobsr
    exact ⟨hcobs, hcobsr⟩

/-- Settles O42: the output of the scan decodes to what was scanned. -/
theorem cobsRoundTrip : Obligations.CobsRoundTrip := by
  intro s xs h
  obtain ⟨t, ht, hsucc⟩ := execCobsEnc_succeeds h
  refine ⟨t, _, ht, hsucc, fun u hu => ?_⟩
  obtain ⟨v, hv, hres⟩ := decoder_showsResult .cobs hu
  obtain ⟨hzero, hshort, D, hclosed, hD⟩ := scan_decodes .cobs s.cfg.forceAtEnd xs
  rw [decoding_eq, hclosed.finish hshort hzero, hD] at hres
  exact ⟨v, hv, hres⟩

/-- Settles O30: the scan writes no zero, nor does either final close. -/
theorem encodedStreamsHoldNoZero : Obligations.EncodedStreamsHoldNoZero := by
  rintro i (rfl | rfl) s xs h
  · obtain ⟨t, ht, hsucc⟩ := execCobsEnc_succeeds h
    exact ⟨t, _, ht, hsucc, closeScan_noZero _ xs⟩
  · obtain ⟨t, ht, hsucc⟩ := execCobsrEnc_succeeds h
    exact ⟨t, _, ht, hsucc, closeScanReduced_noZero _ xs _⟩

/-- Settles O31, by the lengths that every step of the scan keeps. -/
theorem cobsEncodeLengthBounds : Obligations.CobsEncodeLengthBounds := by
  constructor
  · intro s xs h
    obtain ⟨t, ht, -, hlen, -⟩ := execCobsEnc_succeeds h
    obtain ⟨hlow, hhigh⟩ := closeScan_length_bounds s.cfg.forceAtEnd xs
    refine ⟨t, ht, by rw [hlen]; exact hlow, by rw [hlen]; exact hhigh, fun hforce hne => ?_⟩
    rw [hlen, hforce]
    exact closeScan_length_le_of_ne_nil hne
  · intro s h
    obtain ⟨t, ht, -, hlen, -⟩ := execCobsEnc_succeeds h
    exact ⟨t, ht, hlen⟩

/-! One pass of the scan. -/

theorem scanByte_zero (s : State) : scanByte 0#8 s = closeSpan s.work.searchLen s := if_pos rfl

theorem scanByte_copies {b : Byte} {s : State} (hb : b ≠ 0#8) (h : forceDue (countPayload (emit b s)) = false) :
    scanByte b s = countPayload (emit b s) := by
  simp [scanByte, hb, h]

theorem scanByte_forces {b : Byte} {s : State} (hb : b ≠ 0#8) (h : forceDue (countPayload (emit b s)) = true) :
    scanByte b s = closeSpan Config.codeFull (countPayload (emit b s)) := by
  simp [scanByte, hb, h]

/-- R82: in this block a close is forced when the byte just copied fills the span and more input follows. -/
theorem forceDue_copied {b : Byte} {s : State} (hforce : s.cfg.forceAtEnd = false) :
    forceDue (countPayload (emit b (advance s))) = true ↔
      s.work.searchLen + 1#8 = 255#8 ∧ s.work.src + 1 < s.nLatch := by
  have hdue : forceDue (countPayload (emit b (advance s))) =
      (decide (s.work.searchLen + 1#8 = 255#8) && (decide (s.work.src + 1 < s.nLatch) || s.cfg.forceAtEnd)) := rfl
  simp [hdue, hforce]

/-- R187: a tick of a running encoder with input left is one pass of the scan. -/
theorem engineTick_scan {s : State} {b : Byte} (hbusy : s.status.phase = .busy) (hsize : sizeBit s.opLatch = false)
    (hdir : dirBit s.opLatch = false) (hmore : s.work.src < s.nLatch) (hread : Memory.read s.inBuf s.work.src = some b)
    (hold : earlierBytes s s.work.src = []) : engineTick s = .next (scanByte b (advance s)) := by
  have hpass : encPass s = .go (scanByte b (advance s)) := withInput_held _ hread hold
  simp [engineTick, hbusy, hsize, hdir, encTick, hmore, hpass]

/-- Settles O34: the pass is the model's `scanByte`, by the byte and by whether a close is forced. -/
theorem scanPassClosesOrCopies : Obligations.ScanPassClosesOrCopies := by
  intro s b hbusy hsize hdir hforce hmore hslot hread hold
  have hdue := forceDue_copied (b := b) hforce
  refine ⟨_, engineTick_scan hbusy hsize hdir hmore hread hold, (scanByte_frame b (advance s)).1, by simp, ?_, ?_, ?_⟩
  · rintro rfl
    rw [scanByte_zero]
    exact ⟨rfl, rfl, rfl, fun a => Memory.read_write _ _ a _⟩
  · intro hb hopen
    have hno : ¬ (s.work.searchLen + 1#8 = 255#8 ∧ s.work.src + 1 < s.nLatch) := fun ⟨hfull, hfollows⟩ =>
      hopen.elim (fun h => h hfull) (fun h => by omega)
    rw [scanByte_copies hb (by rwa [← Bool.not_eq_true, hdue])]
    exact ⟨rfl, rfl, rfl, fun a => Memory.read_write _ _ a _⟩
  · intro hb hfull hfollows
    rw [scanByte_forces hb (hdue.2 ⟨hfull, hfollows⟩)]
    refine ⟨rfl, rfl, rfl, fun a => ?_⟩
    simp [Memory.read_write, Config.codeFull]

end Sys2Proof.Machine
end

section
/-! SUPPORT. The family of 41_cobs_decode.md: the transitions of the decode machine, row by row of R92, and that they
lead where the decoders' pseudocode does. -/

namespace Sys2Proof.Machine

/-! Length codes and payload bytes. -/

/-- R63: a length code of `COBS.DEC` other than zero, by the name of its row. -/
theorem exec_cobsCode {i : Instr} {c : Byte}
    (h : (i = .lcFullCobsDec ∧ c = 255#8) ∨ (i = .lcSpanCobsDec c ∧ c ≠ 0#8 ∧ c ≠ 255#8)) (s : State) :
    exec i s = .next (cobsCode c s) := by
  rcases h with ⟨rfl, rfl⟩ | ⟨rfl, -⟩ <;> rfl

/-- R63: a length code of `COBSR.DEC` other than zero, by the name of its row. -/
theorem exec_cobsrCode {i : Instr} {c : Byte}
    (h : (i = .lcFullCobsrDec ∧ c = 255#8) ∨ (i = .lcSpanCobsrDec c ∧ c ≠ 0#8 ∧ c ≠ 255#8)) (s : State) :
    exec i s = .next (acceptCode c s) := by
  rcases h with ⟨rfl, rfl⟩ | ⟨rfl, -⟩ <;> rfl

theorem cobsCode_short {c : Byte} {s : State} (h : s.nLatch - (s.work.src + 1) < payloadLen c) :
    cobsCode c s = failAt .shortInput s.work.src s := if_pos h

theorem cobsCode_present {c : Byte} {s : State} (h : payloadLen c ≤ s.nLatch - (s.work.src + 1)) :
    cobsCode c s = acceptCode c s := if_neg (Nat.not_lt.2 h)

/-- R63 as both decoders execute a length code other than zero: check 2 of `COBS.DEC`, or the code is accepted. -/
theorem exec_decodeLc8 (d : Decoder) {c : Byte} (hc : c ≠ 0#8) (s : State) :
    exec (decodeLc8 d c) s = .next (if d = .cobs ∧ (acceptCode c s).work.short = true then
      failAt .shortInput s.work.src s else acceptCode c s) := by
  have hrow (full : Instr) (span : Byte → Instr) (h : decodeLc8 d c = if c = 255#8 then full else span c) :
      (decodeLc8 d c = full ∧ c = 255#8) ∨ (decodeLc8 d c = span c ∧ c ≠ 0#8 ∧ c ≠ 255#8) := by
    by_cases hfull : c = 255#8
    · exact .inl ⟨by rw [h, if_pos hfull], hfull⟩
    · exact .inr ⟨by rw [h, if_neg hfull], hc, hfull⟩
  cases d with
  | cobs =>
    rw [exec_cobsCode (hrow .lcFullCobsDec .lcSpanCobsDec (if_neg hc))]
    simp [cobsCode]
  | cobsr =>
    rw [exec_cobsrCode (hrow .lcFullCobsrDec .lcSpanCobsrDec (if_neg hc))]
    simp

/-- Settles O47: both rows are the one failure `zeroCode`. -/
theorem zeroLengthCodeFails : Obligations.ZeroLengthCodeFails := by
  rintro i (rfl | rfl) s <;> exact ⟨zeroCode s, rfl, failAt_failsWith (by decide) _ s, rfl⟩

/-- Settles O48: with the payload present the code is accepted, and `k` is not cut. -/
theorem cobsLengthCodeAccepted : Obligations.CobsLengthCodeAccepted := by
  intro i c hi s hpresent
  rw [exec_cobsCode hi, cobsCode_present hpresent]
  have hk : min (payloadLen c) (s.nLatch - (s.work.src + 1)) = c.toNat - 1 := Nat.min_eq_left hpresent
  have hshort : decide (s.nLatch - (s.work.src + 1) < payloadLen c) = false :=
    decide_eq_false (Nat.not_lt.2 hpresent)
  rw [acceptCode, hk, hshort]
  rfl

/-- Settles O49: with less payload than stated the code is not consumed. -/
theorem cobsShortSpanFails : Obligations.CobsShortSpanFails := by
  intro i c hi s hshort
  rw [exec_cobsCode hi, cobsCode_short hshort]
  exact ⟨_, rfl, failAt_failsWith (by decide) _ s, rfl⟩

/-- Settles O50: `COBSR.DEC` makes no check of the payload present. -/
theorem cobsrLengthCodeAccepted : Obligations.CobsrLengthCodeAccepted := fun _ c hi s =>
  ⟨acceptCode c s, exec_cobsrCode hi s, rfl, rfl, decide_eq_true_iff⟩

/-- Settles O51: the byte is neither stored nor consumed. -/
theorem zeroPayloadByteFails : Obligations.ZeroPayloadByteFails := fun s =>
  ⟨failAt .zeroByte s.work.src s, rfl, failAt_failsWith (by decide) _ s, rfl⟩

/-- Settles O52: the transition is `copyByte`, whose one store is at `dst`. -/
theorem payloadByteIsCopied : Obligations.PayloadByteIsCopied := fun s b _ =>
  ⟨copyByte b s, rfl, rfl, Memory.read_write_same _ _ _, fun _ ha => Memory.read_write_other _ _ ha⟩

/-! The rows of R92. -/

section rows
variable {s : State}

theorem decTick_readCode_exhausted (hfsm : s.work.fsm = .readCode) (hsrc : s.nLatch ≤ s.work.src) :
    decTick s = .next (decComplete s) := by
  simp [decTick, hfsm, Nat.not_lt.2 hsrc]

theorem decTick_readCode_more (hfsm : s.work.fsm = .readCode) (hsrc : s.work.src < s.nLatch) :
    decTick s = fetchExec (decodeLc8 (decoderOf s.opLatch)) s := by
  simp [decTick, hfsm, hsrc]

theorem decTick_copyPayload (hfsm : s.work.fsm = .copyPayload) (hk : 0 < s.work.k) :
    decTick s = fetchExec decodePb8 s := by
  simp [decTick, hfsm, hk]

theorem decTick_span_short (hfsm : s.work.fsm = .copyPayload) (hk : s.work.k = 0) (hshort : s.work.short = true) :
    decTick s = .next (appendCode s) := by
  simp [decTick, hfsm, hk, hshort]

theorem decTick_span_last (hfsm : s.work.fsm = .copyPayload) (hk : s.work.k = 0) (hshort : s.work.short = false)
    (hsrc : s.nLatch ≤ s.work.src) : decTick s = .next (decComplete s) := by
  simp [decTick, hfsm, hk, hshort, Nat.not_lt.2 hsrc]

theorem decTick_span_more (hfsm : s.work.fsm = .copyPayload) (hk : s.work.k = 0) (hshort : s.work.short = false)
    (hsrc : s.work.src < s.nLatch) :
    decTick s = .next (setFsm (if s.work.c = Config.codeFull then .readCode else .emitSeparator) s) := by
  by_cases hc : s.work.c = Config.codeFull <;> simp [decTick, hfsm, hk, hshort, hsrc, hc]

theorem decTick_emitSeparator (hfsm : s.work.fsm = .emitSeparator) :
    decTick s = .next (setFsm .readCode (emit 0#8 s)) := by
  simp [decTick, hfsm]

/-- A tick of a running decoder is one transition of the decode machine. -/
theorem engineTick_decoder (hbusy : s.status.phase = .busy) (hsize : sizeBit s.opLatch = false)
    (hdir : dirBit s.opLatch = true) : engineTick s = decTick s := by
  simp [engineTick, hbusy, hsize, hdir]

end rows

/-- Settles O53, row by row. -/
theorem decodeMachineInternalTransitions : Obligations.DecodeMachineInternalTransitions := by
  intro s hbusy hsize hdir
  rw [engineTick_decoder hbusy hsize hdir]
  refine ⟨?_, fun hfsm hk hshort => ?_, fun hfsm hk hshort hsrc => decTick_span_more hfsm hk hshort hsrc,
    fun hfsm => ?_⟩
  · rintro (⟨hfsm, hsrc⟩ | ⟨hfsm, hk, hshort, hsrc⟩)
    · exact decTick_readCode_exhausted hfsm (Nat.le_of_eq hsrc.symm)
    · exact decTick_span_last hfsm hk hshort (Nat.le_of_eq hsrc.symm)
  · exact ⟨_, decTick_span_short hfsm hk hshort, rfl, fun a => Memory.read_write _ _ a _⟩
  · exact ⟨_, decTick_emitSeparator hfsm, rfl, fun a => Memory.read_write _ _ a _⟩

/-! The decoders as whole operations. -/

/-- The selector of a decoder, as an instruction. -/
def decoderInstr : Decoder → Instr
  | .cobs => .cobsDec
  | .cobsr => .cobsrDec

/-- What is left of a decode at a span start: the input loop and the completion (R90, R110). -/
def decodeFlow (d : Decoder) (fuel : Nat) (s : State) : Flow :=
  (whileInput (spanOf d) fuel s).andThen fun t => .ended (decComplete t)

theorem exec_decoderInstr (d : Decoder) (s : State) :
    exec (decoderInstr d) s = (decodeFlow d s.nLatch (initDec s)).outcome := by
  cases d <;> rfl

theorem decodeFlow_done (d : Decoder) (fuel : Nat) {s : State} (h : s.nLatch ≤ s.work.src) :
    decodeFlow d fuel s = .ended (decComplete s) := by
  rw [decodeFlow, whileInput_done h, Flow.andThen_go]

theorem decodeFlow_more (d : Decoder) (fuel : Nat) {s : State} (h : s.work.src < s.nLatch) :
    decodeFlow d (fuel + 1) s = (spanOf d s).andThen (decodeFlow d fuel) := by
  rw [decodeFlow, whileInput_more h, Flow.andThen_assoc]
  rfl

/-- Settles O36: the input loop makes no pass, and `dst` is 0. -/
theorem emptyInputDecodesToEmpty : Obligations.EmptyInputDecodesToEmpty := by
  have key (d : Decoder) (s : State) (h : s.nLatch = 0) :
      ∃ t, exec (decoderInstr d) s = .next t ∧ t.status = ⟨.done, .none⟩ ∧ t.outLen = 0 :=
    ⟨decComplete (initDec s), by rw [exec_decoderInstr, decodeFlow_done d _ (by simp [h])]; rfl, rfl, rfl⟩
  rintro i (rfl | rfl)
  · exact key .cobs
  · exact key .cobsr

/-! Zero bytes in the input, over sequences. -/

/-- One span of a decoding that succeeds passes the checks of R147 and the rest of the input decodes. -/
theorem decodeSpans_cons_ok_iff {d : Decoder} {fuel i : Nat} {c : Byte} {rest : List Byte} :
    (∃ ys, decodeSpans d (fuel + 1) i (c :: rest) = .ok ys) ↔
      c ≠ 0#8 ∧ ¬ (d = .cobs ∧ rest.length < c.toNat - 1) ∧ 0#8 ∉ rest.take (c.toNat - 1) ∧
        ∃ zs, decodeSpans d fuel (i + c.toNat) (rest.drop (c.toNat - 1)) = .ok zs := by
  rw [decodeSpans]
  by_cases hc : c = 0#8
  · simp [hc]
  by_cases hshort : d = .cobs ∧ rest.length < c.toNat - 1
  · simp [hc, hshort]
  rw [if_neg hc, if_neg hshort]
  by_cases hzero : 0#8 ∈ rest.take (c.toNat - 1)
  · cases hfind : (rest.take (c.toNat - 1)).findIdx? (fun b => b == 0#8) with
    | none => exact absurd (List.findIdx?_eq_none_iff.1 hfind _ hzero) (by simp)
    | some j => simp [hzero]
  · rw [findIdx?_none hzero]
    cases decodeSpans d fuel (i + c.toNat) (rest.drop (c.toNat - 1)) <;> simp [hc, hshort, hzero]

/-- R94 (b), R112 (c): a decoding that succeeds has checked every byte of the input. -/
theorem noZero_of_decodeSpans_ok (d : Decoder) : ∀ (fuel i : Nat) (xs ys : List Byte), xs.length ≤ fuel →
    decodeSpans d fuel i xs = .ok ys → 0#8 ∉ xs
  | _, _, [], _, _, _ => by simp
  | fuel + 1, i, c :: rest, ys, hfuel, hok => by
    obtain ⟨hc, -, htake, zs, hrest⟩ := decodeSpans_cons_ok_iff.1 ⟨ys, hok⟩
    have hdrop := noZero_of_decodeSpans_ok d fuel _ _ _ (by simp at hfuel ⊢; omega) hrest
    have hrest' : 0#8 ∉ rest := by
      rw [← List.take_append_drop (c.toNat - 1) rest, List.mem_append]
      exact not_or.2 ⟨htake, hdrop⟩
    simp [hc.symm, hrest']

/-- R112 (c): `COBSR.DEC` has no check but those for zero bytes. -/
theorem decodeSpans_cobsr_ok : ∀ (fuel i : Nat) (xs : List Byte), 0#8 ∉ xs →
    ∃ ys, decodeSpans .cobsr fuel i xs = .ok ys
  | 0, _, xs, _ => by cases xs <;> exact ⟨[], rfl⟩
  | _ + 1, _, [], _ => ⟨[], rfl⟩
  | fuel + 1, i, c :: rest, h0 => by
    obtain ⟨hc, hrest⟩ := List.ne_and_not_mem_of_not_mem_cons h0
    exact decodeSpans_cons_ok_iff.2 ⟨Ne.symm hc, by simp, fun h => hrest (List.mem_of_mem_take h),
      decodeSpans_cobsr_ok fuel _ _ fun h => hrest (List.mem_of_mem_drop h)⟩

/-- R140, R141: an error of a decoding has a kind. -/
theorem decodeSpans_error_kind (d : Decoder) : ∀ (fuel i : Nat) (xs : List Byte) (e : Err × Nat),
    decodeSpans d fuel i xs = .error e → e.1 ≠ .none
  | 0, _, xs, _, h => by cases xs <;> cases h
  | _ + 1, _, [], _, h => by cases h
  | fuel + 1, i, c :: rest, e, h => by
    rw [decodeSpans] at h
    split at h
    · cases h; simp
    split at h
    · cases h; simp
    split at h
    · cases h; simp
    split at h
    · next hrest => cases h; exact decodeSpans_error_kind d fuel _ _ _ hrest
    · cases h

/-- Either decoder on a written input completes, with `NONE` exactly when the decoding over sequences succeeds. -/
theorem decoder_succeeds_iff (d : Decoder) {s : State} {xs : List Byte} (h : holdsInput s xs) :
    ∃ t, exec (decoderInstr d) s = .next t ∧ (t.status.err = .none ↔ ∃ ys, decoding d xs = .ok ys) := by
  obtain ⟨t, hrun, hres⟩ := decoder_showsResult d h
  refine ⟨t, (exec_decoderInstr d s).trans hrun, ?_⟩
  cases hdec : decoding d xs with
  | ok ys =>
    rw [hdec] at hres
    obtain ⟨hst, -⟩ := hres
    simp [hst]
  | error e =>
    rw [hdec] at hres
    obtain ⟨hst, -⟩ := hres
    simp [hst, decodeSpans_error_kind d _ _ _ _ hdec]

/-- Settles O39, by what a successful decoding over sequences has checked. -/
theorem decodersRejectZeroBytes : Obligations.DecodersRejectZeroBytes := by
  intro s xs h
  have noZero (d : Decoder) : (∃ ys, decoding d xs = .ok ys) → 0#8 ∉ xs := fun ⟨ys, hok⟩ =>
    noZero_of_decodeSpans_ok d _ _ _ ys (Nat.le_refl _) hok
  obtain ⟨t, hrun, hiff⟩ := decoder_succeeds_iff .cobsr h
  obtain ⟨u, hrun', hiff'⟩ := decoder_succeeds_iff .cobs h
  exact ⟨⟨t, hrun, hiff.trans ⟨noZero .cobsr, decodeSpans_cobsr_ok _ _ _⟩⟩,
    ⟨u, hrun', fun he => noZero .cobs (hiff'.1 he)⟩⟩

/-! The machine leads where the pseudocode does (R186). -/

/-- From `s` the ENGINE ends within `fuel` ticks as what remains of the operation's pseudocode does: in `DONE` in the
same state, working registers apart, or stopped by the same fault. -/
def TicksEndAs (fuel : Nat) (s : State) : Flow → Prop
  | .go _ => False
  | .ended t => ∃ k ≤ fuel, ∃ u, engineTicks k s = .next u ∧ u.status.phase = .done ∧ u = { t with work := u.work }
  | .broke e => ∃ k ≤ fuel, engineTicks k s = .fault e

theorem engineTicks_succ {s t : State} (h : engineTick s = .next t) (k : Nat) :
    engineTicks (k + 1) s = engineTicks k t := by
  rw [engineTicks, h]

theorem engineTicks_not_busy {s : State} (h : s.status.phase ≠ .busy) : ∀ k, engineTicks k s = .next s
  | 0 => rfl
  | k + 1 => by rw [engineTicks_succ (engineTick_not_busy h), engineTicks_not_busy h k]

/-- Ticks after ticks. -/
theorem engineTicks_append {t : State} (k' : Nat) : ∀ (k : Nat) {s : State}, engineTicks k s = .next t →
    engineTicks (k + k') s = engineTicks k' t
  | 0, s, h => by cases h; rw [Nat.zero_add]
  | k + 1, s, h => by
    rw [engineTicks] at h
    split at h
    · next u hu => rw [Nat.succ_add, engineTicks_succ hu, engineTicks_append k' k h]
    · cases h
    · cases h

theorem TicksEndAs.mono {s : State} {r : Flow} {fuel fuel' : Nat} (h : TicksEndAs fuel s r) (hle : fuel ≤ fuel') :
    TicksEndAs fuel' s r := by
  cases r with
  | go t => exact h
  | ended t => obtain ⟨k, hk, h⟩ := h; exact ⟨k, Nat.le_trans hk hle, h⟩
  | broke e => obtain ⟨k, hk, h⟩ := h; exact ⟨k, Nat.le_trans hk hle, h⟩

/-- An operation that has ended needs no tick. -/
theorem TicksEndAs.ended {s t : State} (fuel : Nat) (hdone : s.status.phase = .done)
    (heq : s = { t with work := s.work }) : TicksEndAs fuel s (.ended t) :=
  ⟨0, Nat.zero_le _, s, rfl, hdone, heq⟩

/-- A tick before the rest. -/
theorem TicksEndAs.tick {s t : State} {r : Flow} {fuel : Nat} (h : engineTick s = .next t)
    (hrest : TicksEndAs fuel t r) : TicksEndAs (fuel + 1) s r := by
  cases r with
  | go t => exact hrest
  | ended u =>
    obtain ⟨k, hk, v, hv⟩ := hrest
    exact ⟨k + 1, Nat.succ_le_succ hk, v, by rwa [engineTicks_succ h]⟩
  | broke e =>
    obtain ⟨k, hk, hv⟩ := hrest
    exact ⟨k + 1, Nat.succ_le_succ hk, by rwa [engineTicks_succ h]⟩

/-- A tick that fetches a byte and executes it, as the pseudocode loads the byte and goes on. -/
theorem TicksEndAs.fetch {s : State} {dec : Byte → Instr} {f : Byte → State → Flow} {fuel : Nat}
    (h : engineTick s = fetchExec dec s)
    (hrest : ∀ b n, ∃ u, exec (dec b) { s with draws := n } = .next u ∧
      TicksEndAs fuel u (f b { s with draws := n })) :
    TicksEndAs (fuel + 1) s (withInput s.work.src s f) := by
  unfold fetchExec at h
  unfold withInput
  cases hload : loadIn s.work.src s with
  | byte b t =>
    obtain ⟨u, hexec, hu⟩ := hrest b t.draws
    rw [← loadIn_state hload] at hexec hu
    rw [hload] at h
    exact .tick (h.trans hexec) hu
  | missing i =>
    rw [hload] at h
    exact ⟨1, Nat.le_add_left _ _, by rw [engineTicks, h]⟩

/-- The ENGINE runs decoder `d` (R131). -/
structure DecoderRuns (d : Decoder) (s : State) : Prop where
  busy : s.status.phase = .busy
  size : sizeBit s.opLatch = false
  dir : dirBit s.opLatch = true
  variant : decoderOf s.opLatch = d

namespace DecoderRuns
variable {d : Decoder} {s : State}

theorem engineTick (h : DecoderRuns d s) : engineTick s = decTick s := engineTick_decoder h.busy h.size h.dir

/-- A transition that does not end the decode leaves the decoder running. -/
theorem congr {t : State} (h : DecoderRuns d s) (hst : t.status = s.status) (hop : t.opLatch = s.opLatch) :
    DecoderRuns d t :=
  ⟨hst ▸ h.busy, hop ▸ h.size, hop ▸ h.dir, hop ▸ h.variant⟩

end DecoderRuns

/-- A decoder that runs and stands before a length code or the end of its input, with `left` bytes to read. -/
structure AtCode (d : Decoder) (left : Nat) (s : State) : Prop where
  runs : DecoderRuns d s
  fsm : s.work.fsm = .readCode
  count : s.nLatch = s.work.src + left

/-- A decoder that runs and has `m` bytes of a span still to copy, with `left` bytes behind the span. -/
structure AtPayload (d : Decoder) (m left : Nat) (s : State) : Prop where
  runs : DecoderRuns d s
  fsm : s.work.fsm = .copyPayload
  k : s.work.k = m
  count : s.nLatch = s.work.src + m + left
  last : s.work.short = true → left = 0

theorem AtPayload.copiesByte {d : Decoder} {m left : Nat} {s : State} (h : AtPayload d (m + 1) left s) (b : Byte)
    (n : Nat) : AtPayload d m left (copyByte b { s with draws := n }) where
  runs := h.runs.congr rfl rfl
  fsm := h.fsm
  k := by simp [h.k]
  count := by have := h.count; simp only [copyByte_nLatch, copyByte_work]; omega
  last := h.last

/-- An accepted code leaves the payload that is present to copy. -/
theorem AtCode.acceptsCode {d : Decoder} {left : Nat} {s : State} (h : AtCode d (left + 1) s) (c : Byte) (n : Nat) :
    AtPayload d (min (payloadLen c) left) (left - payloadLen c) (acceptCode c { s with draws := n }) := by
  have hcount := h.count
  have hrem : s.nLatch - (s.work.src + 1) = left := by omega
  refine ⟨h.runs.congr rfl rfl, rfl, by simp [hrem], ?_, fun hshort => ?_⟩
  · simp only [acceptCode_nLatch, acceptCode_work]; omega
  · simp only [acceptCode_work, hrem, decide_eq_true_eq] at hshort; omega

theorem withInput_andThen (i : Nat) (s : State) (f : Byte → State → Flow) (g : State → Flow) :
    (withInput i s f).andThen g = withInput i s fun b t => (f b t).andThen g := by
  unfold withInput
  cases loadIn i s <;> rfl

/-- The copy loop, and whatever follows it. -/
theorem ticksEndAs_copyBytes {d : Decoder} {left fuel : Nat} {next : State → Flow}
    (hnext : ∀ v, AtPayload d 0 left v → TicksEndAs fuel v (next v)) :
    ∀ (m : Nat) {s : State}, AtPayload d m left s → TicksEndAs (fuel + m) s ((copyBytes m s).andThen next)
  | 0, s, h => hnext s h
  | m + 1, s, h => by
    rw [copyBytes, withInput_andThen]
    refine TicksEndAs.fetch (dec := decodePb8) ?_ fun b n => ?_
    · rw [h.runs.engineTick, decTick_copyPayload h.fsm (by rw [h.k]; omega)]
    · by_cases hb : b = 0#8
      · subst hb
        exact ⟨_, rfl, .ended _ rfl rfl⟩
      · rw [decodePb8_data hb, if_neg hb]
        exact ⟨_, rfl, ticksEndAs_copyBytes hnext m (h.copiesByte b n)⟩

theorem endSpan_last {s : State} (h : s.nLatch ≤ s.work.src) : endSpan s = setFsm .readCode s := by
  simp [endSpan, separatorDue, Nat.not_lt.2 h]

theorem endSpan_full {s : State} (h : s.work.c = Config.codeFull) : endSpan s = setFsm .readCode s := by
  simp [endSpan, separatorDue, h]

theorem endSpan_separated {s : State} (h : s.work.src < s.nLatch) (hc : s.work.c ≠ Config.codeFull) :
    endSpan s = setFsm .readCode (emit 0#8 s) := by
  simp [endSpan, separatorDue, h, hc]

/-- T8: the last span, once its payload and its code, if that was due, are stored. -/
theorem AtPayload.finishes {d : Decoder} {s : State} (h : AtPayload d 0 0 s) (hshort : s.work.short = false)
    (fuel : Nat) : TicksEndAs 1 s (decodeFlow d fuel (endSpan s)) := by
  have hsrc : s.nLatch ≤ s.work.src := Nat.le_of_eq h.count
  have htick : engineTick s = .next (decComplete s) := by
    rw [h.runs.engineTick, decTick_span_last h.fsm h.k hshort hsrc]
  have hend : decodeFlow d fuel (endSpan s) = .ended (decComplete s) := by
    rw [endSpan_last hsrc]
    exact decodeFlow_done d fuel hsrc
  rw [hend]
  exact .tick htick (.ended 0 rfl rfl)

/-- T9 to T11: a whole span with input behind it. -/
theorem AtPayload.separates {d : Decoder} {left n fuel : Nat} {s : State} (h : AtPayload d 0 (left + 1) s)
    (hshort : s.work.short = false)
    (hnext : ∀ t, AtCode d (left + 1) t → TicksEndAs fuel t (decodeFlow d n t)) :
    TicksEndAs (fuel + 2) s (decodeFlow d n (endSpan s)) := by
  have hcount := h.count
  have hsrc : s.work.src < s.nLatch := by omega
  have htick := h.runs.engineTick.trans (decTick_span_more h.fsm h.k hshort hsrc)
  by_cases hc : s.work.c = Config.codeFull
  · rw [if_pos hc] at htick
    rw [endSpan_full hc]
    exact .mono (.tick htick (hnext _ ⟨h.runs.congr rfl rfl, rfl, hcount⟩)) (Nat.le_succ _)
  · rw [if_neg hc] at htick
    have hruns : DecoderRuns d (setFsm .emitSeparator s) := h.runs.congr rfl rfl
    have htick' : engineTick (setFsm .emitSeparator s) = .next (setFsm .readCode (emit 0#8 s)) :=
      hruns.engineTick.trans (decTick_emitSeparator rfl)
    rw [endSpan_separated hsrc hc]
    exact .tick htick (.tick htick' (hnext _ ⟨h.runs.congr rfl rfl, rfl, hcount⟩))

/-- T7 to T11: the end of a span. -/
theorem AtPayload.spanEnds {d : Decoder} {left n : Nat} {s : State} (h : AtPayload d 0 left s)
    (hnext : ∀ t, AtCode d left t → TicksEndAs (3 * left + 1) t (decodeFlow d n t)) :
    TicksEndAs (3 * left + 3) s (decodeFlow d n (endSpan (if s.work.short then appendCode s else s))) := by
  cases hshort : s.work.short with
  | true =>
    obtain rfl := h.last hshort
    have htick : engineTick s = .next (appendCode s) :=
      h.runs.engineTick.trans (decTick_span_short h.fsm h.k hshort)
    have happended : AtPayload d 0 0 (appendCode s) :=
      ⟨h.runs.congr rfl rfl, h.fsm, h.k, h.count, fun _ => rfl⟩
    exact .mono (.tick htick (happended.finishes rfl n)) (by omega)
  | false =>
    cases left with
    | zero => exact .mono (h.finishes hshort n) (by omega)
    | succ left => exact h.separates hshort hnext

/-- From a span start the machine takes three ticks at most for each byte left, and one to complete (R187). -/
theorem AtCode.ticksEndAs_decodeFlow {d : Decoder} : ∀ (n : Nat) {left : Nat} {s : State}, AtCode d left s →
    left ≤ n → TicksEndAs (3 * left + 1) s (decodeFlow d n s)
  | n, 0, s, h, _ => by
    have hsrc : s.nLatch ≤ s.work.src := Nat.le_of_eq h.count
    rw [decodeFlow_done d n hsrc]
    exact .tick (h.runs.engineTick.trans (decTick_readCode_exhausted h.fsm hsrc)) (.ended 0 rfl rfl)
  | n + 1, left + 1, s, h, hn => by
    have hcount := h.count
    have hsrc : s.work.src < s.nLatch := by omega
    rw [decodeFlow_more d n hsrc, spanOf_eq, withInput_andThen]
    refine TicksEndAs.fetch (dec := decodeLc8 d) ?_ fun c m => ?_
    · rw [h.runs.engineTick, decTick_readCode_more h.fsm hsrc, h.runs.variant]
    by_cases hc : c = 0#8
    · subst hc
      exact ⟨zeroCode { s with draws := m }, by cases d <;> rfl, .ended _ rfl rfl⟩
    refine ⟨_, exec_decodeLc8 d hc _, ?_⟩
    rw [if_neg hc]
    by_cases hcheck : d = .cobs ∧ (acceptCode c { s with draws := m }).work.short = true
    · rw [if_pos hcheck, if_pos hcheck]
      exact .ended _ rfl rfl
    · rw [if_neg hcheck, if_neg hcheck, spanRest, Flow.andThen_assoc]
      have haccepted := h.acceptsCode c m
      rw [haccepted.k]
      refine (ticksEndAs_copyBytes (fun v hv => hv.spanEnds fun t ht => ?_) _ haccepted).mono ?_
      · exact ht.ticksEndAs_decodeFlow n (by omega)
      · omega

/-- A decoder's first line changes nothing at the start of its operation. -/
theorem initDec_eq_self {s : State} (hsrc : s.work.src = 0) (hdst : s.work.dst = 0) (hfsm : s.work.fsm = .readCode) :
    initDec s = s := by
  have h : setWork { s.work with src := s.work.src, dst := s.work.dst, fsm := s.work.fsm } s = s := rfl
  rwa [hsrc, hdst, hfsm] at h

/-- Ticks that end as a piece does that completes have ended in `DONE` when their bound is reached. -/
theorem TicksEndAs.done {s t : State} {r : Flow} {fuel : Nat} (h : TicksEndAs fuel s r) (hrun : r.outcome = .next t) :
    ∃ u, engineTicks fuel s = .next u ∧ u.status.phase = .done ∧ u = { t with work := u.work } := by
  cases r with
  | go t => exact h.elim
  | ended t =>
    cases hrun
    obtain ⟨k, hk, u, hu, hdone, heq⟩ := h
    refine ⟨u, ?_, hdone, heq⟩
    rw [← Nat.add_sub_cancel' hk, engineTicks_append _ k hu, engineTicks_not_busy (by simp [hdone])]
  | broke e => cases hrun

/-- Settles O54: from the first span start on, the machine ends as the pseudocode does, and on a written input that ends
without a fault. -/
theorem stepwiseDecodeEqualsAtomic : Obligations.StepwiseDecodeEqualsAtomic := by
  intro s xs hbusy hop hsrc hdst hfsm hinput
  obtain ⟨d, hd, hruns⟩ : ∃ d, decodeOp3 s.opLatch = decoderInstr d ∧ DecoderRuns d s := by
    rcases hop with h | h
    · exact ⟨.cobs, by rw [h]; rfl, hbusy, by rw [h]; rfl, by rw [h]; rfl, by rw [h]; rfl⟩
    · exact ⟨.cobsr, by rw [h]; rfl, hbusy, by rw [h]; rfl, by rw [h]; rfl, by rw [h]; rfl⟩
  have hstart : AtCode d xs.length s := ⟨hruns, hfsm, by rw [hsrc, hinput.1, Nat.zero_add]⟩
  have hends := hstart.ticksEndAs_decodeFlow s.nLatch (Nat.le_of_eq hinput.1.symm)
  obtain ⟨t, hrun, -⟩ := decoder_succeeds_iff d hinput
  have hflow : (decodeFlow d s.nLatch s).outcome = .next t := by
    rw [← hrun, exec_decoderInstr, initDec_eq_self hsrc hdst hfsm]
  obtain ⟨u, hticks, hdone, heq⟩ := hends.done hflow
  exact ⟨t, u, hd ▸ hrun, hticks, hdone, heq⟩

end Sys2Proof.Machine
end

section
/-! SUPPORT. The family of 42_cobsr_encode.md: what `COBSR.ENC` gives on a written input, how long it is beside the
output of `COBS.ENC`, and that `COBSR.DEC` restores the input from it. -/

namespace Sys2Proof

open Machine

/-! The two closed forms side by side. -/

/-- 42_cobsr_encode.md R102 (c): without the substitution both encodings are one. -/
theorem cobsrEncoding_of_not_substitutes {xs : List Byte} (h : substitutesOn xs = false) :
    cobsrEncoding xs = cobsEncoding xs := by
  rw [cobsrEncoding, h]; rfl

/-- An encoding holds a length code at least. -/
theorem length_cobsEncoding_pos (xs : List Byte) : 1 ≤ (cobsEncoding xs).length := by
  rw [← scanList_encoding, length_closeScan]
  exact Nat.le_add_left _ _

/-- R101, R102 (c): the substitution drops one byte. -/
theorem length_cobsrEncoding_of_substitutes {xs : List Byte} (h : substitutesOn xs = true) :
    (cobsrEncoding xs).length + 1 = (cobsEncoding xs).length := by
  rw [cobsrEncoding, if_pos h, List.length_dropLast, List.length_set]
  exact Nat.sub_add_cancel (length_cobsEncoding_pos xs)

/-! The final close of `COBSR.ENC`, as `COBSR.DEC` reads it. -/

/-- R100: a last byte 0, or no byte at all, is below every code, so the span is closed as by `COBS.ENC`. -/
theorem closeScanReduced_zero (C : List Byte) {P : List Byte} (hP : P.length ≤ 254) :
    closeScanReduced 0#8 (C, P) = closeScan (C, P) :=
  if_neg fun hle => code_ne_zero hP (BitVec.le_zero_iff.1 hle)

/-- R100, D1: behind a forced close at the end of the input the span is empty, so its code 1 is replaced and the byte
that replaces it is dropped: nothing follows the closed output. -/
theorem closeScanReduced_forced (C : List Byte) {last : Byte} (hlast : last ≠ 0#8) :
    closeScanReduced last (C, []) = C := by
  have hle : 1#8 ≤ last := BitVec.le_def.2 (byte_pos hlast)
  rw [closeScanReduced, List.length_nil, if_pos hle, List.dropLast_concat]

/-- R101, R112: the pending span of payload `P` and the last byte, closed with the substitution or without, decodes to
its payload behind the data of the closed output. -/
theorem ClosedDecodes.finishReduced {C D P : List Byte} {last : Byte} (h : ClosedDecodes .cobsr C D)
    (hP : P.length ≤ 253) (h0 : 0#8 ∉ P ++ [last]) (i : Nat) :
    decodingFrom .cobsr i (closeScanReduced last (C, P ++ [last])) = .ok (D ++ (P ++ [last])) := by
  have hfull : (P ++ [last]).length ≤ 254 := by simp; omega
  by_cases hle : BitVec.ofNat 8 ((P ++ [last]).length + 1) ≤ last
  · have hlast : P.length + 2 ≤ last.toNat := by
      rwa [BitVec.le_def, code_toNat hfull, List.length_append] at hle
    have hdropped : closeScanReduced last (C, P ++ [last]) = C ++ last :: P := by
      rw [closeScanReduced, if_pos hle, ← List.cons_append, ← List.append_assoc, List.dropLast_concat]
    have h0P : 0#8 ∉ P := fun hm => h0 (List.mem_append_left _ hm)
    obtain ⟨hrestored, -⟩ := decodingFrom_substituted (i + C.length) h0P hlast
    rw [hdropped, h _ _ (List.cons_ne_nil _ _), hrestored, andDecoded_ok]
  · rw [closeScanReduced, if_neg hle]
    exact h.finish hfull h0 i

/-- R101, R112: the final close after the last byte `b`, by the step of the scan that reads it: a 0 is never
substituted, a forced close leaves the closed output alone, and any other byte is the end of the pending payload. -/
theorem ScanDecodes.closeReduced {C P seen : List Byte} (h : ScanDecodes .cobsr C P seen) (hP : P.length ≤ 253)
    (more : Bool) (b : Byte) :
    decodingFrom .cobsr 0 (closeScanReduced b (scanStep more b C P)) = .ok (seen ++ [b]) := by
  obtain ⟨h0, hshort, D, hclosed, rfl⟩ := h
  by_cases hb : b = 0#8
  · subst hb
    rw [scanStep_zero, closeScanReduced_zero _ (Nat.zero_le _),
      (hclosed.close hshort h0).finish (Nat.zero_le _) List.not_mem_nil, separatorAfter, if_neg (by omega)]
    simp
  have hdata : 0#8 ∉ P ++ [b] := by simp [h0, Ne.symm hb]
  rw [List.append_assoc]
  by_cases hf : P.length + 1 = 254 ∧ more = true
  · obtain ⟨hfull, rfl⟩ := hf
    have hspan : (P ++ [b]).length = 254 := by simpa using hfull
    have hfinish := hclosed.finish (Nat.le_of_eq hspan) hdata 0
    rw [closeScan, hspan] at hfinish
    rw [scanStep_forced hb hfull, closeScanReduced_forced _ hb]
    exact hfinish
  · rw [scanStep_data hb hf]
    exact hclosed.finishReduced hP hdata 0

/-- 42_cobsr_encode.md R102 (b) over sequences, under either reading of the forced close. -/
theorem decoding_closeScanReduced (force : Bool) (xs : List Byte) :
    decoding .cobsr (closeScanReduced (lastByteOf xs) (scanList force xs [] [])) = .ok xs := by
  rcases List.eq_nil_or_concat' xs with rfl | ⟨ys, b, rfl⟩
  · rfl
  · have hlast : lastByteOf (ys ++ [b]) = b := by simp [lastByteOf]
    rw [hlast, scanList_append_singleton]
    exact (scan_decodes .cobsr true ys).closeReduced (scanList_true_pending_le ys) force b

end Sys2Proof

namespace Sys2Proof.Machine

/-- Settles O27: the scan over sequences, closed as `COBSR.ENC` does, gives the reduced form; the frame is that of every
encoder. -/
theorem cobsrEncodeMatchesReducedForm : Obligations.CobsrEncodeMatchesReducedForm := by
  intro s xs hforce h
  obtain ⟨t, ht, hsucc⟩ := execCobsrEnc_succeeds h
  rw [hforce, closeScanReduced_encoding] at hsucc
  obtain ⟨hframe, -, hdone⟩ := encoders_finished.2 ht
  obtain ⟨hoff, -⟩ := hdone (by rw [hsucc.1])
  exact ⟨t, ht, hsucc, hoff, hframe⟩

/-- Settles O43: what the scan and the final close of `COBSR.ENC` write decodes to what was scanned. -/
theorem cobsrRoundTrip : Obligations.CobsrRoundTrip := by
  intro s xs h
  obtain ⟨t, ht, hsucc⟩ := execCobsrEnc_succeeds h
  refine ⟨t, _, ht, hsucc, fun u hu => ?_⟩
  obtain ⟨v, hv, hres⟩ := decoder_showsResult .cobsr hu
  rw [decoding_closeScanReduced] at hres
  exact ⟨v, hv, hres⟩

/-- Settles O32, by the two closed forms that the encoders give. -/
theorem cobsrNeverLongerThanCobs : Obligations.CobsrNeverLongerThanCobs := by
  intro s xs hforce h
  obtain ⟨t, ht, hcobs, -⟩ := cobsEncodeMatchesClosedForm s xs hforce h
  obtain ⟨u, hu, hcobsr, -⟩ := cobsrEncodeMatchesReducedForm s xs hforce h
  exact ⟨t, u, _, _, ht, hcobs, hu, hcobsr, length_cobsrEncoding_of_substitutes, cobsrEncoding_of_not_substitutes⟩

end Sys2Proof.Machine
end

section
/-! SUPPORT. The family of 43_cobsr_decode.md: `COBSR.DEC` beside `COBS.DEC` on a written input. -/

namespace Sys2Proof

open Machine

/-- R111, R113 over sequences: the check for truncation is all that `COBS.DEC` has over `COBSR.DEC`, so an input that
passes it span by span decodes to the same data. -/
theorem decodeSpans_cobsr_of_cobs_ok : ∀ (fuel i : Nat) (xs ys : List Byte), decodeSpans .cobs fuel i xs = .ok ys →
    decodeSpans .cobsr fuel i xs = .ok ys
  | 0, _, [], _, h => h
  | 0, _, _ :: _, _, h => h
  | _ + 1, _, [], _, h => h
  | fuel + 1, i, c :: rest, ys, h => by
    obtain ⟨hc, hpresent, -, zs, hcobs⟩ := decodeSpans_cons_ok_iff.1 ⟨ys, h⟩
    have hcobsr := decodeSpans_cobsr_of_cobs_ok fuel _ _ _ hcobs
    rw [decodeSpans, if_neg hc, if_neg hpresent, hcobs] at h
    rw [decodeSpans, if_neg hc, if_neg (fun hd => nomatch hd.1), hcobsr]
    exact h

end Sys2Proof

namespace Sys2Proof.Machine

/-- A finished state holds one output: its length and its bytes determine it (R24). -/
theorem holdsOutput_unique {t : State} {ys zs : List Byte} (hys : holdsOutput t ys) (hzs : holdsOutput t zs) :
    ys = zs := by
  obtain ⟨hlenY, hbytesY⟩ := hys
  obtain ⟨hlenZ, hbytesZ⟩ := hzs
  have hlen : ys.length = zs.length := hlenY.symm.trans hlenZ
  refine List.ext_getElem? fun j => ?_
  by_cases hj : j < ys.length
  · exact (hbytesY j hj).symm.trans (hbytesZ j (hlen ▸ hj))
  · rw [List.getElem?_eq_none (by omega), List.getElem?_eq_none (by omega)]

/-- Either decoder on a written input completes, with success and the output `ys` exactly when the decoding over
sequences gives `ys`. -/
theorem decoder_succeedsWith_iff (d : Decoder) {s : State} {xs : List Byte} (h : holdsInput s xs) :
    ∃ t, exec (decoderInstr d) s = .next t ∧ ∀ ys, succeedsWith t ys ↔ decoding d xs = .ok ys := by
  obtain ⟨t, hrun, hres⟩ := decoder_showsResult d h
  refine ⟨t, (exec_decoderInstr d s).trans hrun, fun ys => ?_⟩
  cases hdec : decoding d xs with
  | ok zs =>
    rw [hdec] at hres
    obtain ⟨hst, hout⟩ := hres
    rw [Except.ok.injEq]
    constructor
    · rintro ⟨-, hout'⟩
      exact holdsOutput_unique hout hout'
    · rintro rfl
      exact ⟨hst, hout⟩
  | error e =>
    rw [hdec] at hres
    obtain ⟨hst, -⟩ := hres
    have hkind := decodeSpans_error_kind d _ _ _ _ hdec
    simp [succeedsWith, hst, hkind]

/-- Settles O40: an input that `COBS.DEC` decodes holds no truncated span, and there `COBSR.DEC` decodes alike. -/
theorem cobsrDecodeExtendsCobsDecode : Obligations.CobsrDecodeExtendsCobsDecode := by
  intro s t xs ys h ht hsucc
  obtain ⟨t', ht', hcobs⟩ := decoder_succeedsWith_iff .cobs h
  obtain rfl : t = t' := Host.Outcome.next.inj (ht.symm.trans ht')
  obtain ⟨u, hu, hcobsr⟩ := decoder_succeedsWith_iff .cobsr h
  exact ⟨u, hu, (hcobsr ys).2 (decodeSpans_cobsr_of_cobs_ok _ _ _ _ ((hcobs ys).1 hsucc))⟩

end Sys2Proof.Machine
end

section
/-! SUPPORT. The family of 44_sizing.md: the capacity formulas, the sizing operations from START to completion, and the
length of decoded data. -/

namespace Sys2Proof

open Machine

/-! The length of decoded data, over sequences. -/

/-- 44_sizing.md R126: the most bytes that a decoder gives for `n` bytes of input. -/
def maxDecoded : Decoder → Nat → Nat
  | .cobs, n => n - 1
  | .cobsr, n => decCap n

/-- R94 (a), R112 (a): the length code of a span pays for the one byte that may follow its payload, a separator before
further input or the restored byte of a span cut short; the last span of `COBS.DEC` has neither. -/
theorem length_decodeSpans_le (d : Decoder) : ∀ (fuel i : Nat) (xs ys : List Byte), decodeSpans d fuel i xs = .ok ys →
    ys.length ≤ maxDecoded d xs.length
  | 0, _, [], _, h => by cases h; exact Nat.zero_le _
  | 0, _, _ :: _, _, h => by cases h; exact Nat.zero_le _
  | _ + 1, _, [], _, h => by cases h; exact Nat.zero_le _
  | fuel + 1, i, c :: rest, ys, h => by
    obtain ⟨hc, hpresent, hzero, zs, hrest⟩ := decodeSpans_cons_ok_iff.1 ⟨ys, h⟩
    have ih := length_decodeSpans_le d fuel _ _ _ hrest
    rw [decodeSpans, if_neg hc, if_neg hpresent, findIdx?_none hzero, hrest] at h
    cases h
    simp only [List.length_append, List.length_take, List.length_drop, List.length_cons, List.length_nil,
      apply_ite List.length, ne_eq, List.drop_eq_nil_iff] at ih ⊢
    cases d with
    | cobs =>
      have hwhole := not_and.1 hpresent rfl
      simp only [maxDecoded] at ih ⊢
      split_ifs <;> omega
    | cobsr =>
      simp only [maxDecoded, decCap] at ih ⊢
      split_ifs <;> omega

end Sys2Proof

namespace Sys2Proof.Machine

/-- Either decoder on a written input completes within the bound; a failed decode has no output. -/
theorem decoder_outLen_le (d : Decoder) {s : State} {xs : List Byte} (h : holdsInput s xs) :
    ∃ t, exec (decoderInstr d) s = .next t ∧ t.outLen ≤ maxDecoded d xs.length := by
  obtain ⟨t, hrun, hres⟩ := decoder_showsResult d h
  refine ⟨t, (exec_decoderInstr d s).trans hrun, ?_⟩
  cases hdec : decoding d xs with
  | ok ys =>
    rw [hdec] at hres
    obtain ⟨-, hlen, -⟩ := hres
    rw [hlen]
    exact length_decodeSpans_le d _ _ _ _ hdec
  | error e =>
    rw [hdec] at hres
    obtain ⟨-, -, hlen, -⟩ := hres
    rw [hlen]
    exact Nat.zero_le _

/-- Settles O41, each decoder by its bound. -/
theorem decodedLengthBounds : Obligations.DecodedLengthBounds := fun _ _ h =>
  ⟨decoder_outLen_le .cobs h, decoder_outLen_le .cobsr h⟩

/-! The capacities. -/

/-- R120: the looser bound, with the quotient rounded up. -/
theorem encCap_le_ceilDiv (n : Nat) : encCap n ≤ n + ceilDiv254 n + 1 := by
  simp only [encCap, Config.sizeDiv, ceilDiv254]; omega

theorem decCap_le_encCap (n : Nat) : decCap n ≤ encCap n :=
  Nat.le_trans (Nat.le_add_right n _) (Nat.le_succ _)

/-- R124: a length of `LEN_W` bits has a capacity of `LEN_W + 1` bits. -/
theorem encCap_lt_two_pow {c : Config} {n : Nat} (h : n ≤ c.inMax) : encCap n < 2 ^ (c.lenW + 1) := by
  have hpos := Nat.two_pow_pos c.lenW
  have hn : n + 1 ≤ 2 ^ c.lenW := by unfold Config.inMax at h; omega
  calc encCap n
    _ ≤ n + n + 1 := by simp only [encCap, Config.sizeDiv]; omega
    _ < 2 ^ c.lenW * 2 := by omega
    _ = 2 ^ (c.lenW + 1) := (Nat.pow_succ ..).symm

/-- Settles O23: `DEC_CAP` is below `ENC_CAP`, which adds to a length no more than the length and 1. -/
theorem capacitiesFitTheirRegister : Obligations.CapacitiesFitTheirRegister :=
  ⟨fun n => ⟨rfl, encCap_le_ceilDiv n, rfl⟩,
    fun _ n h => ⟨encCap_lt_two_pow h, Nat.lt_of_le_of_lt (decCap_le_encCap n) (encCap_lt_two_pow h)⟩,
    fun _ _ => encCap_lt⟩

/-! The sizing operations. -/

/-- R122, R123: the four selectors with `SIZE` set have one meaning. -/
theorem exec_decodeOp3_sizing {o : BitVec 3} (h : sizeBit o = true) (s : State) :
    exec (decodeOp3 o) s = .next (completeSizing s) := by
  unfold sizeBit at h
  unfold decodeOp3
  rw [h]
  cases o.getLsbD 1 <;> cases o.getLsbD 0 <;> rfl

/-- R122, R123: a sizing operation from START to completion: `CAP` is the one START latched for the selector. -/
theorem sizing_completes {s : State} {cap : Nat} (hb : s.status.phase ≠ .busy) (hsize : sizeBit s.opReg = true)
    (hcap : capFor s.opReg s.inLen = cap) : ∃ t u,
    exec .start s = .next t ∧ t.cap = cap ∧ engineRun t = .next u ∧
    u.status = ⟨.done, .none⟩ ∧ u.cap = cap ∧ u.outLen = 0 ∧ u.errOffset = 0 ∧
    u.inBuf = s.inBuf ∧ u.outBuf = t.outBuf := by
  have hlatched : (launch s).cap = cap := (launch_cap s).trans hcap
  have hrun : engineRun (launch s) = .next (completeSizing (launch s)) := by
    rw [engineRun_busy (by simp), selected, launch_opLatch, exec_decodeOp3_sizing hsize]
  exact ⟨launch s, completeSizing (launch s), execStart_not_busy hb, hlatched, hrun, rfl, hlatched, rfl,
    launch_errOffset s, launch_inBuf s, rfl⟩

/-- Settles O24: both selectors have `SIZE` set and `DIR` clear. -/
theorem encodeCapacityOperations : Obligations.EncodeCapacityOperations := by
  refine ⟨fun s hb hop => ?_, fun s i hi => ?_, rfl, rfl, rfl, rfl, fun _ => rfl⟩
  · rcases hop with hop | hop <;> exact sizing_completes hb (by rw [hop]; rfl) (by rw [hop]; rfl)
  · rcases hi with rfl | rfl <;> exact ⟨completeSizing s, rfl, rfl, rfl, rfl⟩

/-- Settles O25: both selectors have `SIZE` and `DIR` set. -/
theorem decodeCapacityOperations : Obligations.DecodeCapacityOperations := by
  refine ⟨fun s hb hop => ?_, fun s i hi => ?_, rfl, rfl⟩
  · rcases hop with hop | hop <;> exact sizing_completes hb (by rw [hop]; rfl) (by rw [hop]; rfl)
  · rcases hi with rfl | rfl <;> exact ⟨completeSizing s, rfl, rfl, rfl, rfl⟩

end Sys2Proof.Machine
end

section
/-! SUPPORT. The family of 45_control.md: which instruction each turn of the agenda executes, what `START` leaves, and
what the HOST reads and writes of the two buffers. -/

namespace Sys2Proof.Machine

/-! The turn that a step takes. -/

section turns
variable {s : State} {rest : List Turn}

theorem step_nil (h : s.agenda = []) : step s = engineRun s := by
  unfold step; rw [h]

theorem step_run (h : s.agenda = .run :: rest) : step s = engineRun { s with agenda := rest } := by
  unfold step; rw [h]

theorem step_tick (h : s.agenda = .tick :: rest) : step s = engineTick { s with agenda := rest } := by
  unfold step; rw [h]

theorem step_host {m : HostMove} (h : s.agenda = .host m :: rest) : step s = hostMove m { s with agenda := rest } := by
  unfold step; rw [h]

end turns

/-- R187: a tick of a running sizing operation is the whole of it. -/
theorem engineTick_sizing {s : State} (hbusy : s.status.phase = .busy) (hsize : sizeBit s.opLatch = true) :
    engineTick s = exec (selected s) s := by
  simp [engineTick, hbusy, hsize]

/-- 30_encoding.md R68: the byte at `IN[src]`, written and not overwritten, is executed as the instruction that the
format of its place reads it as. -/
theorem fetchExec_held {s : State} {b : Byte} (dec : Byte → Instr) (hread : Memory.read s.inBuf s.work.src = some b)
    (hold : earlierBytes s s.work.src = []) : fetchExec dec s = exec (dec b) s := by
  rw [fetchExec, loadIn_held hread hold]

/-- 41_cobs_decode.md R92, T2 to T4: in `ReadCode` a tick executes the byte at `IN[src]` as a length code. -/
theorem engineTick_lengthCode {s : State} {b : Byte} (hbusy : s.status.phase = .busy)
    (hsize : sizeBit s.opLatch = false) (hdir : dirBit s.opLatch = true) (hfsm : s.work.fsm = .readCode)
    (hsrc : s.work.src < s.nLatch) (hread : Memory.read s.inBuf s.work.src = some b)
    (hold : earlierBytes s s.work.src = []) :
    engineTick s = exec (decodeLc8 (decoderOf s.opLatch) b) s := by
  rw [engineTick_decoder hbusy hsize hdir, decTick_readCode_more hfsm hsrc, fetchExec_held _ hread hold]

/-- R92, T5 and T6: inside a span a tick executes the byte at `IN[src]` as a payload byte. -/
theorem engineTick_payloadByte {s : State} {b : Byte} (hbusy : s.status.phase = .busy)
    (hsize : sizeBit s.opLatch = false) (hdir : dirBit s.opLatch = true) (hfsm : s.work.fsm = .copyPayload)
    (hk : 0 < s.work.k) (hread : Memory.read s.inBuf s.work.src = some b) (hold : earlierBytes s s.work.src = []) :
    engineTick s = exec (decodePb8 b) s := by
  rw [engineTick_decoder hbusy hsize hdir, decTick_copyPayload hfsm hk, fetchExec_held _ hread hold]

/-- R61: a write of a `CTRL` word that is a command executes the command. -/
theorem hostMove_writeCtrl {v : Nat} {i : Instr} (h : decodeCtrl1 (BitVec.ofNat 8 v) = .ok i) (s : State) :
    hostMove (.writeReg 0 v) s = exec i s := by
  have hwrite : hostMove (.writeReg 0 v) s = writeCtrl v s := rfl
  rw [hwrite, writeCtrl, h]

/-- Settles O6, by the turn: `run` and the empty agenda execute the latched selector, `tick` a sizing selector or the
byte at `IN[src]` in the format its decode state gives it, and a write of `CTRL` its command. -/
theorem stepRunsDecodedInstruction : Obligations.StepRunsDecodedInstruction := by
  intro s rest
  refine ⟨fun hturn hbusy => ?_, fun hturn hbusy => ?_, fun hturn hbusy hsize => ?_,
    fun b hturn hbusy hsize hdir hfsm hsrc hread hold => ?_, fun b hturn hbusy hsize hdir hfsm hk hread hold => ?_,
    fun v i hturn hcommand => ?_⟩
  · exact (step_run hturn).trans (engineRun_busy hbusy)
  · exact (step_nil hturn).trans (engineRun_busy hbusy)
  · exact (step_tick hturn).trans (engineTick_sizing hbusy hsize)
  · exact (step_tick hturn).trans (engineTick_lengthCode hbusy hsize hdir hfsm hsrc hread hold)
  · exact (step_tick hturn).trans (engineTick_payloadByte hbusy hsize hdir hfsm hk hread hold)
  · exact (step_host hturn).trans (hostMove_writeCtrl hcommand _)

/-! START. -/

/-- 45_control.md R130: while `BUSY` the command is ignored. -/
theorem execStart_busy {s : State} (h : s.status.phase = .busy) : exec .start s = .next s := by
  change execStart s = _
  rw [execStart, h]

@[simp] theorem launch_outLen (s : State) : (launch s).outLen = 0 := congrArg State.outLen (launch_frame s)
@[simp] theorem launch_opReg (s : State) : (launch s).opReg = s.opReg := by rw [launch_frame]
@[simp] theorem launch_inLen (s : State) : (launch s).inLen = s.inLen := by rw [launch_frame]
@[simp] theorem launch_agenda (s : State) : (launch s).agenda = s.agenda := by rw [launch_frame]
@[simp] theorem launch_lastRead (s : State) : (launch s).lastRead = s.lastRead := by rw [launch_frame]

/-- R22, R120: `CAP` of an operation that encodes. -/
theorem capFor_encode {o : BitVec 3} (h : dirBit o = false) (n : Nat) : capFor o n = encCap n := by
  simp [capFor, h]

/-- R22, R121: `CAP` of an operation that decodes. -/
theorem capFor_decode {o : BitVec 3} (h : dirBit o = true) (n : Nat) : capFor o n = decCap n := by
  simp [capFor, h]

/-- R130's worked example over sequences: one byte is no full span, whatever `FORCE_AT_END` is. -/
theorem closeScan_workedExample (force : Bool) : closeScan (scanList force [0x2F#8] [] []) = [0x02#8, 0x2F#8] := by
  cases force <;> rfl

/-- Settles O13: outside `BUSY` START is `launch`, and the worked example is `COBS.ENC` launched on one byte. -/
theorem startLaunchesOrIsIgnored : Obligations.StartLaunchesOrIsIgnored := by
  refine ⟨fun s => execStart_busy, fun s h => ?_, fun s h hn hop hx => ?_⟩
  · exact ⟨launch s, execStart_not_busy h, launch_opLatch s, launch_nLatch s,
      fun hdir => (launch_cap s).trans (capFor_encode hdir _), fun hdir => (launch_cap s).trans (capFor_decode hdir _),
      launch_outLen s, launch_errOffset s, launch_status s, launch_cfg s, launch_opReg s, launch_inLen s,
      launch_inBuf s, launch_agenda s, launch_lastRead s, outputUnspecified_of_status (by simp)⟩
  · have hinput : ∀ i < [0x2F#8].length, Memory.read s.inBuf i = [0x2F#8][i]? := by simpa using hx
    obtain ⟨u, hrun, -, hres, -⟩ := engineRun_launch hn hinput
    have hcap : (launch s).cap = 2 := by rw [launch_cap, hop, hn]; rfl
    have hselected : decodeOp3 s.opReg = .cobsEnc := by rw [hop]; rfl
    have hsucc : succeedsWith u (closeScan (scanList s.cfg.forceAtEnd [0x2F#8] [] [])) := by
      rwa [hselected] at hres
    rw [closeScan_workedExample] at hsucc
    exact ⟨launch s, u, execStart_not_busy h, hcap, by simp, hrun, hsucc⟩

/-! The HOST's moves on `IN_BUF`. -/

/-- R134: a read of a byte written since reset returns that byte. -/
theorem fetchIn_written {i : Nat} {s : State} {b : Byte} (h : Memory.read s.inBuf i = some b) :
    fetchIn i s = returned b.toNat s := by
  rw [fetchIn, h]

/-- R134: a read of a byte not written since reset returns the free value of that byte (log entry 4). -/
theorem fetchIn_unwritten {i : Nat} {s : State} (h : Memory.read s.inBuf i = none) :
    fetchIn i s = returned (Config.freeInput s.resets i).toNat s := by
  rw [fetchIn, h]

/-- A write of a byte that is no input of the running operation is not remembered (log entry 6). -/
theorem storeIn_overwritten_of_le {i : Nat} {s : State} (h : s.nLatch ≤ i) (b : Byte) :
    (storeIn i b s).overwritten = s.overwritten :=
  if_neg fun hin => Nat.not_lt.2 h hin.2

/-- Settles O19: the write is `storeIn`, whose byte the law of a read after a write gives back, and the read is
`fetchIn`. -/
theorem hostWriteReadsBackFromInputBuffer : Obligations.HostWriteReadsBackFromInputBuffer := by
  refine ⟨fun s i b hi => ?_, fun s i hi => ?_⟩
  · have hback : fetchIn i (storeIn i b s) = returned b.toNat (storeIn i b s) := fetchIn_written (by simp)
    exact ⟨storeIn i b s, fetchIn i (storeIn i b s), hostMove_writeIn b hi, rfl,
      fun a => Memory.read_write s.inBuf i a b, fun hn => storeIn_overwritten_of_le hn b,
      hostMove_readIn (s := storeIn i b s) hi, congrArg State.lastRead hback⟩
  · exact ⟨fetchIn i s, hostMove_readIn hi, fetchIn_frame i s,
      fun _ hwritten => congrArg State.lastRead (fetchIn_written hwritten),
      fun hunwritten => congrArg State.lastRead (fetchIn_unwritten hunwritten)⟩

/-! The HOST's reads of `OUT_BUF`. -/

/-- R134: a read of a byte of `OUT_BUF` that exists. -/
theorem hostMove_readOut {j : Nat} {s : State} (hj : j < outDepth s.cfg) :
    hostMove (.readOut j) s = .next (fetchOut j s) := if_pos hj

/-- R24: a result byte is one below `OUT_LEN` after a success. -/
theorem isResult_iff {s : State} {j : Nat} : isResult s j = true ↔ s.status = ⟨.done, .none⟩ ∧ j < s.outLen := by
  simp [isResult]

/-- R134: a read of a result byte returns the byte that stands there. -/
theorem fetchOut_result {s : State} {j : Nat} {b : Byte} (h : isResult s j = true)
    (hb : Memory.read s.outBuf j = some b) : fetchOut j s = returned b.toNat s := by
  rw [fetchOut, if_pos h, hb]

/-- 93_implementation_defined.md U2, U3: a read outside the result draws a free value. -/
theorem fetchOut_outside {s : State} {j : Nat} (h : ¬ isResult s j = true) : fetchOut j s = returnedFree s :=
  if_neg h

/-- Settles O21, by whether the byte is a result byte. -/
theorem outputReadsReturnResultOrFreeValue : Obligations.OutputReadsReturnResultOrFreeValue := by
  refine fun s j hj => ⟨fetchOut j s, hostMove_readOut hj, fun b hstatus hlt hb => ?_, fun hout => ?_⟩
  · exact congrArg State.lastRead (fetchOut_result (isResult_iff.2 ⟨hstatus, hlt⟩) hb)
  · have hnot : ¬ isResult s j = true := fun h => by
      obtain ⟨hstatus, hlt⟩ := isResult_iff.1 h
      exact hout.elim (fun hne => hne hstatus) (fun hle => Nat.not_lt.2 hle hlt)
    rw [fetchOut_outside hnot]
    exact ⟨rfl, rfl⟩

end Sys2Proof.Machine
end

section
/-! SUPPORT. The family of 60_exceptions.md: what the decoders show of a written input, what a failed decode records and
leaves unchanged, and that no encoder fails. -/

namespace Sys2Proof

open Machine

/-! The byte that a failing check names, over sequences. -/

/-- 60_exceptions.md R146: byte `j` of the input is one at which decoder `d` may fail with this kind: a zero byte, or
for `COBS.DEC` a code byte followed by fewer bytes than it states. -/
structure Offends (d : Decoder) (kind : Err) (xs : List Byte) (j : Nat) : Prop where
  zero : kind = .zeroByte → xs[j]? = some 0#8
  short : kind = .shortInput → d = .cobs ∧ ∃ c, xs[j]? = some c ∧ xs.length - (j + 1) < c.toNat - 1

/-- A byte that offends behind a span offends in the whole input, counted from the start of the span. -/
theorem Offends.behind_span {d : Decoder} {kind : Err} {rest : List Byte} {m j : Nat}
    (h : Offends d kind (rest.drop m) j) (c : Byte) : Offends d kind (c :: rest) (m + j + 1) where
  zero hk := by simpa using h.zero hk
  short hk := by
    obtain ⟨hd, code, hcode, hlen⟩ := h.short hk
    rw [List.getElem?_drop] at hcode
    rw [List.length_drop] at hlen
    exact ⟨hd, code, by simpa using hcode, by rw [List.length_cons]; omega⟩

/-- The first zero byte of a payload offends, counted from the code before it. -/
theorem Offends.of_findIdx? {d : Decoder} {rest : List Byte} {m j : Nat} (c : Byte)
    (h : (rest.take m).findIdx? (fun b => b == 0#8) = some j) : Offends d .zeroByte (c :: rest) (j + 1) where
  zero _ := by
    obtain ⟨hj, hz, -⟩ := List.findIdx?_eq_some_iff_getElem.1 h
    have hjm : j < m ∧ j < rest.length := by simpa using hj
    simpa [List.getElem?_eq_getElem hjm.2] using hz
  short hk := nomatch hk

/-- An error of a decoding that starts at offset `i` names a byte that offends. -/
theorem decodeSpans_error_offends (d : Decoder) : ∀ (fuel i : Nat) (xs : List Byte) (e : Err × Nat),
    decodeSpans d fuel i xs = .error e → ∃ j, e.2 = i + j ∧ Offends d e.1 xs j
  | 0, _, [], _, h => nomatch h
  | 0, _, _ :: _, _, h => nomatch h
  | _ + 1, _, [], _, h => nomatch h
  | fuel + 1, i, c :: rest, e, h => by
    rw [decodeSpans] at h
    split at h
    · next hzero =>
      cases h
      exact ⟨0, rfl, fun _ => congrArg some hzero, nofun⟩
    next hcode =>
    split at h
    · next hshort =>
      cases h
      exact ⟨0, rfl, nofun, fun _ => ⟨hshort.1, c, rfl, by simpa using hshort.2⟩⟩
    split at h
    · next j hfind =>
      cases h
      exact ⟨j + 1, by simp only; omega, .of_findIdx? c hfind⟩
    split at h
    · next hrest =>
      cases h
      obtain ⟨j, hj, hoff⟩ := decodeSpans_error_offends d fuel _ _ _ hrest
      have hpos := byte_pos hcode
      exact ⟨c.toNat - 1 + j + 1, by omega, hoff.behind_span c⟩
    · cases h

/-- An error of a whole input names a byte of it that offends. -/
theorem decoding_error_offends {d : Decoder} {xs : List Byte} {kind : Err} {j : Nat}
    (h : decoding d xs = .error (kind, j)) : Offends d kind xs j := by
  obtain ⟨j', hj, hoff⟩ := decodeSpans_error_offends d _ _ _ _ h
  obtain rfl : j = j' := by simpa using hj
  exact hoff

end Sys2Proof

namespace Sys2Proof.Machine

/-! The decoders on a written input. -/

theorem eq_decoderInstr {d : Decoder} {i : Instr}
    (h : (d = .cobs ∧ i = .cobsDec) ∨ (d = .cobsr ∧ i = .cobsrDec)) : i = decoderInstr d := by
  rcases h with ⟨rfl, rfl⟩ | ⟨rfl, rfl⟩ <;> rfl

theorem decoderInstr_finished {d : Decoder} {s t : State} (ht : exec (decoderInstr d) s = .next t) :
    Finished false s t := by
  cases d with
  | cobs => exact decoders_finished (.inl ht)
  | cobsr => exact decoders_finished (.inr ht)

/-- R146: an operation leaves `CAP`, the HOST's registers and `IN_BUF` as they were. -/
theorem sameOutsideOperation.registers {s t : State} (h : sameOutsideOperation s t) :
    t.cap = s.cap ∧ t.opReg = s.opReg ∧ t.inLen = s.inLen ∧ t.inBuf = s.inBuf := by
  unfold sameOutsideOperation at h
  rw [h]
  exact ⟨rfl, rfl, rfl, rfl⟩

/-- Either decoder on a written input completes with what the decoding over sequences gives. -/
theorem decoderInstr_showsResult (d : Decoder) {s : State} {xs : List Byte} (h : holdsInput s xs) :
    ∃ t, exec (decoderInstr d) s = .next t ∧ showsResult t (decoding d xs) := by
  rw [exec_decoderInstr]
  exact decoder_showsResult d h

/-- Either decoder fails on a written input as the decoding over sequences does. -/
theorem decoderInstr_failsWith {d : Decoder} {s : State} {xs : List Byte} {kind : Err} {j : Nat}
    (h : holdsInput s xs) (herr : decoding d xs = .error (kind, j)) :
    ∃ t, exec (decoderInstr d) s = .next t ∧ failsWith t kind j := by
  obtain ⟨t, ht, hres⟩ := decoderInstr_showsResult d h
  rw [herr] at hres
  exact ⟨t, ht, hres⟩

/-- A decode of a written input that ends with an error is a failure with the error of the decoding over sequences. -/
theorem decoderInstr_error {d : Decoder} {s t : State} {xs : List Byte} (h : holdsInput s xs)
    (ht : exec (decoderInstr d) s = .next t) (herr : t.status.err ≠ .none) :
    decoding d xs = .error (t.status.err, t.errOffset) ∧ failsWith t t.status.err t.errOffset := by
  obtain ⟨t', ht', hres⟩ := decoderInstr_showsResult d h
  obtain rfl : t = t' := Host.Outcome.next.inj (ht.symm.trans ht')
  cases hdec : decoding d xs with
  | ok ys =>
    rw [hdec] at hres
    obtain ⟨hst, -⟩ := hres
    exact absurd (congrArg Status.err hst) herr
  | error e =>
    rw [hdec] at hres
    have hfail : failsWith t e.1 e.2 := hres
    obtain ⟨kind, j⟩ := e
    obtain ⟨hst, rfl, -⟩ := hres
    obtain rfl : t.status.err = kind := congrArg Status.err hst
    exact ⟨rfl, hfail⟩

/-- Settles O35: the input loop reads the spans as the decoding over sequences does (`decLoop_spec`), and a success
leaves `ERR_OFFSET` alone. -/
theorem decodersReadSpans : Obligations.DecodersReadSpans := by
  intro d i hi s xs h
  rw [eq_decoderInstr hi]
  obtain ⟨t, ht, hres⟩ := decoderInstr_showsResult d h
  obtain ⟨hframe, -, hdone⟩ := decoderInstr_finished ht
  refine ⟨t, ht, hframe, ?_⟩
  cases hdec : decoding d xs with
  | ok ys =>
    rw [hdec] at hres
    obtain ⟨hst, hout⟩ := hres
    obtain ⟨hoff, -⟩ := hdone (congrArg Status.err hst)
    exact ⟨⟨hst, hout⟩, hoff⟩
  | error e =>
    rw [hdec] at hres
    exact hres

/-- Settles O37: the three decodings over sequences, which make the checks in the order of R147. -/
theorem truncationIsReportedBeforeZero : Obligations.TruncationIsReportedBeforeZero := by
  have truncated : decoding .cobs [0x03#8, 0x00#8] = .error (.shortInput, 0) := rfl
  have zeroInSpan : decoding .cobsr [0x03#8, 0x00#8] = .error (.zeroByte, 1) := rfl
  have zeroCodes : decoding .cobs [0x00#8, 0x00#8] = .error (.zeroByte, 0) := rfl
  exact ⟨fun _ h => ⟨decoderInstr_failsWith h truncated, decoderInstr_failsWith h zeroInSpan⟩,
    fun _ h => decoderInstr_failsWith h zeroCodes⟩

/-- Settles O38: the failure is that of the decoding over sequences, whose error names a byte that offends; the rest is
the frame of a decoder. -/
theorem failureRecordsKindAndOffset : Obligations.FailureRecordsKindAndOffset := by
  intro d i hi s t xs h ht herr
  rw [eq_decoderInstr hi] at ht
  obtain ⟨hdec, -, -, hlen, hunspecified⟩ := decoderInstr_error h ht herr
  obtain ⟨hframe, hphase, -⟩ := decoderInstr_finished ht
  obtain ⟨hzero, hshort⟩ := decoding_error_offends hdec
  obtain ⟨hcap, hop, hn, hin⟩ := hframe.registers
  refine ⟨hdec, hphase, hlen, hframe, hunspecified, hcap, hop, hn, hin, hzero, fun hk => ?_⟩
  obtain ⟨rfl, hcode⟩ := hshort hk
  exact ⟨eq_decoderInstr hi, hcode⟩

/-! The encoders. -/

/-- R144: the final close of `COBSR.ENC` completes with `NONE`, with the substitution and without. -/
theorem cobsrCloseWith_status (last : Byte) (s : State) : (cobsrCloseWith last s).status = ⟨.done, .none⟩ := by
  simp only [cobsrCloseWith]
  split <;> rfl

theorem cobsrFinalClose_status (s : State) :
    (cobsrFinalClose s).All (fun _ => False) fun t => t.status = ⟨.done, .none⟩ := by
  unfold cobsrFinalClose
  split
  · exact cobsrCloseWith_status _ _
  · exact withInput_all fun _ _ => cobsrCloseWith_status _ _

/-- R144: the scan ends no operation, so an encoder ends as its final close does. -/
theorem encScan_andThen_status {s t : State} {close : State → Flow}
    (hclose : ∀ u, (close u).All (fun _ => False) fun v => v.status = ⟨.done, .none⟩)
    (ht : ((encScan s).andThen close).outcome = .next t) : t.status = ⟨.done, .none⟩ := by
  have hscan := (encScan_inside s).weaken (Q' := fun v => v.status = ⟨.done, .none⟩) fun _ => False.elim
  exact ((hscan.andThen fun u _ => hclose u).next ht).resolve_left id

/-- Settles O29, by the final close of each encoder and by its completion on a written input. -/
theorem encodingNeverFails : Obligations.EncodingNeverFails := by
  rintro i (rfl | rfl)
  · refine ⟨fun s t ht => encScan_andThen_status (close := fun u => .ended (cobsFinalClose u)) (fun _ => rfl) ht,
      fun s xs h => ?_⟩
    obtain ⟨t, ht, hst, -⟩ := execCobsEnc_succeeds h
    exact ⟨t, ht, hst⟩
  · refine ⟨fun s t ht => encScan_andThen_status cobsrFinalClose_status ht, fun s xs h => ?_⟩
    obtain ⟨t, ht, hst, -⟩ := execCobsrEnc_succeeds h
    exact ⟨t, ht, hst⟩

end Sys2Proof.Machine
end

section
/-! SUPPORT. The family of 70_reset_and_hazards.md: `COBS.DEC` on a stream of `COBSR.ENC` (R184), an encoder by
its passes (R186, R187), input bytes that nothing has written (R182), that a running operation finishes (R188), and the changes of
`STATE` (R170). -/

namespace Sys2Proof

open Machine

/-! The substitution and the pending span, over sequences. -/

/-- 42_cobsr_encode.md R100: when the substitution is made the input ends with a byte other than zero, which is the last
one of the pending payload, and it exceeds the length of that payload. -/
theorem scanList_of_substitutes {xs : List Byte} (h : substitutesOn xs = true) : ∃ C P,
    scanList false xs [] [] = (C, P ++ [lastByteOf xs]) ∧ P.length + 2 ≤ (lastByteOf xs).toNat := by
  have hle : pendingLen xs + 1 ≤ (lastByteOf xs).toNat := of_decide_eq_true h
  rcases List.eq_nil_or_concat' xs with rfl | ⟨ys, b, rfl⟩
  · exact absurd hle (Nat.not_succ_le_zero _)
  have hlast : lastByteOf (ys ++ [b]) = b := by simp [lastByteOf]
  rw [← scanList_false_pending_length, hlast] at hle
  have hb : b ≠ 0#8 := by
    rintro rfl
    exact Nat.not_succ_le_zero _ hle
  have hscan := (scanList_append_singleton false b ys [] []).trans (scanStep_data hb (by simp) _)
  rw [hscan, List.length_append] at hle
  exact ⟨_, _, by rw [hlast, hscan], by rw [hlast]; exact hle⟩

/-- R101: the substitution over sequences. -/
theorem closeScanReduced_of_le (C : List Byte) {P : List Byte} {last : Byte}
    (h : BitVec.ofNat 8 ((P ++ [last]).length + 1) ≤ last) :
    closeScanReduced last (C, P ++ [last]) = C ++ last :: P := by
  rw [closeScanReduced, if_pos h, ← List.cons_append, ← List.append_assoc, List.dropLast_concat]

/-- 70_reset_and_hazards.md R184 over sequences: without the substitution the stream is that of `COBS.ENC`. -/
theorem decoding_cobsrEncoding_of_not_substitutes {xs : List Byte} (h : substitutesOn xs = false) :
    decoding .cobs (cobsrEncoding xs) = .ok xs := by
  obtain ⟨hzero, hshort, D, hclosed, hD⟩ := scan_decodes .cobs false xs
  rw [cobsrEncoding_of_not_substitutes h, ← scanList_encoding, decoding_eq, hclosed.finish hshort hzero, hD]

/-- R184 over sequences: the substituted code states more payload than is left once the last byte is dropped. -/
theorem decoding_cobsrEncoding_of_substitutes {xs : List Byte} (h : substitutesOn xs = true) :
    decoding .cobs (cobsrEncoding xs) = .error (.shortInput, lastCodeIndex xs) := by
  obtain ⟨C, P, hscan, hlast⟩ := scanList_of_substitutes h
  obtain ⟨hzero, hshort, D, hclosed, -⟩ := scan_decodes .cobs false xs
  rw [hscan] at hzero hshort hclosed
  have hstream : cobsrEncoding xs = C ++ lastByteOf xs :: P := by
    have hle : BitVec.ofNat 8 ((P ++ [lastByteOf xs]).length + 1) ≤ lastByteOf xs := by
      rw [BitVec.le_def, code_toNat hshort, List.length_append]
      exact hlast
    rw [← closeScanReduced_encoding, hscan, closeScanReduced_of_le C hle]
  have hindex : lastCodeIndex xs = C.length := by
    have hlen : (cobsEncoding xs).length = C.length + (P ++ [lastByteOf xs]).length + 1 := by
      rw [← scanList_encoding, hscan, length_closeScan]
    have hpending : (P ++ [lastByteOf xs]).length = pendingLen xs := by
      rw [← scanList_false_pending_length, hscan]
    rw [lastCodeIndex]
    omega
  have h0P : 0#8 ∉ P := fun hm => hzero (List.mem_append_left _ hm)
  obtain ⟨-, hcut⟩ := decodingFrom_substituted (0 + C.length) h0P hlast
  rw [hstream, hindex, decoding_eq, hclosed _ _ (List.cons_ne_nil _ _), hcut, andDecoded_error, Nat.zero_add]

end Sys2Proof

namespace Sys2Proof.Machine

/-- Settles O44, by whether `COBSR.ENC` made the substitution. -/
theorem wrongDecoderNeverReturnsWrongData : Obligations.WrongDecoderNeverReturnsWrongData := by
  intro s xs hforce h
  obtain ⟨t, ht, hsucc, -⟩ := cobsrEncodeMatchesReducedForm s xs hforce h
  refine ⟨t, _, ht, hsucc, fun u hu => ?_⟩
  obtain ⟨v, hv, hres⟩ := decoderInstr_showsResult .cobs hu
  refine ⟨v, hv, fun hsub => ?_, fun hsub => ?_⟩
  · rwa [decoding_cobsrEncoding_of_not_substitutes hsub] at hres
  · rwa [decoding_cobsrEncoding_of_substitutes hsub] at hres

/-! R186, R187: an encoder pass by pass. -/

/-- The ENGINE runs an encoder (45_control.md R131). -/
structure EncoderRuns (s : State) : Prop where
  busy : s.status.phase = .busy
  size : sizeBit s.opLatch = false
  dir : dirBit s.opLatch = false

/-- What an encoder does once the input is exhausted (40_cobs_encode.md R80, 42_cobsr_encode.md R100). -/
def finalClose (o : BitVec 3) (s : State) : Flow :=
  if variantBit o then cobsrFinalClose s else .ended (cobsFinalClose s)

theorem EncoderRuns.congr {s t : State} (h : EncoderRuns s) (hst : t.status = s.status) (hop : t.opLatch = s.opLatch) :
    EncoderRuns t :=
  ⟨hst ▸ h.busy, hop ▸ h.size, hop ▸ h.dir⟩

theorem EncoderRuns.engineTick_pass {s : State} (h : EncoderRuns s) (hsrc : s.work.src < s.nLatch) :
    engineTick s = (encPass s).outcome := by
  simp [engineTick, h.busy, h.size, h.dir, encTick, hsrc]

theorem EncoderRuns.engineTick_close {s : State} (h : EncoderRuns s) (hsrc : s.nLatch ≤ s.work.src) :
    engineTick s = (finalClose s.opLatch s).outcome := by
  simp only [engineTick, h.busy, h.size, h.dir, encTick, finalClose, Nat.not_lt.2 hsrc, if_false, Bool.false_eq_true]
  split <;> rfl

/-- Both encoders are the scan and their final close. -/
theorem EncoderRuns.exec_selected {s : State} (h : EncoderRuns s) :
    exec (selected s) s = ((encScan s).andThen (finalClose s.opLatch)).outcome := by
  have hsize : s.opLatch.getLsbD 2 = false := h.size
  have hdir : s.opLatch.getLsbD 0 = false := h.dir
  unfold selected decodeOp3 finalClose variantBit
  rw [hsize, hdir]
  cases s.opLatch.getLsbD 1 <;> rfl

/-- A pass that goes on keeps the latches and consumes one byte. -/
theorem encPass_go {s t : State} (h : encPass s = .go t) :
    t.status = s.status ∧ t.opLatch = s.opLatch ∧ t.nLatch = s.nLatch ∧ t.work.src = s.work.src + 1 := by
  rcases withInput_cases s.work.src s (fun b t => .go (scanByte b (advance t))) with ⟨b, n, hpass⟩ | hpass
  · obtain rfl := Flow.go.inj (hpass.symm.trans h)
    refine ⟨?_, ?_, ?_, scanByte_src ..⟩ <;> rw [(scanByte_frame b _).1] <;> rfl
  · cases hpass.symm.trans h

/-- The scan from any point, pass by pass. -/
theorem engineTicks_of_encScan : ∀ (n : Nat) {s t : State}, EncoderRuns s → s.nLatch = s.work.src + n →
    whileInput encPass n s = .go t → engineTicks n s = .next t
  | 0, s, t, _, _, hscan => by cases hscan; rfl
  | n + 1, s, t, h, hcount, hscan => by
    have hsrc : s.work.src < s.nLatch := by omega
    rw [whileInput_more hsrc] at hscan
    cases hpass : encPass s with
    | go u =>
      rw [hpass] at hscan
      obtain ⟨hst, hop, hn, hstep⟩ := encPass_go hpass
      rw [engineTicks_succ ((h.engineTick_pass hsrc).trans (by rw [hpass]; rfl))]
      exact engineTicks_of_encScan n (h.congr hst hop) (by omega) hscan
    | ended u => rw [hpass] at hscan; cases hscan
    | broke e => rw [hpass] at hscan; cases hscan

/-- An encoder's first lines change nothing at the start of its operation. -/
theorem initEnc_eq_self {s : State} (hsrc : s.work.src = 0) (hcode : s.work.codeIdx = 0) (hdst : s.work.dst = 1)
    (hlen : s.work.searchLen = 1#8) : initEnc s = s := by
  have h : setWork { s.work with
    src := s.work.src, codeIdx := s.work.codeIdx, dst := s.work.dst, searchLen := s.work.searchLen } s = s := rfl
  rwa [hsrc, hcode, hdst, hlen] at h

/-- Settles O55: the passes make the scan, and the tick after them is the final close. -/
theorem stepwiseEncodeEqualsAtomic : Obligations.StepwiseEncodeEqualsAtomic := by
  intro s xs hbusy hop hsrc hcode hdst hlen hinput
  have hruns : EncoderRuns s := by
    rcases hop with h | h <;> exact ⟨hbusy, by rw [h]; rfl, by rw [h]; rfl⟩
  obtain ⟨u, hscan, -, husrc, hframe, -⟩ := encScan_spec hinput
  obtain ⟨t, ht, -⟩ := exec_selected_showsResult hinput
  have hpasses : whileInput encPass xs.length s = .go u := by
    rwa [encScan, initEnc_eq_self hsrc hcode hdst hlen, hinput.1] at hscan
  have hticks : engineTicks xs.length s = .next u :=
    engineTicks_of_encScan _ hruns (by rw [hsrc, hinput.1, Nat.zero_add]) hpasses
  have hst : u.status = s.status := by rw [hframe]
  have hopu : u.opLatch = s.opLatch := by rw [hframe]
  have hn : u.nLatch = s.nLatch := by rw [hframe]
  have hurun : EncoderRuns u := hruns.congr hst hopu
  have hclose : engineTick u = .next t := by
    rw [← ht, hruns.exec_selected, hscan, hurun.engineTick_close (by omega), hopu, Flow.andThen_go]
  exact ⟨t, u, t, ht, hticks, hurun.busy, by rw [engineTicks_append 1 _ hticks, engineTicks_succ hclose]; rfl, rfl⟩

/-! R182: an input byte that nothing has written. -/

/-- Everything a piece of pseudocode can come to: `P` of the state in which it goes on, `Q` of the one in which the
operation ends, `F` of the fault that stops the model. -/
def Flow.Leaves (P Q : State → Prop) (F : Fault → Prop) : Flow → Prop
  | .go t => P t
  | .ended t => Q t
  | .broke e => F e

theorem Flow.Leaves.andThen {P P' Q : State → Prop} {F : Fault → Prop} {r : Flow} {f : State → Flow}
    (hr : r.Leaves P Q F) (hf : ∀ t, P t → (f t).Leaves P' Q F) : (r.andThen f).Leaves P' Q F := by
  cases r with
  | go t => exact hf t hr
  | ended t => exact hr
  | broke e => exact hr

/-- The byte `m` of the running operation's input is one that nothing has written, and the HOST has overwritten neither
it nor a byte before it (93_implementation_defined.md U1). -/
structure LacksByte (s : State) (m : Nat) : Prop where
  within : m < s.nLatch
  unwritten : Memory.read s.inBuf m = none
  kept : ∀ a ≤ m, earlierBytes s a = []

/-- A point of the operation that runs in `s` at which the cursor is at index `i` at least and has not passed `m`. -/
structure NotPast (s : State) (m i : Nat) (t : State) : Prop where
  frame : decFrame s t
  reached : i ≤ t.work.src
  src_le : t.work.src ≤ m

/-- The fault of a load of an unwritten byte, up to index `m`. -/
def MissesByte (s : State) (m : Nat) (e : Fault) : Prop :=
  ∃ j ≤ m, e = .unwrittenInput j ∧ Memory.read s.inBuf j = none

namespace LacksByte
variable {s t : State} {m : Nat} {P Q : State → Prop}

theorem earlierBytes_eq (h : LacksByte s m) {i : Nat} (ht : NotPast s m i t) : earlierBytes t t.work.src = [] := by
  have hover : t.overwritten = s.overwritten := ht.frame.proj State.overwritten fun _ _ _ => rfl
  rw [earlierBytes, hover]
  exact h.kept _ ht.src_le

/-- A load at the cursor: a byte before `m`, or the fault. -/
theorem leaves_withInput (h : LacksByte s m) {i : Nat} (ht : NotPast s m i t) {f : Byte → State → Flow}
    (hf : ∀ b, t.work.src < m → Memory.read s.inBuf t.work.src = some b → (f b t).Leaves P Q (MissesByte s m)) :
    (withInput t.work.src t f).Leaves P Q (MissesByte s m) := by
  have hin : t.inBuf = s.inBuf := ht.frame.proj State.inBuf fun _ _ _ => rfl
  have hold := h.earlierBytes_eq ht
  cases hread : Memory.read s.inBuf t.work.src with
  | none =>
    rw [withInput_unwritten f (hin ▸ hread) hold]
    exact ⟨_, ht.src_le, rfl, hread⟩
  | some b =>
    rw [withInput_held f (hin ▸ hread) hold]
    have hne : t.work.src ≠ m := fun heq => by
      rw [heq, h.unwritten] at hread
      cases hread
    exact hf b (Nat.lt_of_le_of_ne ht.src_le hne) hread

/-- A loop whose passes consume input and do not pass `m` does not go on behind the loop. -/
theorem leaves_whileInput (h : LacksByte s m) {body : State → Flow}
    (hbody : ∀ t, NotPast s m 0 t → (body t).Leaves (NotPast s m (t.work.src + 1)) Q (MissesByte s m)) :
    ∀ (fuel : Nat) {t : State}, NotPast s m 0 t → m < fuel + t.work.src →
      (whileInput body fuel t).Leaves (fun _ => False) Q (MissesByte s m)
  | 0, t, ht, hfuel => by have := ht.src_le; omega
  | fuel + 1, t, ht, hfuel => by
    have hsrc : t.work.src < t.nLatch := by
      rw [ht.frame.nLatch]
      exact Nat.lt_of_le_of_lt ht.src_le h.within
    rw [whileInput_more hsrc]
    exact (hbody t ht).andThen fun u hu =>
      h.leaves_whileInput hbody fuel ⟨hu.frame, Nat.zero_le _, hu.src_le⟩ (by have := hu.reached; omega)

/-! The encoders. -/

theorem leaves_encPass (h : LacksByte s m) (ht : NotPast s m 0 t) :
    (encPass t).Leaves (NotPast s m (t.work.src + 1)) Q (MissesByte s m) :=
  h.leaves_withInput ht fun b hlt _ => by
    refine ⟨ht.frame.trans ((show decFrame t (advance t) from rfl).trans (scanByte_frame b _).1), ?_, ?_⟩
    · rw [scanByte_src]; exact Nat.le_refl _
    · rw [scanByte_src]; exact hlt

/-- The scan of an encoder stops at an unwritten byte. -/
theorem leaves_encScan (h : LacksByte s m) : (encScan s).Leaves (fun _ => False) (fun _ => False) (MissesByte s m) :=
  h.leaves_whileInput (fun _ => h.leaves_encPass) _ ⟨rfl, Nat.zero_le _, Nat.zero_le _⟩ h.within

end LacksByte

/-- How decoder `d` may fail before it comes to byte `m`: on a zero byte, or, in `COBS.DEC`, on a span cut short. -/
def FailsBefore (d : Decoder) (s : State) (m : Nat) (t : State) : Prop :=
  (t.status.err = .zeroByte ∧ ∃ a < m, Memory.read s.inBuf a = some 0#8) ∨ (t.status.err = .shortInput ∧ d = .cobs)

theorem endSpan_decFrame (s : State) : decFrame s (endSpan s) := by
  unfold endSpan
  split <;> rfl

@[simp] theorem endSpan_src (s : State) : (endSpan s).work.src = s.work.src := by
  unfold endSpan
  split <;> rfl

namespace LacksByte
variable {s : State} {m : Nat}

theorem leaves_copyBytes (h : LacksByte s m) (d : Decoder) {i : Nat} : ∀ (k : Nat) {t : State}, NotPast s m i t →
    (copyBytes k t).Leaves (NotPast s m i) (FailsBefore d s m) (MissesByte s m)
  | 0, _, ht => ht
  | k + 1, t, ht => h.leaves_withInput ht fun b hlt hread => by
    split
    · next hb => exact .inl ⟨rfl, _, hlt, hb ▸ hread⟩
    · exact h.leaves_copyBytes d k ⟨ht.frame.trans rfl, Nat.le_succ_of_le ht.reached, hlt⟩

theorem leaves_spanOf (h : LacksByte s m) (d : Decoder) {t : State} (ht : NotPast s m 0 t) :
    (spanOf d t).Leaves (NotPast s m (t.work.src + 1)) (FailsBefore d s m) (MissesByte s m) := by
  rw [spanOf_eq]
  refine h.leaves_withInput ht fun c hlt hread => ?_
  split
  · next hc => exact .inl ⟨rfl, _, hlt, hc ▸ hread⟩
  split
  · next hshort => exact .inr ⟨rfl, hshort.1⟩
  · have haccepted : NotPast s m (t.work.src + 1) (acceptCode c t) := ⟨ht.frame.trans rfl, Nat.le_refl _, hlt⟩
    refine (h.leaves_copyBytes d _ haccepted).andThen fun v hv => ?_
    have happended : NotPast s m (t.work.src + 1) (if v.work.short then appendCode v else v) := by
      split
      · exact ⟨hv.frame.trans rfl, hv.reached, hv.src_le⟩
      · exact hv
    exact ⟨happended.frame.trans (endSpan_decFrame _), by rw [endSpan_src]; exact happended.reached,
      by rw [endSpan_src]; exact happended.src_le⟩

/-- A decoder does not succeed on an input that lacks a byte. -/
theorem leaves_decodeFlow (h : LacksByte s m) (d : Decoder) :
    (decodeFlow d s.nLatch (initDec s)).Leaves (fun _ => False) (FailsBefore d s m) (MissesByte s m) := by
  have hstart : NotPast s m 0 (initDec s) := ⟨rfl, Nat.zero_le _, Nat.zero_le _⟩
  exact (h.leaves_whileInput (fun _ => h.leaves_spanOf d) s.nLatch hstart h.within).andThen fun _ => False.elim

end LacksByte

/-- An operation that does not go on, as a step: it has ended or the model stops. -/
theorem Flow.Leaves.outcome {Q : State → Prop} {F : Fault → Prop} {r : Flow} (hr : r.Leaves (fun _ => False) Q F) :
    (∃ t, r.outcome = .next t ∧ Q t) ∨ ∃ e, r.outcome = .fault e ∧ F e := by
  cases r with
  | go t => exact hr.elim
  | ended t => exact .inl ⟨t, rfl, hr⟩
  | broke e => exact .inr ⟨e, rfl, hr⟩

/-- With every byte before `m` written, the fault is that of byte `m`. -/
theorem MissesByte.eq {s : State} {m : Nat} {e : Fault} (h : MissesByte s m e)
    (hwritten : ∀ a < m, Memory.read s.inBuf a ≠ none) : e = .unwrittenInput m := by
  obtain ⟨j, hj, rfl, hnone⟩ := h
  rcases Nat.lt_or_eq_of_le hj with hlt | rfl
  · exact absurd hnone (hwritten j hlt)
  · rfl

/-- An encoder whose input lacks byte `m` and no byte before it stops there, whatever its final close is. -/
theorem LacksByte.encoder_faults {s : State} {m : Nat} (h : LacksByte s m)
    (hwritten : ∀ a < m, Memory.read s.inBuf a ≠ none) (close : State → Flow) :
    ((encScan s).andThen close).outcome = .fault (.unwrittenInput m) := by
  have hscan := h.leaves_encScan.andThen (f := close) (P' := fun _ => False) fun _ => False.elim
  rcases hscan.outcome with ⟨t, -, hended⟩ | ⟨e, hfault, hmiss⟩
  · exact hended.elim
  · rw [hfault, hmiss.eq hwritten]

theorem fetchExec_unwritten {s : State} (dec : Byte → Instr) (hread : Memory.read s.inBuf s.work.src = none)
    (hold : earlierBytes s s.work.src = []) : fetchExec dec s = .fault (.unwrittenInput s.work.src) := by
  rw [fetchExec, loadIn_unwritten hread hold]

/-- `COBSR.DEC` stops at byte `m` when the bytes before it pass its one check. -/
theorem LacksByte.cobsrDec_faults {s : State} {m : Nat} (h : LacksByte s m)
    (hdata : ∀ a < m, ∃ b, Memory.read s.inBuf a = some b ∧ b ≠ 0#8) :
    exec .cobsrDec s = .fault (.unwrittenInput m) := by
  have hrun : exec .cobsrDec s = _ := exec_decoderInstr .cobsr s
  rw [hrun]
  rcases (h.leaves_decodeFlow .cobsr).outcome with ⟨t, -, ⟨-, a, ha, hzero⟩ | ⟨-, hd⟩⟩ | ⟨e, hfault, hmiss⟩
  · obtain ⟨b, hread, hb⟩ := hdata a ha
    exact absurd (Option.some.inj (hread.symm.trans hzero)) hb
  · cases hd
  · refine hfault.trans (congrArg _ (hmiss.eq fun a ha => ?_))
    obtain ⟨b, hread, -⟩ := hdata a ha
    simp [hread]

/-- A decode that ends although its input lacks a byte has failed before it came to it. -/
theorem LacksByte.decoder_fails {s t : State} {m : Nat} (h : LacksByte s m) {d : Decoder}
    (ht : exec (decoderInstr d) s = .next t) : FailsBefore d s m t := by
  rw [exec_decoderInstr] at ht
  rcases (h.leaves_decodeFlow d).outcome with ⟨u, hended, hfail⟩ | ⟨e, hfault, -⟩
  · obtain rfl := Host.Outcome.next.inj (hended.symm.trans ht)
    exact hfail
  · cases hfault.symm.trans ht

theorem FailsBefore.err_ne_none {d : Decoder} {s t : State} {m : Nat} (h : FailsBefore d s m t) :
    t.status.err ≠ .none := by
  rcases h with ⟨herr, -⟩ | ⟨herr, -⟩ <;> simp [herr]

/-- Settles O33: no operation passes an unwritten byte of its input, and a single step that loads one is the fault. -/
theorem unwrittenInputStopsTheTransforms : Obligations.UnwrittenInputStopsTheTransforms := by
  refine ⟨?_, fun s hbusy hsize hpoint hread hold => ?_,
    fun s m hm hkept hdata hnone => LacksByte.cobsrDec_faults ⟨hm, hnone, hkept⟩ hdata, ?_⟩
  · rintro i (rfl | rfl) s m hm hkept hwritten hnone
    · exact LacksByte.encoder_faults ⟨hm, hnone, hkept⟩ hwritten _
    · exact LacksByte.encoder_faults ⟨hm, hnone, hkept⟩ hwritten _
  · rcases hpoint with ⟨hdir, hsrc⟩ | ⟨hdir, hfsm, hsrc⟩ | ⟨hdir, hfsm, hk⟩
    · have hruns : EncoderRuns s := ⟨hbusy, hsize, hdir⟩
      rw [hruns.engineTick_pass hsrc, encPass, withInput_unwritten _ hread hold]
      rfl
    · rw [engineTick_decoder hbusy hsize hdir, decTick_readCode_more hfsm hsrc, fetchExec_unwritten _ hread hold]
    · rw [engineTick_decoder hbusy hsize hdir, decTick_copyPayload hfsm hk, fetchExec_unwritten _ hread hold]
  · intro i hi s t m hm hkept hnone ht
    have hlacks : LacksByte s m := ⟨hm, hnone, fun a ha => hkept a (Nat.lt_of_le_of_lt ha hm)⟩
    rcases hi with rfl | rfl
    · exact (hlacks.decoder_fails (d := .cobs) ht).err_ne_none
    · exact (hlacks.decoder_fails (d := .cobsr) ht).err_ne_none

/-! R188: a running operation finishes. -/

/-- A byte of a written input is there to load. -/
theorem holdsInput.byte {s : State} {xs : List Byte} (h : holdsInput s xs) {i : Nat} (hi : i < s.nLatch) :
    ∃ b, Memory.read s.inBuf i = some b ∧ earlierBytes s i = [] := by
  have hlt : i < xs.length := h.1 ▸ hi
  obtain ⟨hread, hold⟩ := h.2 i hlt
  exact ⟨xs[i], by rw [hread, List.getElem?_eq_getElem hlt], hold⟩

theorem holdsInput.outside {s t : State} {xs : List Byte} (h : holdsInput s xs) (hframe : sameOutsideOperation s t) :
    holdsInput t xs := by
  rw [sameOutsideOperation] at hframe
  rw [hframe]
  exact h

/-- The transitions that end a span once its payload is copied (41_cobs_decode.md R92): a separator and the next span
start, the code that is the missing byte, or the completion. -/
def spanEndTicks (s : State) : Nat := if s.work.src < s.nLatch then 3 else if s.work.short then 2 else 1

/-- The most transitions that a decoder has left (R187): three for a byte at a span start, and one for a byte of a span
that is being copied; the terminal states, which no running decoder is in, count as one. -/
def decTicksLeft (s : State) : Nat :=
  match s.work.fsm with
  | .readCode => 3 * (s.nLatch - s.work.src) + 1
  | .copyPayload => 3 * (s.nLatch - s.work.src - s.work.k) + s.work.k + spanEndTicks s
  | .emitSeparator => 3 * (s.nLatch - s.work.src) + 2
  | .done => 1
  | .failed => 1

/-- The most ENGINE steps that a running operation has left (R187). -/
def ticksLeft (s : State) : Nat :=
  if sizeBit s.opLatch then 1
  else if dirBit s.opLatch then decTicksLeft s
  else s.nLatch - s.work.src + 1

section
variable {s : State}

theorem spanEndTicks_more (h : s.work.src < s.nLatch) : spanEndTicks s = 3 := if_pos h

theorem spanEndTicks_short (h : s.nLatch ≤ s.work.src) (hshort : s.work.short = true) : spanEndTicks s = 2 := by
  rw [spanEndTicks, if_neg (Nat.not_lt.2 h), if_pos hshort]

theorem spanEndTicks_last (h : s.nLatch ≤ s.work.src) (hshort : s.work.short = false) : spanEndTicks s = 1 := by
  simp [spanEndTicks, Nat.not_lt.2 h, hshort]

theorem spanEndTicks_bounds (s : State) : 1 ≤ spanEndTicks s ∧ spanEndTicks s ≤ 3 := by
  unfold spanEndTicks
  split_ifs <;> decide

theorem decTicksLeft_readCode (h : s.work.fsm = .readCode) :
    decTicksLeft s = 3 * (s.nLatch - s.work.src) + 1 := by
  rw [decTicksLeft, h]

theorem decTicksLeft_copyPayload (h : s.work.fsm = .copyPayload) :
    decTicksLeft s = 3 * (s.nLatch - s.work.src - s.work.k) + s.work.k + spanEndTicks s := by
  rw [decTicksLeft, h]

theorem decTicksLeft_emitSeparator (h : s.work.fsm = .emitSeparator) :
    decTicksLeft s = 3 * (s.nLatch - s.work.src) + 2 := by
  rw [decTicksLeft, h]

theorem decTicksLeft_pos (s : State) : 0 < decTicksLeft s := by
  have := spanEndTicks_bounds s
  unfold decTicksLeft
  split <;> omega

theorem ticksLeft_sizing (hsize : sizeBit s.opLatch = true) : ticksLeft s = 1 := if_pos hsize

theorem ticksLeft_decoder (hsize : sizeBit s.opLatch = false) (hdir : dirBit s.opLatch = true) :
    ticksLeft s = decTicksLeft s := by
  simp [ticksLeft, hsize, hdir]

theorem ticksLeft_encoder (hsize : sizeBit s.opLatch = false) (hdir : dirBit s.opLatch = false) :
    ticksLeft s = s.nLatch - s.work.src + 1 := by
  simp [ticksLeft, hsize, hdir]

theorem ticksLeft_pos (s : State) : 0 < ticksLeft s := by
  have := decTicksLeft_pos s
  unfold ticksLeft
  split_ifs <;> omega

end

/-- What a step of a running operation comes to, as `left` counts what is left of it. -/
def Progresses (left : State → Nat) (s t : State) : Prop := t.status.phase = .done ∨ left t < left s

/-- T1 to T4 of R92, in `ReadCode`. -/
theorem decTick_progresses_readCode {s : State} {xs : List Byte} (h : holdsInput s xs)
    (hfsm : s.work.fsm = .readCode) : ∃ t, decTick s = .next t ∧ Progresses decTicksLeft s t := by
  by_cases hsrc : s.work.src < s.nLatch
  · obtain ⟨c, hread, hold⟩ := h.byte hsrc
    rw [decTick_readCode_more hfsm hsrc, fetchExec_held _ hread hold]
    by_cases hc : c = 0#8
    · subst hc
      exact ⟨zeroCode s, by cases decoderOf s.opLatch <;> rfl, .inl rfl⟩
    refine ⟨_, exec_decodeLc8 _ hc s, ?_⟩
    split
    · exact .inl rfl
    · refine .inr ?_
      have hend := spanEndTicks_bounds (acceptCode c s)
      rw [decTicksLeft_readCode hfsm, decTicksLeft_copyPayload rfl]
      simp only [acceptCode_work, acceptCode_nLatch]
      omega
  · exact ⟨_, decTick_readCode_exhausted hfsm (Nat.not_lt.1 hsrc), .inl rfl⟩

/-- T5 to T10 of R92, in `CopyPayload`. -/
theorem decTick_progresses_copyPayload {s : State} {xs : List Byte} (h : holdsInput s xs)
    (hfsm : s.work.fsm = .copyPayload) (hspan : s.work.src + s.work.k ≤ s.nLatch)
    (hlast : s.work.short = true → s.work.src + s.work.k = s.nLatch) :
    ∃ t, decTick s = .next t ∧ Progresses decTicksLeft s t := by
  have hleft := decTicksLeft_copyPayload hfsm
  by_cases hk : 0 < s.work.k
  · have hsrc : s.work.src < s.nLatch := by omega
    obtain ⟨b, hread, hold⟩ := h.byte hsrc
    rw [decTick_copyPayload hfsm hk, fetchExec_held _ hread hold]
    by_cases hb : b = 0#8
    · subst hb
      exact ⟨_, rfl, .inl rfl⟩
    rw [decodePb8_data hb]
    refine ⟨copyByte b s, rfl, .inr ?_⟩
    have hend := spanEndTicks_bounds (copyByte b s)
    rw [hleft, spanEndTicks_more hsrc, decTicksLeft_copyPayload (s := copyByte b s) hfsm]
    simp only [copyByte_work, copyByte_nLatch]
    omega
  have hk0 : s.work.k = 0 := Nat.eq_zero_of_not_pos hk
  cases hshort : s.work.short with
  | true =>
    have hsrc : s.nLatch ≤ s.work.src := by have := hlast hshort; omega
    refine ⟨appendCode s, decTick_span_short hfsm hk0 hshort, .inr ?_⟩
    rw [hleft, spanEndTicks_short hsrc hshort, decTicksLeft_copyPayload (s := appendCode s) hfsm,
      spanEndTicks_last (s := appendCode s) hsrc rfl]
    exact Nat.lt_succ_self _
  | false =>
    by_cases hsrc : s.work.src < s.nLatch
    · refine ⟨_, decTick_span_more hfsm hk0 hshort hsrc, .inr ?_⟩
      rw [hleft, spanEndTicks_more hsrc, hk0]
      split
      · rw [decTicksLeft_readCode rfl]
        simp only [setFsm_work, setFsm_nLatch]
        omega
      · rw [decTicksLeft_emitSeparator rfl]
        simp only [setFsm_work, setFsm_nLatch]
        omega
    · exact ⟨_, decTick_span_last hfsm hk0 hshort (Nat.not_lt.1 hsrc), .inl rfl⟩

/-- A transition of a decoder on a written input answers, and it ends the decode or leaves fewer transitions. -/
theorem decTick_progresses {s : State} {xs : List Byte} (h : holdsInput s xs) (hcursors : decoderCursors s) :
    ∃ t, decTick s = .next t ∧ Progresses decTicksLeft s t := by
  unfold decoderCursors at hcursors
  cases hfsm : s.work.fsm with rw [hfsm] at hcursors
  | readCode => exact decTick_progresses_readCode h hfsm
  | copyPayload =>
    obtain ⟨hspan, -, -, -, hlast, -⟩ := hcursors
    exact decTick_progresses_copyPayload h hfsm hspan fun hshort => (hlast hshort).1
  | emitSeparator =>
    refine ⟨_, decTick_emitSeparator hfsm, .inr ?_⟩
    rw [decTicksLeft_emitSeparator hfsm, decTicksLeft_readCode rfl]
    exact Nat.lt_succ_self _
  | done => exact hcursors.elim
  | failed => exact hcursors.elim

/-- A pass of an encoder on a written input consumes a byte, and the final close ends the operation. -/
theorem EncoderRuns.progresses {s : State} {xs : List Byte} (hruns : EncoderRuns s) (h : holdsInput s xs) :
    ∃ t, engineTick s = .next t ∧ (t.status.phase = .done ∨ t.nLatch - t.work.src < s.nLatch - s.work.src) := by
  by_cases hsrc : s.work.src < s.nLatch
  · obtain ⟨b, hread, hold⟩ := h.byte hsrc
    have hpass : encPass s = .go (scanByte b (advance s)) := withInput_held _ hread hold
    obtain ⟨-, -, hn, hstep⟩ := encPass_go hpass
    exact ⟨_, (hruns.engineTick_pass hsrc).trans (by rw [hpass]; rfl), .inr (by omega)⟩
  · rw [hruns.engineTick_close (Nat.not_lt.1 hsrc), finalClose]
    split
    · rw [cobsrFinalClose_eq h]
      exact ⟨_, rfl, .inl (congrArg Status.phase (cobsrCloseWith_status _ _))⟩
    · exact ⟨_, rfl, .inl rfl⟩

/-- What the invariant says of the cursors of a running decoder. -/
theorem Inv.decoderCursors {s : State} (hinv : Inv s) (hbusy : s.status.phase = .busy)
    (hsize : sizeBit s.opLatch = false) (hdir : dirBit s.opLatch = true) : decoderCursors s := by
  have hrun := hinv.running hbusy
  rw [runningInv, hsize, hdir] at hrun
  exact hrun.cursors

/-- An ENGINE step of a running operation on a written input answers, and ends the operation or leaves fewer steps. -/
theorem engineTick_progresses {s : State} {xs : List Byte} (hinv : Inv s) (hbusy : s.status.phase = .busy)
    (h : holdsInput s xs) : ∃ t, engineTick s = .next t ∧ Progresses ticksLeft s t := by
  cases hsize : sizeBit s.opLatch with
  | true => exact ⟨_, (engineTick_sizing hbusy hsize).trans (exec_decodeOp3_sizing hsize s), .inl rfl⟩
  | false =>
    cases hdir : dirBit s.opLatch with
    | true =>
      obtain ⟨t, ht, hprog⟩ := decTick_progresses h (hinv.decoderCursors hbusy hsize hdir)
      have htick := (engineTick_decoder hbusy hsize hdir).trans ht
      have hop : t.opLatch = s.opLatch := by rw [(tick_outside hbusy htick).1]
      refine ⟨t, htick, hprog.imp id fun hlt => ?_⟩
      rwa [ticksLeft_decoder hsize hdir, ticksLeft_decoder (hop ▸ hsize) (hop ▸ hdir)]
    | false =>
      obtain ⟨t, htick, hprog⟩ := EncoderRuns.progresses ⟨hbusy, hsize, hdir⟩ h
      have hop : t.opLatch = s.opLatch := by rw [(tick_outside hbusy htick).1]
      refine ⟨t, htick, hprog.imp id fun hlt => ?_⟩
      rw [ticksLeft_encoder hsize hdir, ticksLeft_encoder (hop ▸ hsize) (hop ▸ hdir)]
      exact Nat.succ_lt_succ hlt

/-- R188: as many ENGINE steps as are left finish a running operation on a written input. -/
theorem engineTicks_finish {xs : List Byte} : ∀ (fuel : Nat) {s : State}, Inv s → s.status.phase = .busy →
    holdsInput s xs → ticksLeft s ≤ fuel → ∃ t, engineTicks fuel s = .next t ∧ t.status.phase = .done
  | 0, s, _, _, _, hfuel => absurd (ticksLeft_pos s) (Nat.not_lt.2 hfuel)
  | fuel + 1, s, hinv, hbusy, h, hfuel => by
    obtain ⟨t, htick, hprog⟩ := engineTick_progresses hinv hbusy h
    obtain ⟨hframe, hst⟩ := tick_outside hbusy htick
    rw [engineTicks_succ htick]
    by_cases hdone : t.status.phase = .done
    · exact ⟨t, engineTicks_not_busy (by simp [hdone]) fuel, hdone⟩
    · have hlt := hprog.resolve_left hdone
      have hbusy' : t.status.phase = .busy := by rw [hst.resolve_right hdone, hbusy]
      exact engineTicks_finish fuel (engineTick_inv hinv htick) hbusy' (h.outside hframe) (by omega)

/-- The cursors of a running decoder leave three transitions for each byte of its input, and one. -/
theorem decTicksLeft_le {s : State} (hcursors : decoderCursors s) : decTicksLeft s ≤ 3 * s.nLatch + 1 := by
  unfold decoderCursors at hcursors
  cases hfsm : s.work.fsm with rw [hfsm] at hcursors
  | readCode => rw [decTicksLeft_readCode hfsm]; omega
  | copyPayload =>
    obtain ⟨hspan, -, -, -, -, hdst | ⟨-, hk, hshort, hsrc⟩⟩ := hcursors
    · have hend := spanEndTicks_bounds s
      rw [decTicksLeft_copyPayload hfsm]
      omega
    · rw [decTicksLeft_copyPayload hfsm, spanEndTicks_last (Nat.le_of_eq hsrc.symm) hshort]
      omega
  | emitSeparator => rw [decTicksLeft_emitSeparator hfsm]; omega
  | done => exact hcursors.elim
  | failed => exact hcursors.elim

/-- R187: the bound on the steps of a running operation, from any point of it. -/
theorem ticksLeft_le {s : State} (hinv : Inv s) (hbusy : s.status.phase = .busy) :
    ticksLeft s ≤ 3 * s.nLatch + 1 := by
  cases hsize : sizeBit s.opLatch with
  | true => rw [ticksLeft_sizing hsize]; exact Nat.le_add_left _ _
  | false =>
    cases hdir : dirBit s.opLatch with
    | true =>
      rw [ticksLeft_decoder hsize hdir]
      exact decTicksLeft_le (hinv.decoderCursors hbusy hsize hdir)
    | false => rw [ticksLeft_encoder hsize hdir]; omega

/-- Settles O56: the whole operation is the step of an empty agenda, and single transitions leave fewer and fewer of the
at most `3n + 1`. -/
theorem runningOperationFinishes : Obligations.RunningOperationFinishes := by
  intro s xs hbusy h
  refine ⟨fun hturn => ?_, fun hinv => ?_⟩
  · obtain ⟨t, ht, -⟩ := exec_selected_showsResult h
    exact ⟨t, (step_nil hturn).trans ((engineRun_busy hbusy).trans ht), (run_done ht).2⟩
  · have hbound := ticksLeft_le hinv hbusy
    rw [h.1] at hbound
    exact engineTicks_finish _ hinv hbusy h hbound

/-! R170, R19: the changes of `STATE`. -/

/-- Settles O57, by the cases of a step. -/
theorem phaseChanges : Obligations.PhaseChanges := by
  intro s t ht
  have kept (h : t.status = s.status) : (t.status.phase = .idle → s.status.phase = .idle ∨ isResetTurn s) ∧
      (t.status.phase = .busy → s.status.phase = .busy ∨ isStartTurn s) ∧
      (t.status.phase = .done → s.status.phase = .done ∨ s.status.phase = .busy) := by
    rw [h]
    exact ⟨.inl, .inl, .inl⟩
  rcases step_cases ht with ⟨a, -, h | h⟩ | ⟨a, hb, -, h | h⟩ | ⟨m, rest, hm, hmove⟩
  · exact kept (by rw [h])
  · exact kept (by rw [h])
  · exact kept h
  · exact ⟨by simp [h], fun _ => .inl hb, fun _ => .inr hb⟩
  · rcases host_cases hmove with h | ⟨i, b, -, h⟩ | ⟨v, -, h⟩ | ⟨v, -, h⟩ | ⟨v, rfl, hv, -, h⟩ | ⟨rfl, h⟩
    · exact kept (by rw [h])
    · exact kept (by rw [h])
    · exact kept (by rw [h])
    · exact kept (by rw [h])
    · have hbusy : t.status.phase = .busy := by rw [h, launch_status]
      exact ⟨by simp [hbusy], fun _ => .inr ⟨v, hm, hv⟩, by simp [hbusy]⟩
    · have hidle : t.status.phase = .idle := by rw [h]; rfl
      exact ⟨fun _ => .inr hm, by simp [hidle], by simp [hidle]⟩

end Sys2Proof.Machine
end

section
/-! SUPPORT. A word placed where the next step fetches it (log entries 8 and 9). -/

namespace Sys2Proof.Machine

/-- A byte whose records are all taken out of `overwritten` has no earlier value (log entry 6). -/
theorem earlierBytes_filter_ne {s : State} {i : Nat} {past : List (Nat × Option Byte)}
    (h : s.overwritten = past.filter fun p => p.1 != i) : earlierBytes s i = [] := by
  simp [earlierBytes, h, List.filter_filter]

/-- A placed length code is the only value a load of it can give (log entry 6). -/
theorem placeWord_lc8_earlierBytes (d : Decoder) (w : Byte) (s : State) :
    earlierBytes (placeWord (.lc8 d) w s) s.work.src = [] := earlierBytes_filter_ne rfl

/-- A placed payload byte is the only value a load of it can give (log entry 6). -/
theorem placeWord_pb8_earlierBytes (w : Byte) (s : State) :
    earlierBytes (placeWord .pb8 w s) s.work.src = [] := earlierBytes_filter_ne rfl

/-- A length code for decoder `d` is placed in a running decode by `d`. -/
theorem placeWord_lc8_selector (d : Decoder) (w : Byte) (s : State) :
    sizeBit (placeWord (.lc8 d) w s).opLatch = false ∧ dirBit (placeWord (.lc8 d) w s).opLatch = true ∧
      decoderOf (placeWord (.lc8 d) w s).opLatch = d := by
  cases d <;> simp [placeWord, sizeBit, dirBit, decoderOf, variantBit]

/-- A payload byte is placed in a running decode. -/
theorem placeWord_pb8_selector (w : Byte) (s : State) :
    sizeBit (placeWord .pb8 w s).opLatch = false ∧ dirBit (placeWord .pb8 w s).opLatch = true := by
  simp [placeWord, sizeBit, dirBit]

/-- Log entry 9: in every format, a placed word that is an instruction is what the next step executes. -/
theorem step_placeWord {f : Format} {w : Byte} {i : Instr} (h : decode f w = .ok i) (s : State) :
    step (placeWord f w s) = exec i { placeWord f w s with agenda := s.agenda } := by
  cases f with
  | op3 =>
    cases h
    exact (step_run rfl).trans (engineRun_busy rfl)
  | ctrl1 =>
    have hcommand : decodeCtrl1 (BitVec.ofNat 8 w.toNat) = .ok i := by
      rw [BitVec.ofNat_toNat, BitVec.setWidth_eq]
      exact h
    exact (step_host rfl).trans (hostMove_writeCtrl hcommand _)
  | lc8 d =>
    cases h
    obtain ⟨hsize, hdir, hdecoder⟩ := placeWord_lc8_selector d w s
    have hsrc : s.work.src < max s.nLatch (s.work.src + 1) := by omega
    have htick := engineTick_lengthCode (s := { placeWord (.lc8 d) w s with agenda := s.agenda }) rfl hsize hdir rfl
      hsrc (Memory.read_write_same s.inBuf s.work.src w) (placeWord_lc8_earlierBytes d w s)
    rw [hdecoder] at htick
    exact (step_tick rfl).trans htick
  | pb8 =>
    cases h
    obtain ⟨hsize, hdir⟩ := placeWord_pb8_selector w s
    have hk : 0 < max s.work.k 1 := by omega
    exact (step_tick rfl).trans (engineTick_payloadByte rfl hsize hdir rfl hk
      (Memory.read_write_same s.inBuf s.work.src w) (placeWord_pb8_earlierBytes w s))

/-- Log entry 8: a word read by number alone is decoded in the one format its number is given. -/
theorem decodeTableWord_eq_some {nbits w : Nat} {i : Instr} (h : decodeTableWord nbits w = some i) :
    ∃ f, tableFormat nbits w = some f ∧ decode f (BitVec.ofNat 8 w) = .ok i := by
  unfold decodeTableWord at h
  split at h
  · cases h
  · next f hformat =>
    split at h
    · next j hdecode =>
      cases h
      exact ⟨f, hformat, hdecode⟩
    · cases h

/-- A word whose number has a format is placed in that format. -/
theorem withFetchWord_eq_placeWord {nbits w : Nat} {f : Format} (h : tableFormat nbits w = some f) (s : State) :
    s.withFetchWord nbits w = placeWord f (BitVec.ofNat 8 w) s := by
  rw [State.withFetchWord, h]

/-- Settles O7: the format in which the number is decoded is the one in which it is placed, and a placed instruction is
executed next. -/
theorem placedWordIsExecutedNext : Obligations.PlacedWordIsExecutedNext := by
  intro s nbits w i h
  obtain ⟨f, hformat, hdecode⟩ := decodeTableWord_eq_some h
  rw [withFetchWord_eq_placeWord hformat]
  exact step_placeWord hdecode s

end Sys2Proof.Machine
end
